-- ==== Sys2Proof/Word.lean ====
section
/-! DEFINITION. The word types of the spec and nothing else: a System register and a general register are
`bits(64)` (10_state.md rules R10, R35), a field of a register is one bit, a memory byte is eight bits. -/

namespace Sys2Proof

/-- `bits(64)`: the width of every register and of `NVMem[0x328]` (rules R10, R35, R40).
Bit 0 is the least significant bit (00_scope.md rule R6, GK24). -/
abbrev Word := BitVec 64

/-- One byte of memory. -/
abbrev Byte := BitVec 8

/-- `bits(1)`: one field of a register, compared with `'0'` and `'1'` by the pseudocode (rule R6). -/
abbrev Bit := BitVec 1

/-- The number `t` of the operand `Xt`, five bits wide (30_encoding.md rules R53, R55). -/
abbrev RegNum := BitVec 5

end Sys2Proof
end

