-- ==== Sys2Proof/Config.lean ====
section
/-! DEFINITION. What an implementation fixes for one run (00_scope.md rule R3, 92_eei_decisions.md "Open
parameters") and the free values of the model. `Config` is PLAIN DATA held in a field of the state that no
rule changes, so that every statement about all states is a statement about all configurations. -/

namespace Sys2Proof

/-- The four Exception levels, the values of `PSTATE.EL` (10_state.md rule R33, 60_exceptions.md rule R97). -/
inductive EL where
  | el0
  | el1
  | el2
  | el3
deriving DecidableEq, Repr

/-- What the machine does when an accessor reaches `UNDEFINED` or `AArch64.SystemAccessTrap`. -/
inductive OnEvent where
  /-- 60_exceptions.md rule R95 (decision D28): the event is the final verdict of the step, a fault. -/
  | stop
  /-- 60_exceptions.md rule R102 ("for a model that goes further than rule R95"): the exception is taken, in a
  handler too, where rule R96 says nothing of nesting (DESIGN CHOICE, log 28). -/
  | enter
deriving DecidableEq, Repr

/-- The parameters of 00_scope.md rule R3 and the `Config` list that closes 92_eei_decisions.md. -/
structure Config where
  /-- The register is present only when this and `featAA64` are implemented (rule R2). -/
  featSRMASK : Bool
  featAA64 : Bool
  /-- Fields CPTM0, CPTM, CPTA0, CPTA exist (rules R12 to R15). -/
  featCPA2 : Bool
  /-- Fields EnPACM0, EnPACM exist (rules R16, R17). -/
  featPAuthLR : Bool
  /-- Field EnIDCP128 exists (rule R18). -/
  featSYSREG128 : Bool
  /-- Fields EASE, NMEA exist (rules R19, R22). -/
  featDoubleFault2 : Bool
  /-- Field EnANERR exists (rule R20). -/
  featANERR : Bool
  /-- Field EnADERR exists (rule R21). -/
  featADERR : Bool
  /-- Field EMEC exists (rule R23). -/
  featMEC : Bool
  /-- The fine-grained trap of the EL1-name accessors exists (rules R70, R71). -/
  featFGT2 : Bool
  /-- EL2 is implemented (rule R25). -/
  haveEL2 : Bool
  /-- The value of `HaveEL(EL3)`. -/
  haveEL3 : Bool
  /-- Which RES0 bits of SCTLR2MASK_EL2 hold what is written to them (rule R24, decision D3). -/
  res0Stored : Word
  /-- The real bits of SCTLR2MASK_EL1, used by the default body of `effMaskEL1` (rule R28, decision D5). -/
  implMaskEL1 : Word
  /-- Whether the mask also binds a write of SCTLR2_EL2 made at EL3 (42_mask_effect.md rule R81). -/
  maskAtEL3 : Bool
  /-- Byte order of `NVMem[0x328]` in a byte memory (20_memory.md rule R43). -/
  nvBigEndian : Bool
  /-- DESIGN CHOICE (log 3): terminal verdicts of rule R95, or the exception entry of rule R102. -/
  onEvent : OnEvent
deriving DecidableEq, Repr

/-- The base configuration of 95_test_vectors.md section 2.0: every feature, EL2 and EL3 present. -/
def Config.base : Config where
  featSRMASK := true
  featAA64 := true
  featCPA2 := true
  featPAuthLR := true
  featSYSREG128 := true
  featDoubleFault2 := true
  featANERR := true
  featADERR := true
  featMEC := true
  featFGT2 := true
  haveEL2 := true
  haveEL3 := true
  res0Stored := 0
  implMaskEL1 := 0x1FFE
  maskAtEL3 := false
  nvBigEndian := false
  onEvent := .stop

/-- A FREE VALUE (log 4): the word the `n`-th draw answers. It has no body, so no proof can see it. It stands
for an architecturally UNKNOWN reset value (rule R37, decision D6), for the answer of the memory oracle on
bytes nothing has written (rule R41), for the vector offset and the unstated syndrome bits of an exception
entry (rule R102). -/
opaque Config.freeWord : Nat → Word

/-- A FREE VALUE (log 4): the number the `n`-th draw answers, taken modulo the number of outcomes the spec
admits. It stands for the orders of 20_memory.md rule R46 and the draw of 42_mask_effect.md rule R84. -/
opaque Config.freeNat : Nat → Nat

end Sys2Proof
end

