-- ==== Sys2Proof/Syntax.lean ====
section
/-! DEFINITION. The instructions, one constructor per row of spec/opcode_table.json, and the tuple of the
System register encoding space each of them is (30_encoding.md rules R50 to R54). -/

namespace Sys2Proof

/-- The direction of a System register move (rule R50): MRS reads the register, MSR writes it. -/
inductive Direction where
  | read
  | write
deriving DecidableEq, Repr

/-- The two accessor names (rules R51, R52). -/
inductive RegName where
  | sctlr2maskEL2
  | sctlr2maskEL1
deriving DecidableEq, Repr

/-- The tuple `(direction, op0, op1, CRn, CRm, op2, t)` of rule R50 (decision D1). -/
structure SysRegTuple where
  direction : Direction
  op0 : BitVec 2
  op1 : BitVec 3
  crn : BitVec 4
  crm : BitVec 4
  op2 : BitVec 3
  t : RegNum
deriving DecidableEq, Repr

/-- The four accessor instructions (rule R54, rows 1 to 4); `t` is the number of `Xt`. -/
inductive Instr where
  /-- `MRS <Xt>, SCTLR2MASK_EL2` (40_access_sctlr2mask_el2.md rule R60). -/
  | mrsSctlr2maskEl2 (t : RegNum)
  /-- `MSR SCTLR2MASK_EL2, <Xt>` (rule R61). -/
  | msrSctlr2maskEl2 (t : RegNum)
  /-- `MRS <Xt>, SCTLR2MASK_EL1` (41_access_sctlr2mask_el1.md rule R70). -/
  | mrsSctlr2maskEl1 (t : RegNum)
  /-- `MSR SCTLR2MASK_EL1, <Xt>` (rule R71). -/
  | msrSctlr2maskEl1 (t : RegNum)
deriving DecidableEq, Repr

/-- The tuple `(direction, name, t)` that 60_exceptions.md rule R95 records of an instruction. -/
structure Accessor where
  direction : Direction
  name : RegName
  t : RegNum
deriving DecidableEq, Repr

/-- Why the decoder refuses some bytes (rule R56: by name, never as a no-op and never as `Undefined`). -/
inductive DecodeReject where
  /-- Fewer than four bytes: not an instruction word. -/
  | tooFewBytes
  /-- The word has not the fixed bits of a System register move (rule R55). -/
  | notSystemRegisterMove (word : BitVec 32)
  /-- A System register move that is "not one of the four accessors of D24.2.174" (rule R56). -/
  | notOneOfTheFourAccessors (tuple : SysRegTuple)
deriving DecidableEq, Repr

end Sys2Proof
end

