-- ==== Sys2Proof/Machine/State.lean ====
section
/-! DEFINITION. The state of the machine: every piece of state the spec names (10_state.md, 20_memory.md,
60_exceptions.md rule R102), plain data; the reasons a step can stop; the state after reset. -/

namespace Sys2Proof.Machine

/-- The run-time inputs of 00_scope.md rule R5 (92_eei_decisions.md D2), the record `Env`. No instruction
changes them; only the inputs `Input.env` and `Input.reset` do. -/
structure Env where
  /-- `EffectiveHCR_EL2_NVx()`: bit 0 is the one `'xx1'` tests (rules R5, R32). -/
  nvx : BitVec 3
  /-- `EL2Enabled()`. -/
  el2Enabled : Bool
  /-- `IsHCRXEL2Enabled()`. -/
  hcrxEnabled : Bool
  /-- `ELIsInHost(EL2)`. -/
  inHostEL2 : Bool
  /-- The Effective value of HCR_EL2.E2H, used by the ordering rule only (rule R46). -/
  e2hEffective : Bit
  /-- `EL3SDDUndef()` (rule R34). -/
  sddUndef : Bool
  /-- `EL3SDDUndefPriority()` (rule R34). -/
  sddUndefPriority : Bool
  /-- `SCR_EL3.SRMASKEn` (rule R29). -/
  scrSRMASKEn : Bit
  /-- `SCR_EL3.FGTEn2` (rule R29). -/
  scrFGTEn2 : Bit
  /-- `HFGRTR2_EL2.nSCTLR2MASK_EL1` (rule R31). -/
  hfgrtr2_nSCTLR2MASK_EL1 : Bit
  /-- `HFGWTR2_EL2.nSCTLR2MASK_EL1` (rule R31). -/
  hfgwtr2_nSCTLR2MASK_EL1 : Bit
  /-- `HCRX_EL2.SRMASKEn` (rule R30). -/
  hcrxSRMASKEn : Bit
  /-- `NV_BASE`: the base the byte offset 0x328 is added to (20_memory.md rule R41). -/
  nvBase : Word
  /-- `EffectiveSCTLR2MASK_EL2()`: `none` is the default body of rule R26; `some v` is a body that answers
  `v` at this step (decision D4). -/
  effMaskEL2 : Option Word
  /-- `EffectiveSCTLR2MASK_EL1()`: `none` is the default body of rule R28; `some v` answers `v` (D5). -/
  effMaskEL1 : Option Word
  /-- Whether EL2 routes the exceptions of EL0 to itself (60_exceptions.md rule R90, GK6); read only when an
  `UNDEFINED` raised at EL0 is taken (`OnEvent.enter`). -/
  undefEL0ToEL2 : Bool
deriving DecidableEq, Repr

/-- What this spec has of `PSTATE`: the Exception level (rule R33), and that an exception entry masks
interrupts (rule R102). No rule reads `interruptsMasked` but the entry that saves it and the return. -/
structure PState where
  el : EL
  interruptsMasked : Bool
deriving DecidableEq, Repr

/-- The twelve fields of SCTLR2_EL2 that have a mask bit, and the twelve mask bits (rules R10, R27). -/
inductive MaskField where
  | cptm0
  | cptm
  | cpta0
  | cpta
  | enPACM0
  | enPACM
  | enIDCP128
  | ease
  | enANERR
  | enADERR
  | nmea
  | emec
deriving DecidableEq, Repr

/-- SCTLR2_EL2: a record of its twelve named fields, one bit each (rule R27, decision D17). -/
structure Sctlr2 where
  cptm0 : Bit
  cptm : Bit
  cpta0 : Bit
  cpta : Bit
  enPACM0 : Bit
  enPACM : Bit
  enIDCP128 : Bit
  ease : Bit
  enANERR : Bit
  enADERR : Bit
  nmea : Bit
  emec : Bit
deriving DecidableEq, Repr

/-- The registers an exception taken to one Exception level uses (rule R102, GK5): the syndrome, link and
saved-status registers it writes and the vector base it reads. `spsr` holds the saved `PSTATE` as data: the
spec gives SPSR no bit layout. -/
structure ExcRegs where
  esr : Word
  elr : Word
  spsr : PState
  vbar : Word
deriving DecidableEq, Repr

/-- The levels an exception is taken to: EL1, EL2 or EL3, never EL0 (rules R90, R91, R102). -/
inductive HandlerEL where
  | el1
  | el2
  | el3
deriving DecidableEq, Repr

/-- The target of `AArch64.SystemAccessTrap`: EL2 or EL3 "and never anything else on this page" (R91). -/
inductive TrapTarget where
  | el2
  | el3
deriving DecidableEq, Repr

/-- The reason tags of `Undefined` (60_exceptions.md rule R93). -/
inductive UndefReason where
  | notPresent
  | atEL0
  | el2NameFromEL1
  | sddPriority
  | sddUndef
  | lockEL1
  | lockEL2
deriving DecidableEq, Repr

/-- The reason tags of `Trap` (60_exceptions.md rule R93). -/
inductive TrapReason where
  | nvTrap
  | fgt2Trap
  | hcrxTrap
  | el3Trap
deriving DecidableEq, Repr

/-- The two events an accessor can raise (rules R90, R91), each with its reason tag. -/
inductive Event where
  | undefined (why : UndefReason)
  | trap (target : TrapTarget) (why : TrapReason)
deriving DecidableEq, Repr

/-- Memory is a list of (address, byte) pairs in one canonical form: addresses strictly rising. An unlisted
byte holds no value, so no entry can equal what an unlisted address reads as. -/
abbrev Memory := List Host.Cell

/-- A range of addresses: `size` bytes from `base`. -/
structure Region where
  base : Nat
  size : Nat
deriving DecidableEq, Repr

/-- Where a value comes from that an access uses: a word, or the result of the open access numbered `id`. -/
inductive WriteSource where
  | word (v : Word)
  | ofRead (id : Nat)
deriving DecidableEq, Repr

/-- What an access does to SCTLR2MASK_EL2 (rule R46): an MRS reads it, an MSR tests the lock and then writes
it. An access that the EL1 name takes elsewhere does nothing to it, and has its place among the accesses by that
name all the same (rule R47). -/
inductive AccessKind where
  | read
  /-- `body` is the body of `EffectiveSCTLR2MASK_EL2()` at the test (`Env.effMaskEL2`). -/
  | test (body : Option Word)
  | write (src : WriteSource)
  /-- Of SCTLR2MASK_EL1 or of the cell; what it reads or writes is its result, and comes from `src`. -/
  | elsewhere (src : WriteSource)
  /-- The lock test of SCTLR2MASK_EL1, with the open access whose result is tested. -/
  | testEL1 (use : Option Nat)
deriving DecidableEq, Repr

/-- One access by one of the two accessor names; `id` numbers it among the accesses of its window, in program
order. -/
structure Access where
  id : Nat
  name : RegName
  kind : AccessKind
deriving DecidableEq, Repr

/-- Where the four instructions can bring a value they have read: `X[t]`, SCTLR2MASK_EL1, the memory cell at
`addr`, and the `k`-th recorded event of the cell. -/
inductive Place where
  | x (t : RegNum)
  | maskEL1
  | cell (addr : Nat)
  | event (k : Nat)
deriving DecidableEq, Repr

/-- The place holds the result of the open access numbered `id`. -/
structure Held where
  place : Place
  id : Nat
deriving DecidableEq, Repr

/-- The accesses by the two names since the last synchronization, from the first under the ordering rule R46 on
(rules R46, R47). When `order` is
empty the other fields are not read. -/
structure Window where
  /-- The register's value before the accesses. -/
  base : Word
  /-- The accesses, in the order they are performed, oldest first. -/
  order : List Access
  /-- The places that hold results of them. -/
  held : List Held
deriving DecidableEq, Repr

/-- An access of the memory cell `NVMem[0x328]`, recorded as an event (rules R41, R42, R47). -/
inductive NvEvent where
  | memRead (addr : Nat) (v : Word)
  | memWrite (addr : Nat) (v : Word)
  | agentWrite (addr : Nat) (v : Word)
deriving DecidableEq, Repr

/-- Why an access of `NVMem[0x328]` has no meaning (20_memory.md rules R44, R48). -/
inductive NvStuck where
  /-- `NV_BASE` is not a multiple of 8. -/
  | baseMisaligned
  /-- The eight bytes at `NV_BASE + 0x328` do not fit below 2^64. -/
  | outsideAddressSpace
  /-- One of the eight bytes is not memory the launch admits. -/
  | notAdmitted
  /-- The cell overlaps the program text (premise `TextFixed`). -/
  | overlapsText
deriving DecidableEq, Repr

/-- What a reset does not give (10_state.md rule R38, decision D21): everything of the launch state but
SCTLR2MASK_EL2, the run-time inputs and the contents of memory included. -/
structure Launch where
  env : Env
  x : Vector Word 31
  pc : Word
  pstate : PState
  sctlr2maskEL1 : Word
  sctlr2EL2 : Sctlr2
  excEL1 : ExcRegs
  excEL2 : ExcRegs
  excEL3 : ExcRegs
  /-- What memory holds, in any order; of two entries of one address the later counts. -/
  mem : List Host.Cell
deriving DecidableEq, Repr

/-- What the outside of the four instructions can do to the machine, between two instructions. -/
inductive Input where
  /-- The inputs of rule R5 take new values (premise `EnvPerStep`, rules R33, R97). -/
  | env (el : EL) (e : Env)
  /-- The abstract event `Sync`, "explicit synchronization" (rule R46, decision D14). -/
  | sync
  /-- Another agent writes the eight bytes of the cell `NVMem[0x328]` (rules R41, R101). -/
  | agentWrite (v : Word)
  /-- The abstract operation `WriteSCTLR2_EL2(v)` (42_mask_effect.md rule R81). -/
  | writeSctlr2EL2 (v : Word)
  /-- The event `Reset` (70_reset_and_hazards.md rule R110). -/
  | reset (l : Launch)
  /-- The return from an exception (60_exceptions.md rule R96, GK5), made by code outside this spec. -/
  | exceptionReturn
deriving DecidableEq, Repr

/-- The state of the machine. -/
structure State where
  /-- The configuration, constant over a run (rule R3). -/
  cfg : Config
  /-- The run-time inputs (rule R5). -/
  env : Env
  /-- `PSTATE` (rule R33). -/
  pstate : PState
  /-- X0 to X30 (rule R35). -/
  x : Vector Word 31
  /-- The program counter (rule R36). -/
  pc : Word
  /-- The stored value of SCTLR2MASK_EL2 (rules R10, R24). -/
  sctlr2maskEL2 : Word
  /-- The stored value of SCTLR2MASK_EL1 (rule R28). -/
  sctlr2maskEL1 : Word
  /-- SCTLR2_EL2 (rule R27). -/
  sctlr2EL2 : Sctlr2
  /-- ESR, ELR, SPSR, VBAR of EL1 (rules R90, R102). -/
  excEL1 : ExcRegs
  /-- ESR, ELR, SPSR, VBAR of EL2 (rule R102). -/
  excEL2 : ExcRegs
  /-- ESR, ELR, SPSR, VBAR of EL3 (rule R102). -/
  excEL3 : ExcRegs
  /-- Memory, of which the accessors reach the cell `NVMem[0x328]` (rule R40). -/
  mem : Memory
  /-- The memory the launch admits (premise `NVCellAdmitted`, rules R44, R113). -/
  regions : List Region
  /-- The program text, fixed for the run and no address space of the model (rules R45, R48). -/
  text : Memory
  /-- Accesses by the two names whose order is still open (rule R46). -/
  window : Window
  /-- The stored values SCTLR2MASK_EL2 has held since the last synchronization (rule R84). -/
  maskHist : List Word
  /-- The accesses of `NVMem[0x328]` made so far, oldest first (rules R42, R47). -/
  nvEvents : List NvEvent
  /-- THE MODEL'S OWN: how many free values have been drawn (log 4). -/
  draws : Nat
  /-- What reaches the machine from outside, and when: one entry for each step to come, `none` where an
  instruction of the program runs; past its end only instructions run (log 8). -/
  inputs : List (Option Input)
deriving DecidableEq, Repr

/-- The reasons the machine stops. -/
inductive Fault where
  /-- Raised by every accessor that reaches `UNDEFINED` while `onEvent` is `stop` (rules R90, R93, R95): the
  tag, the instruction's address and its tuple. Safe: no run continues. -/
  | undefined (why : UndefReason) (pc : Word) (instr : Accessor)
  /-- Raised by every accessor that reaches `AArch64.SystemAccessTrap(target, code)` while `onEvent` is
  `stop` (rules R91, R93, R95). Safe: no run continues. -/
  | trap (target : TrapTarget) (code : Nat) (why : TrapReason) (pc : Word) (instr : Accessor)
  /-- Raised by the EL1-name accessors on the memory path when the launch does not admit the cell
  (20_memory.md rule R44: "the PE is stuck"). Safe. -/
  | nvStuck (why : NvStuck) (pc : Word) (addr : Nat)
  /-- Raised by the fetch at a `pc` that is no multiple of 4 (rules R36, R44, GK4). Safe. -/
  | misalignedPc (pc : Word)
deriving DecidableEq, Repr

/-- The reasons the model gives no meaning. -/
inductive Refusal where
  /-- Raised by `exec` for an instruction that has no meaning yet; none is left. Safe. -/
  | notModelled (mnemonic : String)
  /-- Raised by every accessor at a `pc` for which `pc + 4` does not fit in 64 bits (rule R36). Safe. -/
  | pcOverflow (pc : Word)
  /-- Raised by the fetch where the program text has no instruction at `pc`: the run is over (R48). Safe. -/
  | noInstruction (pc : Word)
  /-- Raised by the fetch at a word that is not one of the four accessors (rule R56). Safe. -/
  | notDecoded (why : DecodeReject)
  /-- Raised by `WriteSCTLR2_EL2` at EL0 and EL1, "not given by this spec" (rule R81). Safe. -/
  | sctlr2WriteBelowEL2
  /-- Raised by the input `agentWrite` when the launch does not admit the cell (rule R44). Safe. -/
  | agentWriteNotAdmitted (why : NvStuck)
  /-- Raised by the input `exceptionReturn` while `onEvent` is `stop`: none is modelled (D28). Safe. -/
  | returnNotModelled
  /-- Raised by the input `exceptionReturn` at EL0, which has no saved status (rule R96). Safe. -/
  | returnAtEL0
deriving DecidableEq, Repr

/-- The registers of an exception level after reset (log 2: DESIGN CHOICE, the spec gives none). -/
def ExcRegs.zero : ExcRegs := ⟨0, 0, ⟨.el0, false⟩, 0⟩

/-- SCTLR2_EL2 with every field 0 (log 2). -/
def Sctlr2.zero : Sctlr2 := ⟨0, 0, 0, 0, 0, 0, 0, 0, 0, 0, 0, 0⟩

/-- The base inputs of 95_test_vectors.md section 2.0, with `NV_BASE` as in section 2.11 (log 2). That section has
no input for whether EL2 routes the exceptions of EL0 to itself; that it does not is the model's choice (DESIGN
CHOICE, log 2). -/
def Env.base : Env where
  nvx := 0b000
  el2Enabled := true
  hcrxEnabled := true
  inHostEL2 := false
  e2hEffective := 0
  sddUndef := false
  sddUndefPriority := false
  scrSRMASKEn := 1
  scrFGTEn2 := 1
  hfgrtr2_nSCTLR2MASK_EL1 := 1
  hfgwtr2_nSCTLR2MASK_EL1 := 1
  hcrxSRMASKEn := 1
  nvBase := 0x80001000
  effMaskEL2 := none
  effMaskEL1 := none
  undefEL0ToEL2 := false

/-- The machine right after a Warm reset, in the configuration of vector Z1 (EL2 present, EL3 absent), where
rule R37 gives SCTLR2MASK_EL2 the value 0; the highest Exception level, EL2, is the current one (GK16, log 1).
Every other value is the model's (log 2): rule R38 gives none. -/
def State.reset : State where
  cfg := { Config.base with haveEL3 := false }
  env := Env.base
  pstate := ⟨.el2, true⟩
  x := Vector.replicate 31 0
  pc := 0x1000
  sctlr2maskEL2 := 0
  sctlr2maskEL1 := 0
  sctlr2EL2 := Sctlr2.zero
  excEL1 := ExcRegs.zero
  excEL2 := ExcRegs.zero
  excEL3 := ExcRegs.zero
  mem := []
  regions := [⟨0, 2 ^ 64⟩]
  text := []
  window := ⟨0, [], []⟩
  maskHist := []
  nvEvents := []
  draws := 0
  inputs := []

/-! The updates of the state, one field each; every operation of the model is composed of them. -/

/-- `pc <- v`. -/
def State.setPc (s : State) (v : Word) : State := { s with pc := v }

/-- Replaces X0 to X30. -/
def State.setX (s : State) (v : Vector Word 31) : State := { s with x := v }

/-- Replaces `PSTATE`. -/
def State.setPState (s : State) (v : PState) : State := { s with pstate := v }

/-- Replaces the run-time inputs. -/
def State.setEnv (s : State) (v : Env) : State := { s with env := v }

/-- Replaces the stored SCTLR2MASK_EL2. -/
def State.setMaskEL2 (s : State) (v : Word) : State := { s with sctlr2maskEL2 := v }

/-- Replaces the stored SCTLR2MASK_EL1. -/
def State.setMaskEL1 (s : State) (v : Word) : State := { s with sctlr2maskEL1 := v }

/-- Replaces SCTLR2_EL2. -/
def State.setSctlr2 (s : State) (v : Sctlr2) : State := { s with sctlr2EL2 := v }

/-- Replaces the exception registers of EL1. -/
def State.setExcEL1 (s : State) (v : ExcRegs) : State := { s with excEL1 := v }

/-- Replaces the exception registers of EL2. -/
def State.setExcEL2 (s : State) (v : ExcRegs) : State := { s with excEL2 := v }

/-- Replaces the exception registers of EL3. -/
def State.setExcEL3 (s : State) (v : ExcRegs) : State := { s with excEL3 := v }

/-- Replaces memory. -/
def State.setMem (s : State) (v : Memory) : State := { s with mem := v }

/-- Replaces the program text; only the loading of a program does. -/
def State.setText (s : State) (v : Memory) : State := { s with text := v }

/-- Replaces the window of unordered accesses. -/
def State.setWindow (s : State) (v : Window) : State := { s with window := v }

/-- Replaces the history of the mask. -/
def State.setMaskHist (s : State) (v : List Word) : State := { s with maskHist := v }

/-- Replaces the recorded `NVMem` accesses. -/
def State.setNvEvents (s : State) (v : List NvEvent) : State := { s with nvEvents := v }

/-- Replaces the count of free values drawn. -/
def State.setDraws (s : State) (v : Nat) : State := { s with draws := v }

/-- Replaces the waiting inputs. -/
def State.setInputs (s : State) (v : List (Option Input)) : State := { s with inputs := v }

end Sys2Proof.Machine
end

