-- ==== Sys2Proof/Machine/Flags.lean ====
section
/-! DEFINITION. The one-bit fields and what is computed from them: the twelve mask bits, `IMPL_MASK`, the
stored and the Effective value of SCTLR2MASK_EL2, the masked write. The four instructions read and write no
condition flag (10_state.md rule R33), so the mask bits are all the flags this hardware has. -/

namespace Sys2Proof.Machine

/-- The bit of SCTLR2MASK_EL2 a field is (10_state.md rules R12 to R23), and the position of the like-named
field in a 64-bit image of SCTLR2_EL2 (rule R27, decision D17). -/
def MaskField.bit : MaskField → Nat
  | .cptm0 => 12
  | .cptm => 11
  | .cpta0 => 10
  | .cpta => 9
  | .enPACM0 => 8
  | .enPACM => 7
  | .enIDCP128 => 6
  | .ease => 5
  | .enANERR => 4
  | .enADERR => 3
  | .nmea => 2
  | .emec => 1

/-- The feature a field exists with (rules R12 to R23). -/
def MaskField.implemented (c : Config) : MaskField → Bool
  | .cptm0 => c.featCPA2
  | .cptm => c.featCPA2
  | .cpta0 => c.featCPA2
  | .cpta => c.featCPA2
  | .enPACM0 => c.featPAuthLR
  | .enPACM => c.featPAuthLR
  | .enIDCP128 => c.featSYSREG128
  | .ease => c.featDoubleFault2
  | .enANERR => c.featANERR
  | .enADERR => c.featADERR
  | .nmea => c.featDoubleFault2
  | .emec => c.featMEC

/-- The named field `F` of a 64-bit value: `v.F` of rule R80. -/
def maskBit (v : Word) (f : MaskField) : Bit := v.extractLsb' f.bit 1

/-- The bits of the implemented features, without the condition on EL2 (the table of rule R4). -/
def featureMask (c : Config) : Word :=
  (if c.featCPA2 then 0x1E00#64 else 0#64)
    ||| (if c.featPAuthLR then 0x180#64 else 0#64)
    ||| (if c.featSYSREG128 then 0x40#64 else 0#64)
    ||| (if c.featDoubleFault2 then 0x24#64 else 0#64)
    ||| (if c.featANERR then 0x10#64 else 0#64)
    ||| (if c.featADERR then 0x8#64 else 0#64)
    ||| (if c.featMEC then 0x2#64 else 0#64)

/-- `IMPL_MASK`: the bits of SCTLR2MASK_EL2 that are real fields; zero when EL2 is not implemented
(00_scope.md rule R4, 10_state.md rule R25, conflict C1). -/
def implMask (c : Config) : Word := if c.haveEL2 then featureMask c else 0#64

/-- The default of the parameter `IMPL_MASK_EL1`: as `IMPL_MASK`, without the condition on EL2
(10_state.md rule R28, conflict C7). -/
def defaultImplMaskEL1 (c : Config) : Word := featureMask c

/-- The bits of SCTLR2MASK_EL2 that hold what is written to them (rule R24). -/
def storableMask (c : Config) : Word := implMask c ||| c.res0Stored

/-- The stored result of `SCTLR2MASK_EL2 <- v` (rule R24). -/
def storedMask (c : Config) (v : Word) : Word := v &&& storableMask c

/-- The highest implemented Exception level (rule R3). -/
def highestEL (c : Config) : EL :=
  if c.haveEL3 then .el3 else if c.haveEL2 then .el2 else .el1

/-- `EffectiveSCTLR2MASK_EL2()` with the body `body` when the stored value is `stored` (rule R26): by default
the stored value with every RES0 bit taken as 0. -/
def effectiveBody (c : Config) (body : Option Word) (stored : Word) : Word :=
  match body with
  | none => stored &&& implMask c
  | some v => v

/-- `EffectiveSCTLR2MASK_EL2()` when the stored value is `stored` (rule R26): the function `effMaskEL2`. -/
def effectiveEL2 (c : Config) (e : Env) (stored : Word) : Word := effectiveBody c e.effMaskEL2 stored

/-- `EffectiveSCTLR2MASK_EL2()` (rule R26). -/
def effMaskEL2 (s : State) : Word := effectiveEL2 s.cfg s.env s.sctlr2maskEL2

/-- `EffectiveSCTLR2MASK_EL1()` (rule R28, decision D5). -/
def effMaskEL1 (s : State) : Word :=
  match s.env.effMaskEL1 with
  | none => s.sctlr2maskEL1 &&& s.cfg.implMaskEL1
  | some v => v

/-- `MaskedWrite(old, new, m)` on 64-bit images (42_mask_effect.md rule R80). -/
def maskedWrite (old new m : Word) : Word := (new &&& ~~~m) ||| (old &&& m)

/-- The named field `F` of SCTLR2_EL2 (rule R27). -/
def Sctlr2.get (r : Sctlr2) : MaskField → Bit
  | .cptm0 => r.cptm0
  | .cptm => r.cptm
  | .cpta0 => r.cpta0
  | .cpta => r.cpta
  | .enPACM0 => r.enPACM0
  | .enPACM => r.enPACM
  | .enIDCP128 => r.enIDCP128
  | .ease => r.ease
  | .enANERR => r.enANERR
  | .enADERR => r.enADERR
  | .nmea => r.nmea
  | .emec => r.emec

/-- SCTLR2_EL2 with each field given by name. -/
def Sctlr2.ofFields (f : MaskField → Bit) : Sctlr2 where
  cptm0 := f .cptm0
  cptm := f .cptm
  cpta0 := f .cpta0
  cpta := f .cpta
  enPACM0 := f .enPACM0
  enPACM := f .enPACM
  enIDCP128 := f .enIDCP128
  ease := f .ease
  enANERR := f .enANERR
  enADERR := f .enADERR
  nmea := f .nmea
  emec := f .emec

/-- The twelve fields of a 64-bit value at the positions of the like-named mask bits (rule R27, D17). -/
def Sctlr2.ofImage (v : Word) : Sctlr2 := Sctlr2.ofFields (maskBit v)

/-- The 64-bit image of the twelve fields; every other bit is 0 (rule R27, D17). -/
def Sctlr2.image (r : Sctlr2) : Word :=
  (0#51 ++ r.cptm0 ++ r.cptm ++ r.cpta0 ++ r.cpta ++ r.enPACM0 ++ r.enPACM ++ r.enIDCP128 ++ r.ease
    ++ r.enANERR ++ r.enADERR ++ r.nmea ++ r.emec ++ 0#1 : BitVec 64)

/-- The masked write, field by field: a field whose mask bit is 1 keeps its old value, and a field whose
mask bit is 0 takes its new one (42_mask_effect.md rules R80, R82). -/
def Sctlr2.maskedWrite (old new : Sctlr2) (m : Word) : Sctlr2 :=
  Sctlr2.ofFields fun f => if maskBit m f = 1#1 then old.get f else new.get f

end Sys2Proof.Machine
end

