-- ==== Sys2Proof/Machine/Operands.lean ====
section
/-! DEFINITION. The operands of the four instructions: the general register `Xt` (10_state.md rule R35) and
the memory cell `NVMem[0x328]` (20_memory.md rules R40 to R44), with the byte memory under it. -/

namespace Sys2Proof.Machine

/-- `X[t, 64]` on the right of `=`: register 31 is the zero register (rule R35, decision D9). -/
def readX (s : State) (t : RegNum) : Word :=
  if h : t.toNat < 31 then s.x[t.toNat] else 0#64

/-- `X[t, 64]` on the left of `=`: a write of register 31 is discarded (rule R35, decision D9). -/
def writeX (s : State) (t : RegNum) (v : Word) : State :=
  if h : t.toNat < 31 then s.setX (s.x.set t.toNat v h) else s

/-- The byte at an address; `none` when nothing has written it. -/
def memGet : Memory → Nat → Option Byte
  | [], _ => none
  | (b, v) :: rest, a => if b = a then some v else memGet rest a

/-- Writes one byte and keeps the addresses strictly rising. -/
def memSet : Memory → Nat → Byte → Memory
  | [], a, v => [(a, v)]
  | (b, w) :: rest, a, v =>
    if a < b then (a, v) :: (b, w) :: rest
    else if a = b then (a, v) :: rest
    else (b, w) :: memSet rest a v

/-- Every address of the memory is above `a`. -/
def memAbove (a : Nat) : Memory → Bool
  | [] => true
  | (b, _) :: rest => decide (a < b) && memAbove a rest

/-- The canonical form: addresses strictly rising and below 2^64. -/
def memWf : Memory → Bool
  | [] => true
  | (a, _) :: rest => memAbove a rest && decide (a < 2 ^ 64) && memWf rest

/-- Byte `i` of a 64-bit value, byte 0 the least significant. -/
def byteOf (v : Word) (i : Nat) : Byte := v.extractLsb' (8 * i) 8

/-- The 64-bit value whose byte `i` is `f i`. -/
def wordOf (f : Nat → Byte) : Word :=
  (f 7 ++ f 6 ++ f 5 ++ f 4 ++ f 3 ++ f 2 ++ f 1 ++ f 0 : BitVec 64)

/-- Which byte of the value stands `i` bytes above the cell's address: `i`, or `7 - i` when `NV_BIGENDIAN`
(20_memory.md rule R43). -/
def byteIndex (bigEndian : Bool) (i : Nat) : Nat := if bigEndian then 7 - i else i

/-- `MemRead(addr, 8)`: the eight bytes at `addr`; a byte nothing has written is that byte of the free word
`oracle` (20_memory.md rules R41, R43, U15). -/
def memRead8 (bigEndian : Bool) (m : Memory) (addr : Nat) (oracle : Word) : Word :=
  wordOf fun i => (memGet m (addr + byteIndex bigEndian i)).getD (byteOf oracle i)

/-- Writes the bytes of `v` at `addr`, `addr + 1`, … -/
def memWriteBytes (m : Memory) (addr : Nat) : List Byte → Memory
  | [] => m
  | b :: bs => memWriteBytes (memSet m addr b) (addr + 1) bs

/-- The memory, in its canonical form, that some bytes make up; an address of 2^64 or above is none. -/
def memOf (cells : List Host.Cell) : Memory :=
  cells.foldl (fun m c => if c.1 < 2 ^ 64 then memSet m c.1 c.2 else m) []

/-- `MemWrite(addr, 8, v)`: all 64 bits are written (20_memory.md rules R42, R43). -/
def memWrite8 (bigEndian : Bool) (m : Memory) (addr : Nat) (v : Word) : Memory :=
  memWriteBytes m addr ((List.range 8).map fun i => byteOf v (byteIndex bigEndian i))

/-- The address of the cell: `NV_BASE + 0x328` (20_memory.md rule R41). -/
def nvAddr (s : State) : Nat := s.env.nvBase.toNat + 0x328

/-- The address lies in some region. -/
def inRegions (rs : List Region) (a : Nat) : Bool :=
  rs.any fun r => decide (r.base ≤ a) && decide (a < r.base + r.size)

/-- Some byte of the program text lies in the eight bytes at `addr`. -/
def overlapsText (text : Memory) (addr : Nat) : Bool :=
  text.any fun c => decide (addr ≤ c.1) && decide (c.1 < addr + 8)

/-- Why an access of the cell has no meaning, or `none` when the launch admits it: `NV_BASE` a multiple of 8,
the eight bytes below 2^64, admitted memory and disjoint from the program text (20_memory.md rules R44, R48;
premises `NVCellAdmitted` and `TextFixed` of 70_reset_and_hazards.md rule R113). -/
def nvCheck (s : State) : Option NvStuck :=
  if s.env.nvBase.toNat % 8 ≠ 0 then some .baseMisaligned
  else if 2 ^ 64 < nvAddr s + 8 then some .outsideAddressSpace
  else if !((List.range 8).all fun i => inRegions s.regions (nvAddr s + i)) then some .notAdmitted
  else if overlapsText s.text (nvAddr s) then some .overlapsText
  else none

end Sys2Proof.Machine
end

