-- ==== Sys2Proof/Machine/Ops.lean ====
section
/-! DEFINITION. The shared operations of the meanings: drawing a free value, the ordering window of rule R46,
reading and writing SCTLR2MASK_EL2 through it, the access of `NVMem[0x328]`, raising and taking an exception,
returning from one, and completing an instruction. -/

namespace Sys2Proof.Machine

/-! Free values. -/

/-- Draws a free word (log 4). -/
def drawWord (s : State) : Word × State := (Config.freeWord s.draws, s.setDraws (s.draws + 1))

/-- Draws a free number from 0 to `k` (log 4); with one outcome there is nothing to draw. -/
def drawUpTo (k : Nat) (s : State) : Nat × State :=
  if k = 0 then (0, s) else (Config.freeNat s.draws % (k + 1), s.setDraws (s.draws + 1))

/-- Draws one of some numbers (log 4). -/
def drawFrom (choices : List Nat) (s : State) : Nat × State :=
  (choices.getD (drawUpTo (choices.length - 1) s).1 0, (drawUpTo (choices.length - 1) s).2)

/-! The order of accesses by the two names (20_memory.md rules R46, R47): the accesses that are open, what each
of them gives when they are performed in their order, where a new one may be put among them, and which places
hold what they gave (log 7). -/

/-- The ordering rule applies to an access made now: at EL2, with the Effective value of HCR_EL2.E2H equal to
1 or in host mode (rule R46, decision D14, conflict C5). -/
def unordered (s : State) : Bool :=
  decide (s.pstate.el = .el2) && (decide (s.env.e2hEffective = 1#1) || s.env.inHostEL2)

/-- An access made now is one of the open ones: the ordering rule applies to it, or, at whatever level it is
made, no synchronization has come since an access it applied to (DESIGN CHOICE, log 7: rule R46 says nothing of
the latter, and no access but `Sync` restores program order). -/
def recorded (s : State) : Bool := unordered s || !s.window.order.isEmpty

/-- No access is open. -/
def Window.empty : Window := ⟨0, [], []⟩

/-- What performing some accesses gives: the register's value, and their results by number. -/
structure Replay where
  mask : Word
  seen : List (Nat × Word)
deriving DecidableEq, Repr

/-- The result of the access numbered `id`. -/
def seenAt : List (Nat × Word) → Nat → Word
  | [], _ => 0#64
  | (k, v) :: rest, id => if k = id then v else seenAt rest id

/-- The value an access has from its source. -/
def sourceValue (r : Replay) : WriteSource → Word
  | .word v => v
  | .ofRead id => seenAt r.seen id

/-- One access is performed (rule R24 for the write). -/
def performAccess (c : Config) (r : Replay) (a : Access) : Replay :=
  match a.kind with
  | .read => { r with seen := (a.id, r.mask) :: r.seen }
  | .test _ => r
  | .elsewhere src => { r with seen := (a.id, sourceValue r src) :: r.seen }
  | .testEL1 _ => r
  | .write src => { r with mask := storedMask c (sourceValue r src) }

/-- The accesses of `order` are performed, from the register's value `base`. -/
def replay (c : Config) (base : Word) (order : List Access) : Replay :=
  order.foldl (performAccess c) ⟨base, []⟩

/-- How many of the latest accesses an access by the name `n` may be performed before: those that use the
other name (rules R46, R47). -/
def freedom (n : RegName) (order : List Access) : Nat :=
  (order.reverse.takeWhile fun a => decide (a.name ≠ n)).length

/-- The window, opened at the register's value when no access is in it. -/
def openWindow (s : State) : Window :=
  if s.window.order = [] then { Window.empty with base := s.sctlr2maskEL2 } else s.window

/-- The register's value when the last `back` accesses of the window are not yet performed. -/
def valueBefore (c : Config) (back : Nat) (w : Window) : Word :=
  (replay c w.base (w.order.take (w.order.length - back))).mask

/-- Puts an access before the last `back` accesses of the window. -/
def insertAccess (back : Nat) (a : Access) (w : Window) : Window :=
  { w with order := w.order.take (w.order.length - back) ++ a :: w.order.drop (w.order.length - back) }

/-! Which places hold the results of open accesses. -/

/-- The number of the open access whose result the place holds. -/
def heldAt (p : Place) : List Held → Option Nat
  | [] => none
  | h :: rest => if h.place = p then some h.id else heldAt p rest

/-- The place gets a value: the result of the open access `r`, or one of none. -/
def hold (p : Place) (r : Option Nat) (l : List Held) : List Held :=
  (r.map fun id => ⟨p, id⟩).toList ++ l.filter fun h => decide (h.place ≠ p)

/-- `X[t]` gets a value; register 31 holds none (rule R35). -/
def holdX (t : RegNum) (r : Option Nat) (l : List Held) : List Held :=
  if t = 31#5 then l else hold (.x t) r l

/-- The open access whose result the place now holds. -/
def readHeldAt (p : Place) (s : State) : Option Nat := heldAt p s.window.held

/-- Replaces which places hold results of open accesses. -/
def setHeld (l : List Held) (s : State) : State := s.setWindow { s.window with held := l }

/-- The value of a recorded event of the cell. -/
def NvEvent.value : NvEvent → Word
  | .memRead _ v => v
  | .memWrite _ v => v
  | .agentWrite _ v => v

/-- A recorded event of the cell with another value. -/
def NvEvent.withValue (v : Word) : NvEvent → NvEvent
  | .memRead a _ => .memRead a v
  | .memWrite a _ => .memWrite a v
  | .agentWrite a _ => .agentWrite a v

/-- Puts a value in a place. -/
def putPlace (p : Place) (v : Word) (s : State) : State :=
  match p with
  | .x t => writeX s t v
  | .maskEL1 => s.setMaskEL1 v
  | .cell a => s.setMem (memWrite8 s.cfg.nvBigEndian s.mem a v)
  | .event k => s.setNvEvents (s.nvEvents.modify k (NvEvent.withValue v))

/-- The places that hold results of open accesses get what those now give: `before` and `after` are all the
results, by number. -/
def refreshHeld (before after : List (Nat × Word)) : List Held → State → State
  | [], s => s
  | h :: rest, s =>
    refreshHeld before after rest
      (if seenAt after h.id = seenAt before h.id then s else putPlace h.place (seenAt after h.id) s)

/-! Where an access may be put. -/

/-- Where the value `v` that a place holds comes from: the open access whose result it is, if it is one's. -/
def sourceAt (p : Place) (v : Word) (s : State) : WriteSource :=
  match readHeldAt p s with
  | some id => .ofRead id
  | none => .word v

/-- What an MSR of `X[t]` writes from. -/
def sourceOf (t : RegNum) (s : State) : WriteSource := sourceAt (.x t) (readX s t) s

/-- The access whose result an access needs. -/
def Access.needs (a : Access) : Option Nat :=
  match a.kind with
  | .read => none
  | .test _ => none
  | .write (.word _) => none
  | .write (.ofRead id) => some id
  | .elsewhere (.word _) => none
  | .elsewhere (.ofRead id) => some id
  | .testEL1 use => use

/-- The access whose result an access needs is among those performed: the one that read its operand, of
whatever location (rule R47). -/
def sourceReady (performed : List Access) (a : Access) : Bool :=
  a.needs.all fun id => performed.any fun b => decide (b.id = id)

/-- An access performed after `after` in place of `before` keeps what has followed from it: a lock test its
outcome, of SCTLR2MASK_EL2 or, where SCTLR2MASK_EL1 held the result of an open access, of that (log 7). -/
def keepsOutcome (c : Config) (before after : Replay) (a : Access) : Bool :=
  match a.kind with
  | .read => true
  | .test body =>
    decide (effectiveBody c body after.mask = 0#64) == decide (effectiveBody c body before.mask = 0#64)
  | .write _ => true
  | .elsewhere _ => true
  | .testEL1 use => use.all fun id =>
    decide (seenAt after.seen id &&& c.implMaskEL1 = 0#64) ==
      decide (seenAt before.seen id &&& c.implMaskEL1 = 0#64)

/-- Each of some accesses keeps what has followed from it when they are performed from `after` in place of
`before`. -/
def keepOutcomes (c : Config) : Replay → Replay → List Access → Bool
  | _, _, [] => true
  | before, after, a :: rest =>
    keepsOutcome c before after a && keepOutcomes c (performAccess c before a) (performAccess c after a) rest

/-- The access `a` may be performed before the last `back` accesses of the window. -/
def mayPutAt (c : Config) (w : Window) (a : Access) (back : Nat) : Bool :=
  sourceReady (w.order.take (w.order.length - back)) a &&
    keepOutcomes c (replay c w.base (w.order.take (w.order.length - back)))
      (performAccess c (replay c w.base (w.order.take (w.order.length - back))) a)
      (w.order.drop (w.order.length - back))

/-- The places the access `a` may take: before how many of the latest accesses of the window. -/
def placesFor (c : Config) (w : Window) (a : Access) : List Nat :=
  (List.range (freedom a.name w.order + 1)).filter (mayPutAt c w a)

/-! The accesses. -/

/-- The next access of the window by the name `n`. -/
def nextAccess (n : RegName) (kind : AccessKind) (s : State) : Access := ⟨s.window.order.length, n, kind⟩

/-- The stored values the mask may still be seen to have (42_mask_effect.md rule R84) after a write of `v`. -/
def noteMaskWrite (v : Word) (s : State) : State :=
  s.setMaskHist (s.maskHist ++ [s.sctlr2maskEL2, v])

/-- A read of SCTLR2MASK_EL2 into `X[t]` performed before the last `back` accesses of the window: its value, and
the window with it in and `X[t]` holding its result. -/
def readMaskAt (back : Nat) (n : RegName) (t : RegNum) (s : State) : Word × State :=
  (valueBefore s.cfg back (openWindow s),
    s.setWindow { insertAccess back (nextAccess n .read s) (openWindow s) with
      held := holdX t (some s.window.order.length) (openWindow s).held })

/-- The lock test of an MSR performed before the last `back` accesses of the window: whether it refuses the
write, and the window with it in. -/
def testMaskAt (back : Nat) (n : RegName) (s : State) : Bool × State :=
  (decide (effectiveEL2 s.cfg s.env (valueBefore s.cfg back (openWindow s)) ≠ 0#64),
    s.setWindow (insertAccess back (nextAccess n (.test s.env.effMaskEL2) s) (openWindow s)))

/-- The write `a` of SCTLR2MASK_EL2 performed before the last `back` accesses of the window: the register has
what all of them leave, and the places that hold the results of open accesses what those now give (rule R46,
items 2 and 3). -/
def writeMaskAt (back : Nat) (a : Access) (s : State) : State :=
  refreshHeld (replay s.cfg (openWindow s).base (openWindow s).order).seen
    (replay s.cfg (openWindow s).base (insertAccess back a (openWindow s)).order).seen (openWindow s).held
    ((s.setWindow (insertAccess back a (openWindow s))).setMaskEL2
      (replay s.cfg (openWindow s).base (insertAccess back a (openWindow s)).order).mask)

/-- `X[t, 64] = SCTLR2MASK_EL2` by the name `n`, less the write of `X[t]`: the value read and the state after
the access (rules R24, R46, R47). -/
def readMaskEL2 (n : RegName) (t : RegNum) (s : State) : Word × State :=
  if recorded s then
    readMaskAt (drawUpTo (freedom n s.window.order) s).1 n t (drawUpTo (freedom n s.window.order) s).2
  else (s.sctlr2maskEL2, s)

/-- `!IsZero(EffectiveSCTLR2MASK_EL2())` inside an MSR by the name `n`, with the state after the test (rule
R46, fourth item). -/
def lockTest (n : RegName) (s : State) : Bool × State :=
  if recorded s then
    testMaskAt (drawUpTo (freedom n s.window.order) s).1 n (drawUpTo (freedom n s.window.order) s).2
  else (decide (effMaskEL2 s ≠ 0#64), s)

/-- The write `a` of SCTLR2MASK_EL2 among the open accesses: in a place drawn from those the earlier accesses
admit, never before its own lock test (rules R46, R47). -/
def writeMaskUnordered (a : Access) (s : State) : State :=
  writeMaskAt (drawFrom (placesFor s.cfg (openWindow s) a) s).1 a
    (drawFrom (placesFor s.cfg (openWindow s) a) s).2

/-- `SCTLR2MASK_EL2 = X[t, 64]` by the name `n` (rules R24, R46, R47). -/
def writeMaskEL2 (n : RegName) (t : RegNum) (s : State) : State :=
  if recorded s then
    writeMaskUnordered (nextAccess n (.write (sourceOf t s)) s)
      (noteMaskWrite (storedMask s.cfg (readX s t)) s)
  else
    (noteMaskWrite (storedMask s.cfg (readX s t)) s).setMaskEL2 (storedMask s.cfg (readX s t))

/-- An access by the EL1 name that reaches another location than SCTLR2MASK_EL2, made while accesses are open:
it is one of them, for it takes effect in program order with the others by that name (rule R47). It meets no
value of SCTLR2MASK_EL2, so the earliest place it may take leaves open every order that any place would (log
7). -/
def openElsewhere (kind : AccessKind) (s : State) : State :=
  if s.window.order = [] then s
  else
    s.setWindow (insertAccess
      ((placesFor s.cfg (openWindow s) (nextAccess .sctlr2maskEL1 kind s)).getLastD 0)
      (nextAccess .sctlr2maskEL1 kind s) (openWindow s))

/-- The number the next access elsewhere has among the open ones, if any is open. -/
def elsewhereId (s : State) : Option Nat := if s.window.order = [] then none else some s.window.order.length

/-- `!IsZero(EffectiveSCTLR2MASK_EL1())`, with the state after the test: where SCTLR2MASK_EL1 holds the result
of an open access, the outcome is kept with that (rule R71 row 9; log 7). A body that answers without the
stored value (`Env.effMaskEL1`) tests nothing of it. -/
def lockTestEL1 (s : State) : Bool × State :=
  (decide (effMaskEL1 s ≠ 0#64),
    openElsewhere (.testEL1 (if s.env.effMaskEL1 = none then readHeldAt .maskEL1 s else none)) s)

/-- The event `Sync`: the accesses before it are performed (rules R46, R84). -/
def synchronize (s : State) : State := (s.setWindow Window.empty).setMaskHist []

/-! Exceptions (60_exceptions.md rules R90, R91, R95, R96, R102). -/

/-- The constant `0x18`, the same in all twelve calls (rule R91). -/
def trapCode : Nat := 0x18

/-- The level a trap is taken to. -/
def TrapTarget.handler : TrapTarget → HandlerEL
  | .el2 => .el2
  | .el3 => .el3

/-- The Exception level a handler runs at. -/
def HandlerEL.toEL : HandlerEL → EL
  | .el1 => .el1
  | .el2 => .el2
  | .el3 => .el3

/-- The level an `UNDEFINED` is taken to: from EL0 to EL1, or to EL2 when EL2 routes EL0's exceptions to
itself; otherwise the level it was raised at (rule R90, GK6). -/
def undefTarget (s : State) : HandlerEL :=
  match s.pstate.el with
  | .el0 => if s.env.undefEL0ToEL2 then .el2 else .el1
  | .el1 => .el1
  | .el2 => .el2
  | .el3 => .el3

/-- The exception registers of a level. -/
def State.exc (s : State) : HandlerEL → ExcRegs
  | .el1 => s.excEL1
  | .el2 => s.excEL2
  | .el3 => s.excEL3

/-- Replaces the exception registers of a level. -/
def State.setExc (s : State) (h : HandlerEL) (r : ExcRegs) : State :=
  match h with
  | .el1 => s.setExcEL1 r
  | .el2 => s.setExcEL2 r
  | .el3 => s.setExcEL3 r

/-- The tuple an accessor is, for its syndrome (rules R51, R52). -/
def accessorTuple (a : Accessor) : SysRegTuple where
  direction := a.direction
  op0 := 0b11
  op1 := match a.name with
    | .sctlr2maskEL2 => 0b100
    | .sctlr2maskEL1 => 0b000
  crn := 0b0001
  crm := 0b0100
  op2 := 0b011
  t := a.t

/-- Direction in bit [0] of the syndrome: 1 for MRS, 0 for MSR (rule R102). -/
def issDirection : Direction → Bit
  | .read => 1#1
  | .write => 0#1

/-- The instruction-specific syndrome, bits [24:0]: [24:22] = 0, Op0 in [21:20], Op2 in [19:17], Op1 in
[16:14], CRn in [13:10], Rt in [9:5], CRm in [4:1], Direction in [0] (rule R102). -/
def trapIss (u : SysRegTuple) : BitVec 25 :=
  0#3 ++ u.op0 ++ u.op2 ++ u.op1 ++ u.crn ++ u.t ++ u.crm ++ issDirection u.direction

/-- ESR of a `Trap`: EC = 0x18 in bits [31:26], IL = 1 in bit [25], then the syndrome (rule R102). -/
def trapEsr (a : Accessor) : Word :=
  (0#32 ++ 0x18#6 ++ 1#1 ++ trapIss (accessorTuple a) : BitVec 64)

/-- ESR of an `UNDEFINED`: exception class 0x00 in bits [31:26] (rule R90); bits [25:0] are a free value. That
bits [63:32] are 0 is the model's choice (DESIGN CHOICE, log 6): the rule gives the class alone. -/
def undefEsr (free : Word) : Word :=
  (0#32 ++ 0x00#6 ++ free.extractLsb' 0 26 : BitVec 64)

/-- Where an exception entry branches to: an offset from VBAR, 4-byte aligned (rule R102, GK4, log 6). -/
def vectorAddress (vbar offset : Word) : Word := (vbar + offset) &&& ~~~3#64

/-- TAKING AN EXCEPTION to the level `h` with syndrome `esr` (rule R102): ESR gets the syndrome, ELR the
instruction's own address, SPSR the old `PSTATE`; `PSTATE.EL` becomes the target, interrupts are masked, and
`pc` goes to an offset from VBAR, which the spec does not give: a free value (log 6). Rule R102 says so of a
`Trap`; that an `UNDEFINED` saves the same registers and masks interrupts too is the model's choice (DESIGN
CHOICE, log 6), for rule R90 gives its class and its level alone.

NESTED EVENTS: the entry is the same whether or not a handler is running, so an event raised in a handler and
taken to the same level overwrites the ESR, ELR and SPSR the earlier entry wrote, and one taken to another level
leaves them. Rule R96 says that the source says nothing of nesting and decision D28 models none, so this is the
model's choice (DESIGN CHOICE, log 28). -/
def enterException (h : HandlerEL) (esr : Word) (s : State) : State :=
  (((drawWord s).2.setExc h { s.exc h with esr := esr, elr := s.pc, spsr := s.pstate }).setPState
      ⟨h.toEL, true⟩).setPc (vectorAddress (s.exc h).vbar (drawWord s).1)

/-- An accessor raises its event: the final verdict of rule R95, or the exception entry of rule R102. The
state is the one before the instruction: an event writes nothing of its own (rule R92). -/
def raise (ev : Event) (a : Accessor) (s : State) : Host.Outcome State Fault Refusal :=
  match s.cfg.onEvent with
  | .stop =>
    match ev with
    | .undefined why => .fault (.undefined why s.pc a)
    | .trap target why => .fault (.trap target trapCode why s.pc a)
  | .enter =>
    match ev with
    | .undefined _ =>
      .next (enterException (undefTarget s) (undefEsr (drawWord s).1) (drawWord s).2)
    | .trap target _ => .next (enterException target.handler (trapEsr a) s)

/-- RETURNING FROM AN EXCEPTION at the current level: `PSTATE` and `pc` from the saved status and link
registers of the handler's level (rule R96, GK5). ESR, ELR and SPSR stay, so after nested entries at one level
what comes back is what the latest of them saved (DESIGN CHOICE, log 28). -/
def returnFrom (h : HandlerEL) (s : State) : State :=
  (s.setPState (s.exc h).spsr).setPc (s.exc h).elr

/-! Completing an instruction. -/

/-- `pc + 4` fits in 64 bits (rule R36). -/
def pcFits (s : State) : Bool := decide (s.pc.toNat + 4 < 2 ^ 64)

/-- Refuses to run an instruction at a `pc` whose `pc + 4` does not fit in 64 bits (rule R36). -/
def guardPc (s : State) (run : State → Host.Outcome State Fault Refusal) :
    Host.Outcome State Fault Refusal :=
  if pcFits s then run s else .refused (.pcOverflow s.pc)

/-- `pc <- pc + 4` (rule R36). -/
def advance (s : State) : State := s.setPc (s.pc + 4#64)

/-- An MRS completes: `X[t]` gets the value read, then `pc + 4` (rules R60, R70). -/
def finishRead (t : RegNum) (r : Word × State) : Host.Outcome State Fault Refusal :=
  .next (advance (writeX r.2 t r.1))

/-- An MSR completes: `pc + 4` (rules R61, R71). -/
def finishWrite (s : State) : Host.Outcome State Fault Refusal := .next (advance s)

/-! The cell `NVMem[0x328]` (20_memory.md rules R40 to R44). -/

/-- The memory oracle answers what memory holds, as the draw has it (log 17). -/
def nvFromMemory (s : State) : Bool := decide (Config.freeNat s.draws % 2 = 0)

/-- The value `MemRead(NV_BASE + 0x328, 8)` returns: the memory oracle's, which "does not assume they equal
what this PE last wrote there" (rule R41): what memory holds, or any word at all, as the draw has it. The
history is judged afterwards (`cellHistoryOk`; log 17). -/
def nvValue (s : State) : Word :=
  if nvFromMemory s then memRead8 s.cfg.nvBigEndian s.mem (nvAddr s) (Config.freeWord s.draws)
  else Config.freeWord s.draws

/-- Where the value the read of the cell answers comes from. -/
def nvSource (s : State) : WriteSource :=
  if nvFromMemory s then sourceAt (.cell (nvAddr s)) (nvValue s) s else .word (nvValue s)

/-- `NVMem[0x328]` read into `X[t]`: its value, with the read recorded (rules R41, R47). -/
def nvRead (t : RegNum) (s : State) : Word × State :=
  (nvValue s,
    setHeld (holdX t (elsewhereId s) (hold (.event s.nvEvents.length) (elsewhereId s) s.window.held))
      ((drawWord (openElsewhere (.elsewhere (nvSource s)) s)).2.setNvEvents
        (s.nvEvents ++ [.memRead (nvAddr s) (nvValue s)])))

/-- `NVMem[0x328] <- X[t]`, with the write recorded (rules R42, R47). -/
def nvWrite (t : RegNum) (s : State) : State :=
  setHeld (hold (.event s.nvEvents.length) (elsewhereId s)
      (hold (.cell (nvAddr s)) (elsewhereId s) s.window.held))
    (((openElsewhere (.elsewhere (sourceOf t s)) s).setMem
      (memWrite8 s.cfg.nvBigEndian s.mem (nvAddr s) (readX s t))).setNvEvents
      (s.nvEvents ++ [.memWrite (nvAddr s) (readX s t)]))

end Sys2Proof.Machine
end

