-- ==== Sys2Proof/Machine/AccessEL2.lean ====
section
/-! DEFINITION. Accesses by the name SCTLR2MASK_EL2 (40_access_sctlr2mask_el2.md rules R60 to R63), and the
EL3 tests all four instructions share at EL2 (41_access_sctlr2mask_el1.md rule R73). -/

namespace Sys2Proof.Machine

/-- The register is present (00_scope.md rule R2): the first test of every accessor. -/
def present (s : State) : Bool := s.cfg.featSRMASK && s.cfg.featAA64

/-- `HaveEL(EL3) && SCR_EL3.SRMASKEn == '0'`, the abbreviation `S0` of rule R70. -/
def el3Disables (s : State) : Bool := s.cfg.haveEL3 && decide (s.env.scrSRMASKEn = 0#1)

/-- `HaveEL(EL3) && EL3SDDUndefPriority() && SCR_EL3.SRMASKEn == '0'`. -/
def sddPriorityHolds (s : State) : Bool := s.env.sddUndefPriority && el3Disables s

/-- `if EL3SDDUndef() then UNDEFINED; else AArch64.SystemAccessTrap(EL3, 0x18);` -/
def el3Event (s : State) : Event :=
  if s.env.sddUndef then .undefined .sddUndef else .trap .el3 .el3Trap

/-- The three EL3 tests of all four instructions at EL2 (rule R73; rule R60 rows 5 to 7). -/
def checkAtEL2 (s : State) : Option Event :=
  if sddPriorityHolds s then some (.undefined .sddPriority)
  else if el3Disables s then some (el3Event s)
  else none

/-- The event of an access by the name SCTLR2MASK_EL2, rows 1 to 7 of the tables of rules R60 and R61, which
the MRS and the MSR share (rule R62). -/
def checkEL2Name (s : State) : Option Event :=
  if !present s then some (.undefined .notPresent)
  else
    match s.pstate.el with
    | .el0 => some (.undefined .atEL0)
    | .el1 =>
      if s.env.nvx.extractLsb' 0 1 = 1#1 then some (.trap .el2 .nvTrap)
      else some (.undefined .el2NameFromEL1)
    | .el2 => checkAtEL2 s
    | .el3 => none

/-- `X[t, 64] = SCTLR2MASK_EL2` by the name `n` (rules R24, R60, R70). -/
def readMaskInto (n : RegName) (t : RegNum) (s : State) : Host.Outcome State Fault Refusal :=
  finishRead t (readMaskEL2 n t s)

/-- The end of an MSR that reaches SCTLR2MASK_EL2: at EL2 `if !IsZero(EffectiveSCTLR2MASK_EL2()) then
UNDEFINED`, at EL3 no test; otherwise the write (rule R61 rows 8 to 10, rule R71 rows 14 and 15). -/
def lockedWrite (n : RegName) (t : RegNum) (s : State) : Host.Outcome State Fault Refusal :=
  if s.pstate.el = .el2 then
    if (lockTest n s).1 then raise (.undefined .lockEL2) ⟨.write, n, t⟩ (lockTest n s).2
    else finishWrite (writeMaskEL2 n t (lockTest n s).2)
  else finishWrite (writeMaskEL2 n t s)

/-- `MRS <Xt>, SCTLR2MASK_EL2` (rule R60). -/
def execMrsSctlr2maskEl2 (t : RegNum) (s : State) : Host.Outcome State Fault Refusal :=
  guardPc s fun s =>
    match checkEL2Name s with
    | some ev => raise ev ⟨.read, .sctlr2maskEL2, t⟩ s
    | none => readMaskInto .sctlr2maskEL2 t s

/-- `MSR SCTLR2MASK_EL2, <Xt>` (rule R61). -/
def execMsrSctlr2maskEl2 (t : RegNum) (s : State) : Host.Outcome State Fault Refusal :=
  guardPc s fun s =>
    match checkEL2Name s with
    | some ev => raise ev ⟨.write, .sctlr2maskEL2, t⟩ s
    | none => lockedWrite .sctlr2maskEL2 t s

end Sys2Proof.Machine
end

