-- ==== Sys2Proof/Machine/AccessEL1.lean ====
section
/-! DEFINITION. Accesses by the name SCTLR2MASK_EL1 (41_access_sctlr2mask_el1.md rules R70 to R73). -/

namespace Sys2Proof.Machine

/-- The fine-grained trap `FGT` of rule R70 and `FGTW` of rule R71; `control` is the bit nSCTLR2MASK_EL1 of
HFGRTR2_EL2 for the MRS and of HFGWTR2_EL2 for the MSR. -/
def fgt2Traps (control : Bit) (s : State) : Bool :=
  s.env.el2Enabled && s.cfg.featFGT2 &&
    ((s.cfg.haveEL3 && decide (s.env.scrFGTEn2 = 0#1)) || decide (control = 0#1))

/-- The HCRX_EL2 trap `HX` of rules R70 and R71. -/
def hcrxTraps (s : State) : Bool :=
  s.env.el2Enabled && (!s.env.hcrxEnabled || decide (s.env.hcrxSRMASKEn = 0#1))

/-- The tests of an access by the name SCTLR2MASK_EL1 at EL1, rows 3 to 7 of the tables of rules R70 and R71,
in the order of 60_exceptions.md rule R94 item 4. -/
def checkAtEL1 (control : Bit) (s : State) : Option Event :=
  if sddPriorityHolds s then some (.undefined .sddPriority)
  else if fgt2Traps control s then some (.trap .el2 .fgt2Trap)
  else if hcrxTraps s then some (.trap .el2 .hcrxTrap)
  else if el3Disables s then some (el3Event s)
  else none

/-- The event of an access by the name SCTLR2MASK_EL1, rows 1 to 7 and the EL2 rows of the tables of rules R70
and R71; the locks are tests of the MSR alone. -/
def checkEL1Name (control : Bit) (s : State) : Option Event :=
  if !present s then some (.undefined .notPresent)
  else
    match s.pstate.el with
    | .el0 => some (.undefined .atEL0)
    | .el1 => checkAtEL1 control s
    | .el2 => checkAtEL2 s
    | .el3 => none

/-- The stored locations of this spec (rule R72). -/
inductive Location where
  | nvMem
  | sctlr2maskEL1
  | sctlr2maskEL2
deriving DecidableEq, Repr

/-- The location the name SCTLR2MASK_EL1 reaches when the access is performed (rule R72). -/
def el1NameLocation (s : State) : Location :=
  match s.pstate.el with
  | .el0 => .sctlr2maskEL1
  | .el1 => if s.env.nvx = 0b111#3 then .nvMem else .sctlr2maskEL1
  | .el2 => if s.env.inHostEL2 then .sctlr2maskEL2 else .sctlr2maskEL1
  | .el3 => .sctlr2maskEL1

/-- `X[t, 64] = NVMem[0x328]` (20_memory.md rules R41, R44). -/
def readNvInto (t : RegNum) (s : State) : Host.Outcome State Fault Refusal :=
  match nvCheck s with
  | some why => .fault (.nvStuck why s.pc (nvAddr s))
  | none => finishRead t (nvRead t s)

/-- `NVMem[0x328] = X[t, 64]` (20_memory.md rules R42, R44). -/
def writeNvFrom (t : RegNum) (s : State) : Host.Outcome State Fault Refusal :=
  match nvCheck s with
  | some why => .fault (.nvStuck why s.pc (nvAddr s))
  | none => finishWrite (nvWrite t s)

/-- `X[t, 64] = SCTLR2MASK_EL1`, less the write of `X[t]` (rule R28). -/
def readMaskEL1 (t : RegNum) (s : State) : Word × State :=
  (s.sctlr2maskEL1,
    setHeld (holdX t (elsewhereId s) s.window.held)
      (openElsewhere (.elsewhere (sourceAt .maskEL1 s.sctlr2maskEL1 s)) s))

/-- `X[t, 64] = SCTLR2MASK_EL1` (rule R70). -/
def readMaskEL1Into (t : RegNum) (s : State) : Host.Outcome State Fault Refusal :=
  finishRead t (readMaskEL1 t s)

/-- `SCTLR2MASK_EL1 = X[t, 64]`, all 64 bits (rules R28, R71). -/
def writeMaskEL1 (t : RegNum) (s : State) : State :=
  setHeld (hold .maskEL1 (elsewhereId s) s.window.held)
    ((openElsewhere (.elsewhere (sourceOf t s)) s).setMaskEL1 (readX s t))

/-- The end of an MSR that reaches SCTLR2MASK_EL1: at EL1 `if !IsZero(EffectiveSCTLR2MASK_EL1()) then
UNDEFINED`, at EL2 and EL3 no test; otherwise the write (rule R71 rows 9, 10, 16 and 17). -/
def writeMaskEL1From (t : RegNum) (s : State) : Host.Outcome State Fault Refusal :=
  if s.pstate.el = .el1 then
    if (lockTestEL1 s).1 then raise (.undefined .lockEL1) ⟨.write, .sctlr2maskEL1, t⟩ (lockTestEL1 s).2
    else finishWrite (writeMaskEL1 t (lockTestEL1 s).2)
  else finishWrite (writeMaskEL1 t s)

/-- `MRS <Xt>, SCTLR2MASK_EL1` (rule R70). -/
def execMrsSctlr2maskEl1 (t : RegNum) (s : State) : Host.Outcome State Fault Refusal :=
  guardPc s fun s =>
    match checkEL1Name s.env.hfgrtr2_nSCTLR2MASK_EL1 s with
    | some ev => raise ev ⟨.read, .sctlr2maskEL1, t⟩ s
    | none =>
      match el1NameLocation s with
      | .nvMem => readNvInto t s
      | .sctlr2maskEL1 => readMaskEL1Into t s
      | .sctlr2maskEL2 => readMaskInto .sctlr2maskEL1 t s

/-- `MSR SCTLR2MASK_EL1, <Xt>` (rule R71). -/
def execMsrSctlr2maskEl1 (t : RegNum) (s : State) : Host.Outcome State Fault Refusal :=
  guardPc s fun s =>
    match checkEL1Name s.env.hfgwtr2_nSCTLR2MASK_EL1 s with
    | some ev => raise ev ⟨.write, .sctlr2maskEL1, t⟩ s
    | none =>
      match el1NameLocation s with
      | .nvMem => writeNvFrom t s
      | .sctlr2maskEL1 => writeMaskEL1From t s
      | .sctlr2maskEL2 => lockedWrite .sctlr2maskEL1 t s

end Sys2Proof.Machine
end

