-- ==== Sys2Proof/Machine/Dispatch.lean ====
section
/-! DEFINITION. exec: one arm per constructor of Instr. -/

namespace Sys2Proof.Machine

def exec (i : Instr) (s : State) : Host.Outcome State Fault Refusal :=
  match i with
  -- 40_access_sctlr2mask_el2.md rule R60
  | .mrsSctlr2maskEl2 t => Sys2Proof.Machine.execMrsSctlr2maskEl2 t s
  -- 40_access_sctlr2mask_el2.md rule R61
  | .msrSctlr2maskEl2 t => Sys2Proof.Machine.execMsrSctlr2maskEl2 t s
  -- 41_access_sctlr2mask_el1.md rule R70
  | .mrsSctlr2maskEl1 t => Sys2Proof.Machine.execMrsSctlr2maskEl1 t s
  -- 41_access_sctlr2mask_el1.md rule R71
  | .msrSctlr2maskEl1 t => Sys2Proof.Machine.execMsrSctlr2maskEl1 t s

end Sys2Proof.Machine
end

