-- ==== Sys2Proof/WellFormed.lean ====
section
/-! DEFINITION. Which tuples of the System register encoding space are one of the four accessors
(30_encoding.md rules R51, R52, R54, R56), one check per field. The operand `t` is five bits wide, so every
value of it, 0 to 31, is an operand (rules R35, R53); an `Instr` is therefore always well formed, and
`Sys2Proof.Laws.instr_wellFormed` proves it. -/

namespace Sys2Proof

/-- `op0 = 0b11` in both names (rules R51, R52). -/
def SysRegTuple.op0Ok (u : SysRegTuple) : Bool := u.op0 == 0b11#2

/-- `op1` is 0b100 for the EL2 name and 0b000 for the EL1 name (rules R51, R52). -/
def SysRegTuple.op1Ok (u : SysRegTuple) : Bool := u.op1 == 0b100#3 || u.op1 == 0b000#3

/-- `CRn = 0b0001` in both names. -/
def SysRegTuple.crnOk (u : SysRegTuple) : Bool := u.crn == 0b0001#4

/-- `CRm = 0b0100` in both names. -/
def SysRegTuple.crmOk (u : SysRegTuple) : Bool := u.crm == 0b0100#4

/-- `op2 = 0b011` in both names. -/
def SysRegTuple.op2Ok (u : SysRegTuple) : Bool := u.op2 == 0b011#3

/-- The tuple names one of the four accessors (rule R54); direction and `t` are free. -/
def SysRegTuple.WellFormed (u : SysRegTuple) : Bool :=
  u.op0Ok && u.op1Ok && u.crnOk && u.crmOk && u.op2Ok

/-- The row of rule R54 an instruction is: its tuple, in the System register encoding space. -/
def Instr.tuple : Instr → SysRegTuple
  | .mrsSctlr2maskEl2 t => ⟨.read, 0b11, 0b100, 0b0001, 0b0100, 0b011, t⟩
  | .msrSctlr2maskEl2 t => ⟨.write, 0b11, 0b100, 0b0001, 0b0100, 0b011, t⟩
  | .mrsSctlr2maskEl1 t => ⟨.read, 0b11, 0b000, 0b0001, 0b0100, 0b011, t⟩
  | .msrSctlr2maskEl1 t => ⟨.write, 0b11, 0b000, 0b0001, 0b0100, 0b011, t⟩

/-- An instruction is well formed when its tuple is one of the four accessors. -/
def Instr.WellFormed (i : Instr) : Bool := i.tuple.WellFormed

end Sys2Proof
end

