-- ==== Sys2Proof/Decode.lean ====
section
/-! DEFINITION. The decoder, total on any bytes, and the encoder (30_encoding.md rules R50 to R56). The
32-bit word layout is 30_encoding.md rule R55, which the spec takes from general knowledge (GK1, log 5);
the tuple level is the source's own (rules R51, R52, R54). -/

namespace Sys2Proof

/-- One 32-bit little-endian word from its four bytes, lowest address first (rule R55). -/
def wordOfBytes (b0 b1 b2 b3 : Byte) : BitVec 32 := b3 ++ b2 ++ b1 ++ b0

/-- The four bytes of a word at increasing addresses (rule R55). -/
def bytesOfWord (w : BitVec 32) : List Byte :=
  [w.extractLsb' 0 8, w.extractLsb' 8 8, w.extractLsb' 16 8, w.extractLsb' 24 8]

/-- `L` = 1 for MRS, 0 for MSR (rule R55). -/
def directionOfL (l : Bit) : Direction := if l = 1#1 then .read else .write

/-- The bit `L` of a direction (rule R55). -/
def Direction.bitL : Direction → Bit
  | .read => 1#1
  | .write => 0#1

/-- The fixed bits of a System register move: bits [31:22] are 1101010100 and bit [20], which is
`op0[1]`, is 1 (rule R55). -/
def isSysRegMove (w : BitVec 32) : Bool :=
  w.extractLsb' 22 10 == 0b1101010100#10 && w.extractLsb' 20 1 == 1#1

/-- The fields of a System register move (rule R55): `op0 = 1 : o0`. -/
def tupleOfWord (w : BitVec 32) : SysRegTuple where
  direction := directionOfL (w.extractLsb' 21 1)
  op0 := 1#1 ++ w.extractLsb' 19 1
  op1 := w.extractLsb' 16 3
  crn := w.extractLsb' 12 4
  crm := w.extractLsb' 8 4
  op2 := w.extractLsb' 5 3
  t := w.extractLsb' 0 5

/-- The row of rule R54 selected by the direction and the five fields; `t` is free. -/
def instrOfTuple (u : SysRegTuple) : Option Instr :=
  if u.op0 = 0b11#2 ∧ u.crn = 0b0001#4 ∧ u.crm = 0b0100#4 ∧ u.op2 = 0b011#3 then
    if u.op1 = 0b100#3 then
      match u.direction with
      | .read => some (.mrsSctlr2maskEl2 u.t)
      | .write => some (.msrSctlr2maskEl2 u.t)
    else if u.op1 = 0b000#3 then
      match u.direction with
      | .read => some (.mrsSctlr2maskEl1 u.t)
      | .write => some (.msrSctlr2maskEl1 u.t)
    else none
  else none

/-- The instruction a 32-bit word is, or the name of its refusal (rule R56). -/
def decodeWord (w : BitVec 32) : Except DecodeReject Instr :=
  if isSysRegMove w then
    match instrOfTuple (tupleOfWord w) with
    | some i => .ok i
    | none => .error (.notOneOfTheFourAccessors (tupleOfWord w))
  else .error (.notSystemRegisterMove w)

/-- The decoder: the first instruction of some bytes and the bytes that follow it. Total on any bytes. -/
def decode : List Byte → Except DecodeReject (Instr × List Byte)
  | b0 :: b1 :: b2 :: b3 :: rest =>
    match decodeWord (wordOfBytes b0 b1 b2 b3) with
    | .ok i => .ok (i, rest)
    | .error r => .error r
  | _ => .error .tooFewBytes

/-- The word of a tuple whose `op0[1]` is 1 (rule R55, layout from bit 31 down to bit 0). -/
def SysRegTuple.word (u : SysRegTuple) : BitVec 32 :=
  0b1101010100#10 ++ u.direction.bitL ++ 1#1 ++ u.op0.extractLsb' 0 1 ++ u.op1 ++ u.crn ++ u.crm
    ++ u.op2 ++ u.t

/-- The encoder: the instruction word of an instruction (rules R54, R55). -/
def encode (i : Instr) : BitVec 32 := i.tuple.word

/-- The bytes of an instruction as the hardware stores them (rule R55). -/
def encodeBytes (i : Instr) : List Byte := bytesOfWord (encode i)

/-- What the decoder reads from an instruction of the opcode table whose bits are `w`: the table gives each
row 32 bits; every bit above `nbits` is 0. -/
def decodeTableWord (nbits w : Nat) : Option Instr :=
  match decode (bytesOfWord (BitVec.ofNat 32 (w % 2 ^ nbits))) with
  | .ok (i, []) => some i
  | _ => none

end Sys2Proof
end

