-- ==== Sys2Proof/Machine/Fetch.lean ====
section
/-! DEFINITION. Fetching the next instruction from the program text (20_memory.md rules R45, R48;
30_encoding.md rules R55, R56; 10_state.md rule R36), and placing a program's words there. -/

namespace Sys2Proof.Machine

/-- What the fetch finds at `pc`. -/
inductive Fetched where
  | instr (i : Instr)
  | fault (f : Fault)
  | refused (r : Refusal)
deriving DecidableEq, Repr

/-- The byte of the program text `i` bytes above `pc`. -/
def textByte (s : State) (i : Nat) : Option Byte := memGet s.text (s.pc.toNat + i)

/-- The four bytes at `pc`, or `none` where the program text has no instruction. -/
def fetchBytes (s : State) : Option (List Byte) :=
  match textByte s 0, textByte s 1, textByte s 2, textByte s 3 with
  | some b0, some b1, some b2, some b3 => some [b0, b1, b2, b3]
  | _, _, _, _ => none

/-- The next instruction: the word at `pc`, 4-byte aligned (GK4), decoded (rules R55, R56). A misaligned `pc`
faults here, before any `UNDEFINED` or trap of the instruction: the model's choice (DESIGN CHOICE, log 10), the
source being silent on that priority (60_exceptions.md rule R94). -/
def fetch (s : State) : Fetched :=
  if s.pc.toNat % 4 ≠ 0 then .fault (.misalignedPc s.pc)
  else
    match fetchBytes s with
    | none => .refused (.noInstruction s.pc)
    | some bytes =>
      match decode bytes with
      | .ok (i, _) => .instr i
      | .error why => .refused (.notDecoded why)

/-- The program text with an instruction word at `pc`, lowest byte first (rule R55). -/
def placeWord (s : State) (w : BitVec 32) : Memory :=
  memWriteBytes s.text s.pc.toNat (bytesOfWord w)

end Sys2Proof.Machine
end

