-- ==== Sys2Proof/Machine/MaskEffect.lean ====
section
/-! DEFINITION. The effect of the mask on writes of SCTLR2_EL2 (42_mask_effect.md rules R80 to R84): the
abstract operation `WriteSCTLR2_EL2`, no row of the opcode table. -/

namespace Sys2Proof.Machine

/-- The stored value of SCTLR2MASK_EL2 a write of SCTLR2_EL2 sees when it does not see the latest `back`
changes of it (rule R84): every value since the last synchronization is admitted. -/
def maskSeen (back : Nat) (s : State) : Word :=
  (s.maskHist ++ [s.sctlr2maskEL2]).getD (s.maskHist.length - back) s.sctlr2maskEL2

/-- The mask binds a write of SCTLR2_EL2 made now (rules R81, R83). Rule R81 tests no presence of the register,
so a register that rule R2 says does not exist still binds the write: the model's choice (DESIGN CHOICE, log
14), since no rule joins the two. -/
def maskBinds (s : State) : Bool :=
  s.env.el2Enabled &&
    (decide (s.pstate.el = .el2) || (decide (s.pstate.el = .el3) && s.cfg.maskAtEL3))

/-- `SCTLR2_EL2 <- MaskedWrite(SCTLR2_EL2, v, m)` with `m` the Effective value of the mask the write sees
(rules R80, R81, R84). -/
def maskedWriteSctlr2 (back : Nat) (v : Word) (s : State) : State :=
  s.setSctlr2 (s.sctlr2EL2.maskedWrite (Sctlr2.ofImage v) (effectiveEL2 s.cfg s.env (maskSeen back s)))

/-- `WriteSCTLR2_EL2(v)` (rule R81): masked at EL2 (and at EL3 under `MASK_AT_EL3`) while EL2 is enabled,
unmasked at EL2 and EL3 otherwise, and not given by this spec at EL0 and EL1. It is performed at once, so that
an MSR of the mask made later never binds it, synchronization or none: the model's choice (DESIGN CHOICE, log
15), for rules R84 and R112 leave that order open ("not addressed by the source"). -/
def writeSctlr2EL2 (v : Word) (s : State) : Host.Outcome State Fault Refusal :=
  if maskBinds s then
    .next (maskedWriteSctlr2 (drawUpTo s.maskHist.length s).1 v (drawUpTo s.maskHist.length s).2)
  else if s.pstate.el = .el2 ∨ s.pstate.el = .el3 then .next (s.setSctlr2 (Sctlr2.ofImage v))
  else .refused .sctlr2WriteBelowEL2

end Sys2Proof.Machine
end

