-- ==== Sys2Proof/Machine/Inputs.lean ====
section
/-! DEFINITION. What reaches the machine from outside between two instructions: the reset (10_state.md rules
R37, R38; 70_reset_and_hazards.md rules R110, R111), new run-time inputs (rule R113 `EnvPerStep`), the event
`Sync` (20_memory.md rule R46), another agent's write of the cell (rules R41, R101), `WriteSCTLR2_EL2` (rule
R81), the return from an exception (60_exceptions.md rule R96). -/

namespace Sys2Proof.Machine

/-- The bits of SCTLR2MASK_EL2 a Warm reset leaves UNKNOWN: the real fields unless the highest implemented
Exception level is EL2 (rule R37), and the stored RES0 bits (decision D20). -/
def resetUnknownBits (c : Config) : Word :=
  (if highestEL c = .el2 then 0#64 else implMask c) ||| (c.res0Stored &&& ~~~implMask c)

/-- SCTLR2MASK_EL2 after a Warm reset, `unknown` being the draw of its UNKNOWN bits (rule R37, D6, D20). -/
def resetMask (c : Config) (unknown : Word) : Word :=
  if resetUnknownBits c = 0#64 then 0#64 else unknown &&& resetUnknownBits c

/-- The event `Reset` (rules R37, R38, R110): SCTLR2MASK_EL2 as rule R37 says; every other register, the
run-time inputs and the contents of memory as the launch gives them, since the reset does not. The
configuration, the program text and the memory the launch admits are constant over a run (rules R3, R48). That
no access made before the reset is still open after it (rule R46) and no older mask still visible (rule R84),
whatever the highest Exception level, is the model's choice (DESIGN CHOICE, log 19). -/
def warmReset (l : Launch) (s : State) : State :=
  { (drawWord s).2 with
    env := l.env
    x := l.x
    pc := l.pc
    pstate := l.pstate
    sctlr2maskEL2 := resetMask s.cfg (drawWord s).1
    sctlr2maskEL1 := l.sctlr2maskEL1
    sctlr2EL2 := l.sctlr2EL2
    excEL1 := l.excEL1
    excEL2 := l.excEL2
    excEL3 := l.excEL3
    mem := memOf l.mem
    window := Window.empty
    maskHist := []
    nvEvents := [] }

/-- Another agent writes the eight bytes of `NVMem[0x328]`, single-copy atomically (rules R41, R44, R101). -/
def agentWrite (v : Word) (s : State) : Host.Outcome State Fault Refusal :=
  match nvCheck s with
  | some why => .refused (.agentWriteNotAdmitted why)
  | none =>
    .next (setHeld (hold (.cell (nvAddr s)) none s.window.held)
      ((s.setMem (memWrite8 s.cfg.nvBigEndian s.mem (nvAddr s) v)).setNvEvents
        (s.nvEvents ++ [.agentWrite (nvAddr s) v])))

/-- The return from an exception at the current level (rule R96): only while exceptions are taken. What it
restores after nested events, of which the rule says nothing, is the model's choice (log 28). -/
def exceptionReturn (s : State) : Host.Outcome State Fault Refusal :=
  match s.cfg.onEvent with
  | .stop => .refused .returnNotModelled
  | .enter =>
    match s.pstate.el with
    | .el0 => .refused .returnAtEL0
    | .el1 => .next (returnFrom .el1 s)
    | .el2 => .next (returnFrom .el2 s)
    | .el3 => .next (returnFrom .el3 s)

/-- The input that comes next, or `none` where an instruction of the program does (log 8). -/
def nextInput (s : State) : Option Input := s.inputs.head?.join

/-- One entry of the schedule of inputs is past. -/
def popInput (s : State) : State := s.setInputs s.inputs.tail

/-- What an input does. Where new run-time inputs come with a new Exception level, `PSTATE`'s interrupt mask and
every other state stays: rule R97 says nothing of what else changes when a level is entered or left from outside
(N17), and this is the model's choice (DESIGN CHOICE, log 18). -/
def applyInput (inp : Input) (s : State) : Host.Outcome State Fault Refusal :=
  match inp with
  | .env el e => .next ((s.setEnv e).setPState { s.pstate with el := el })
  | .sync => .next (synchronize s)
  | .agentWrite v => agentWrite v s
  | .writeSctlr2EL2 v => writeSctlr2EL2 v s
  | .reset l => .next (warmReset l s)
  | .exceptionReturn => exceptionReturn s

end Sys2Proof.Machine
end

