-- ==== Sys2Proof/Machine/Step.lean ====
section
/-! DEFINITION. One step: the input that comes next, or, where none does, the next instruction of the
program. -/

namespace Sys2Proof.Machine

/-- One step of the machine. -/
def step (s : State) : Host.Outcome State Fault Refusal :=
  match nextInput s with
  | some inp => applyInput inp (popInput s)
  | none =>
    match fetch s with
    | .instr i => exec i (popInput s)
    | .fault f => .fault f
    | .refused r => .refused r

/-- The state with an instruction of the opcode table, numbered as the table numbers its bits, as the next
the machine runs: its four bytes in the program text at `pc`, and no input to come (log 8). -/
def State.withFetchWord (s : State) (nbits w : Nat) : State :=
  (s.setText (placeWord s (BitVec.ofNat 32 (w % 2 ^ nbits)))).setInputs []

end Sys2Proof.Machine
end

