-- ==== Sys2Proof/Safety.lean ====
section
/-! DEFINITION. The launch premises of 70_reset_and_hazards.md rule R113, "fresh from reset" (rule R111), and
what a well-formed state is: the terms the claims use. -/

namespace Sys2Proof.Machine

/-- `ConfigWF`: a stored RES0 bit is no real field (rules R24, R113). -/
def configWellFormed (c : Config) : Bool := decide (c.res0Stored &&& implMask c = 0#64)

/-- The input is the event `Reset`. -/
def Input.isReset : Input → Bool
  | .env _ _ => false
  | .sync => false
  | .agentWrite _ => false
  | .writeSctlr2EL2 _ => false
  | .reset _ => true
  | .exceptionReturn => false

/-- `NoAsyncEvent`: "no interrupt, debug event or reset is taken between the program's instructions" (rule
R113). The model has no interrupt and no debug event (log 21), so: no reset is to come. -/
def NoAsyncEvent (s : State) : Prop := ∀ inp, some inp ∈ s.inputs → inp.isReset = false

/-- A run of the machine: from the first state to the second. -/
inductive Run (s : State) : State → Prop where
  | here : Run s s
  | next {s₁ s₂ : State} (before : Run s s₁) (h : step s₁ = .next s₂) : Run s s₂

/-- The inputs of rule R5 and rule R33, the current Exception level among them. -/
def stepInputs (s : State) : EL × Env := (s.pstate.el, s.env)

/-- `EnvPerStep`: the inputs "may differ from step to step only as the claim says" (rule R113), which is `P` of
what they are before a step and after it: whatever step of a run from `s` changes them (an input, a reset, an
exception or the return from one) changes them so. -/
def EnvPerStep (P : EL × Env → EL × Env → Prop) (s : State) : Prop :=
  ∀ s₁ s₂, Run s s₁ → step s₁ = .next s₂ → stepInputs s₂ ≠ stepInputs s₁ →
    P (stepInputs s₁) (stepInputs s₂)

/-- `NoFaultRecorded`: "no `Undefined` or `Trap` outcome has been recorded before the launch" (rule R113), said
of the outcome of the step before it; an outcome that is a fault records the event (rule R95). -/
def NoFaultRecorded : Host.Outcome State Fault Refusal → Bool
  | .next _ => true
  | .fault (.undefined _ _ _) => false
  | .fault (.trap _ _ _ _ _) => false
  | .fault (.nvStuck _ _ _) => true
  | .fault (.misalignedPc _) => true
  | .refused _ => true

/-- `NVCellAdmitted` and the disjointness half of `TextFixed` (rule R113). -/
def NvCellAdmitted (s : State) : Bool := decide (nvCheck s = none)

/-- A launch state "fresh from reset": rule R37 holds of SCTLR2MASK_EL2 (rule R111). -/
def FreshFromReset (s : State) : Bool :=
  (decide (highestEL s.cfg ≠ .el2) || decide (s.sctlr2maskEL2 &&& implMask s.cfg = 0#64))
    && decide (s.sctlr2maskEL2 &&& ~~~storableMask s.cfg = 0#64)

/-- The relations of the wider architecture that rule R113 lists and no rule needs (GK7, GK8, GK10, GK20): a
claim may add them as ASSUMED premises. -/
def AssumedRelations (s : State) : Bool :=
  (decide (s.pstate.el ≠ .el3) || s.cfg.haveEL3)
    && (decide (s.pstate.el ≠ .el2) || (s.cfg.haveEL2 && s.env.el2Enabled))
    && (!s.env.sddUndefPriority || s.env.sddUndef)
    && (!s.env.sddUndef || decide (s.pstate.el ≠ .el3))
    && (decide (s.env.nvx = 0#3) || s.env.el2Enabled)
    && (!s.env.el2Enabled || s.env.inHostEL2 == decide (s.env.e2hEffective = 1#1))

/-- The history of the cell at `addr` is one of a memory (rule R41, "judged afterwards"): each read returns what
the latest write before it wrote, this PE's or another agent's; `known` is what is there before, where that is
known, and a first read tells it where it is not. -/
def cellHistoryOk (addr : Nat) : Option Word → List NvEvent → Bool
  | _, [] => true
  | known, .memRead a v :: rest =>
    if a = addr then known.all (fun w => decide (w = v)) && cellHistoryOk addr (some v) rest
    else cellHistoryOk addr known rest
  | known, .memWrite a v :: rest => cellHistoryOk addr (if a = addr then some v else known) rest
  | known, .agentWrite a v :: rest => cellHistoryOk addr (if a = addr then some v else known) rest

/-- A value SCTLR2MASK_EL2 can store: every bit outside `IMPL_MASK OR RES0_STORED` is 0 (rule R24). -/
abbrev Storable (c : Config) (v : Word) : Prop := v &&& ~~~storableMask c = 0#64

/-- The access is a write. -/
def Access.isWrite (a : Access) : Bool :=
  match a.kind with
  | .read => false
  | .test _ => false
  | .write _ => true
  | .elsewhere _ => false
  | .testEL1 _ => false

/-- The place holds the value `v`, whole: a register that is none is no place, a cell is eight aligned bytes
that memory lists, an event is one recorded. -/
def PlaceHolds (p : Place) (v : Word) (s : State) : Prop :=
  match p with
  | .x t => t ≠ 31#5 ∧ readX s t = v
  | .maskEL1 => s.sctlr2maskEL1 = v
  | .cell a => a % 8 = 0 ∧ a + 8 ≤ 2 ^ 64 ∧ ∀ free, memRead8 s.cfg.nvBigEndian s.mem a free = v
  | .event k => (s.nvEvents[k]?).map NvEvent.value = some v

/-- Performing the accesses of the window from its base gives the stored register. -/
abbrev WindowAgrees (s : State) : Prop :=
  s.window.order ≠ [] → (replay s.cfg s.window.base s.window.order).mask = s.sctlr2maskEL2

/-- The window is well formed and explains the machine: its numbers are distinct and below the next one, the
accesses by one name are performed in program order (rule R47), an access that another needs or a place holds the
result of has a number below the next one, a place holds the result of one access, which is what that gives,
and the register they leave is the stored one. -/
structure WindowInv (s : State) : Prop where
  base : s.window.order ≠ [] → Storable s.cfg s.window.base
  numbers : (s.window.order.map (·.id)).Nodup
  below : ∀ a ∈ s.window.order, a.id < s.window.order.length
  inOrder : ∀ n, ((s.window.order.filter fun a => decide (a.name = n)).map (·.id)).Pairwise (· < ·)
  needs : ∀ a ∈ s.window.order, ∀ id, a.needs = some id → id < s.window.order.length
  heldBelow : ∀ h ∈ s.window.held, h.id < s.window.order.length
  places : (s.window.held.map (·.place)).Nodup
  results : ∀ h ∈ s.window.held,
    PlaceHolds h.place (seenAt (replay s.cfg s.window.base s.window.order).seen h.id) s
  agrees : WindowAgrees s

/-- The invariant of the machine: RES0 bits of SCTLR2MASK_EL2 (the register and the values it has held) are 0
unless `RES0_STORED` keeps them; the window explains the register and the places that hold results of its accesses;
memory is in its canonical form. -/
structure State.Inv (s : State) : Prop where
  mask : Storable s.cfg s.sctlr2maskEL2
  hist : ∀ v ∈ s.maskHist, Storable s.cfg v
  window : WindowInv s
  mem : memWf s.mem = true

/-- SCTLR2MASK_EL2 is locked against EL1 and EL2 (rule R63): its Effective value is not zero and no write of
it is still open. -/
structure State.Locked (s : State) : Prop where
  effective : effMaskEL2 s ≠ 0#64
  settled : ∀ a ∈ s.window.order, a.isWrite = false
  agrees : WindowAgrees s

/-- An input that is no reset, and if it gives new run-time inputs leaves the body of
`EffectiveSCTLR2MASK_EL2()` as it is in `e`; the level and every other input of rule R5 may change (rule R63). -/
def Input.isQuiet (e : Env) : Input → Bool
  | .env _ e' => decide (e'.effMaskEL2 = e.effMaskEL2)
  | .sync => true
  | .agentWrite _ => true
  | .writeSctlr2EL2 _ => true
  | .reset _ => false
  | .exceptionReturn => true

/-- A run that contains "no reset, no instruction executed at EL3" (rule R63) and no new body of
`EffectiveSCTLR2MASK_EL2()`: from the first state to the second. -/
inductive LowRun (s : State) : State → Prop where
  | here : LowRun s s
  | next {s₁ s₂ : State} (before : LowRun s s₁)
      (quiet : ∀ inp, nextInput s₁ = some inp → inp.isQuiet s₁.env = true)
      (low : nextInput s₁ = none → s₁.pstate.el ≠ .el3) (h : step s₁ = .next s₂) : LowRun s s₂

end Sys2Proof.Machine
end

