-- ==== Sys2Proof/Certificates/Slice0/Obligations.lean ====
section
/-! DEFINITION. The statements for the provers, from the numbered rules of spec/. The first part names, in the
spec's own terms, the conditions and the frames the statements use. -/

namespace Sys2Proof.Claims

open Sys2Proof Sys2Proof.Machine

/-! The conditions of the rules, read off the spec's tables. -/

/-- FEAT_SRMASK and FEAT_AA64 are implemented (rule R2) and `pc + 4` fits in 64 bits (rule R36). -/
abbrev Runs (s : State) : Prop :=
  s.cfg.featSRMASK = true ∧ s.cfg.featAA64 = true ∧ s.pc.toNat + 4 < 2 ^ 64

/-- EL3, where it is implemented, has set `SCR_EL3.SRMASKEn` (rules R60, R98). -/
abbrev El3Allows (s : State) : Prop := s.cfg.haveEL3 = true → s.env.scrSRMASKEn = 1#1

/-- EL2, where it is enabled, lets EL1 make an access by the EL1 name that the bit `control`
(nSCTLR2MASK_EL1 of the read or the write register) governs (rules R70, R71, R98). -/
abbrev El2Allows (control : Bit) (s : State) : Prop :=
  s.env.el2Enabled = true →
    (s.cfg.featFGT2 = true → control = 1#1 ∧ (s.cfg.haveEL3 = true → s.env.scrFGTEn2 = 1#1)) ∧
      s.env.hcrxEnabled = true ∧ s.env.hcrxSRMASKEn = 1#1

/-- No order of accesses is open: rule R46 has applied to none since the last synchronization (log 7). -/
abbrev Settled (s : State) : Prop := s.window.order = []

/-- The value of SCTLR2MASK_EL2 that a read or a lock test by the name `n` meets: the one before as many of the
latest open accesses as are drawn, none of them by the same name (rules R46, R47); with none open, the stored
one. -/
abbrev maskSeenBy (n : RegName) (s : State) : Word :=
  valueBefore s.cfg (drawUpTo (freedom n s.window.order) s).1 (openWindow s)

/-- `HaveEL3 && SCR_EL3.SRMASKEn == '0'`, `S0` of rule R70. -/
def disabledByEL3 (s : State) : Bool := s.cfg.haveEL3 && s.env.scrSRMASKEn == 0#1

/-- The causes of rule R93 for the EL2 name, highest priority first (rule R94 items 1, 2, 3, 5). -/
def causesEL2Name (s : State) : List (Bool × Event) :=
  [(!(s.cfg.featSRMASK && s.cfg.featAA64), .undefined .notPresent),
   (s.pstate.el == .el0, .undefined .atEL0),
   (s.pstate.el == .el1 && s.env.nvx.getLsbD 0, .trap .el2 .nvTrap),
   (s.pstate.el == .el1, .undefined .el2NameFromEL1),
   (s.pstate.el == .el2 && disabledByEL3 s && s.env.sddUndefPriority, .undefined .sddPriority),
   (s.pstate.el == .el2 && disabledByEL3 s && s.env.sddUndef, .undefined .sddUndef),
   (s.pstate.el == .el2 && disabledByEL3 s, .trap .el3 .el3Trap)]

/-- The causes of rule R93 for the EL1 name, highest priority first (rule R94 items 1, 2, 4, 5). -/
def causesEL1Name (control : Bit) (s : State) : List (Bool × Event) :=
  [(!(s.cfg.featSRMASK && s.cfg.featAA64), .undefined .notPresent),
   (s.pstate.el == .el0, .undefined .atEL0),
   (s.pstate.el != .el3 && disabledByEL3 s && s.env.sddUndefPriority, .undefined .sddPriority),
   (s.pstate.el == .el1 && (s.env.el2Enabled && s.cfg.featFGT2 &&
      ((s.cfg.haveEL3 && s.env.scrFGTEn2 == 0#1) || control == 0#1)), .trap .el2 .fgt2Trap),
   (s.pstate.el == .el1 && (s.env.el2Enabled &&
      (!s.env.hcrxEnabled || s.env.hcrxSRMASKEn == 0#1)), .trap .el2 .hcrxTrap),
   (s.pstate.el != .el3 && disabledByEL3 s && s.env.sddUndef, .undefined .sddUndef),
   (s.pstate.el != .el3 && disabledByEL3 s, .trap .el3 .el3Trap)]

/-- The causes of an instruction, highest priority first, without the EL2 lock (rules R93, R94). -/
def causes (s : State) : Instr → List (Bool × Event)
  | .mrsSctlr2maskEl2 _ => causesEL2Name s
  | .msrSctlr2maskEl2 _ => causesEL2Name s
  | .mrsSctlr2maskEl1 _ => causesEL1Name s.env.hfgrtr2_nSCTLR2MASK_EL1 s
  | .msrSctlr2maskEl1 _ => causesEL1Name s.env.hfgwtr2_nSCTLR2MASK_EL1 s ++
      [(s.pstate.el == .el1 && s.env.nvx != 0b111#3 && effMaskEL1 s != 0#64, .undefined .lockEL1)]

/-- The event of an instruction: "the first condition that holds decides" (rule R94). -/
def firstCause (i : Instr) (s : State) : Option Event := ((causes s i).find? (·.1)).map (·.2)

/-- The instruction is an MSR that reaches SCTLR2MASK_EL2 at EL2 (rules R61, R71, R72). -/
def writesMaskAtEL2 (s : State) : Instr → Bool
  | .mrsSctlr2maskEl2 _ => false
  | .msrSctlr2maskEl2 _ => s.pstate.el == .el2
  | .mrsSctlr2maskEl1 _ => false
  | .msrSctlr2maskEl1 _ => s.pstate.el == .el2 && s.env.inHostEL2

/-- The tuple `(direction, name, t)` of an instruction (rule R95). -/
def accessorOf : Instr → Accessor
  | .mrsSctlr2maskEl2 t => ⟨.read, .sctlr2maskEL2, t⟩
  | .msrSctlr2maskEl2 t => ⟨.write, .sctlr2maskEL2, t⟩
  | .mrsSctlr2maskEl1 t => ⟨.read, .sctlr2maskEL1, t⟩
  | .msrSctlr2maskEl1 t => ⟨.write, .sctlr2maskEL1, t⟩

/-- The EL2 lock refuses the instruction: no cause comes before it, and the mask its test meets locks (rules R61,
R71, R94). -/
abbrev RefusedByEL2Lock (i : Instr) (s : State) : Prop :=
  firstCause i s = none ∧ writesMaskAtEL2 s i = true ∧
    effectiveEL2 s.cfg s.env (maskSeenBy (accessorOf i).name s) ≠ 0#64

/-- What a refused lock test leaves of the open accesses (log 7): the EL2 one is put where it was drawn, if it is
one of them; the EL1 one among those by the EL1 name, if there are any open. -/
def LockTestKept (i : Instr) (s s' : State) : Prop :=
  (firstCause i s = none →
    s'.window = if recorded s then
        insertAccess (drawUpTo (freedom (accessorOf i).name s.window.order) s).1
          ⟨s.window.order.length, (accessorOf i).name, .test s.env.effMaskEL2⟩ (openWindow s)
      else s.window) ∧
  (firstCause i s = some (.undefined .lockEL1) →
    if s.window.order = [] then s'.window = s.window
    else ∃ back ≤ freedom .sctlr2maskEL1 s.window.order, s'.window = insertAccess back
      ⟨s.window.order.length, .sctlr2maskEL1,
        .testEL1 (if s.env.effMaskEL1 = none then readHeldAt .maskEL1 s else none)⟩ s.window)

/-- The fault that records an event (rules R90, R91, R95). -/
def faultOf (ev : Event) (i : Instr) (s : State) : Fault :=
  match ev with
  | .undefined why => .undefined why s.pc (accessorOf i)
  | .trap target why => .trap target 0x18 why s.pc (accessorOf i)

/-- The instruction is an MSR. -/
def isMsr : Instr → Bool
  | .mrsSctlr2maskEl2 _ => false
  | .msrSctlr2maskEl2 _ => true
  | .mrsSctlr2maskEl1 _ => false
  | .msrSctlr2maskEl1 _ => true

/-- The MRS by an accessor name. -/
def mrsBy (n : RegName) (t : RegNum) : Instr :=
  match n with
  | .sctlr2maskEL2 => .mrsSctlr2maskEl2 t
  | .sctlr2maskEL1 => .mrsSctlr2maskEl1 t

/-- The MSR by an accessor name. -/
def msrBy (n : RegName) (t : RegNum) : Instr :=
  match n with
  | .sctlr2maskEL2 => .msrSctlr2maskEl2 t
  | .sctlr2maskEL1 => .msrSctlr2maskEl1 t

/-- `X[t] AND (IMPL_MASK OR RES0_STORED)`: what SCTLR2MASK_EL2 stores of `X[t]` (rule R24). -/
abbrev storedFrom (s : State) (t : RegNum) : Word := readX s t &&& (implMask s.cfg ||| s.cfg.res0Stored)

/-- Host mode at EL2, where both names reach SCTLR2MASK_EL2 (rule R72), EL3 allowing it. -/
abbrev InHost (s : State) : Prop :=
  Runs s ∧ s.pstate.el = .el2 ∧ El3Allows s ∧ s.env.inHostEL2 = true

/-- The bytes of the cell `NVMem[0x328]` in `s'` are those of `v`, in the byte order of rule R43: bits [7:0] at
the lowest address, or at the highest under `NV_BIGENDIAN`. -/
def CellHolds (v : Word) (s s' : State) : Prop :=
  ∀ i < 8, memGet s'.mem (s.env.nvBase.toNat + 0x328 + i) =
    some (v.extractLsb' (8 * (if s.cfg.nvBigEndian then 7 - i else i)) 8)

/-- The outcome with other run-time inputs in its next state. -/
def withEnv (f : Env → Env) : Host.Outcome State Fault Refusal → Host.Outcome State Fault Refusal
  | .next s => .next (s.setEnv (f s.env))
  | .fault x => .fault x
  | .refused r => .refused r

/-- Reading the inputs that `f` changes has no part in `i` at `s`. -/
def Unread (f : Env → Env) (i : Instr) (s : State) : Prop :=
  exec i (s.setEnv (f s.env)) = withEnv f (exec i s)

/-! The frames. -/

/-- What no accessor that completes changes: the configuration, the run-time inputs, `PSTATE` (rule R33),
SCTLR2_EL2, the exception registers, the launch's memory map, the program text (rule R48), the inputs. -/
structure SystemKept (s s' : State) : Prop where
  cfg : s'.cfg = s.cfg
  env : s'.env = s.env
  pstate : s'.pstate = s.pstate
  sctlr2 : s'.sctlr2EL2 = s.sctlr2EL2
  excEL1 : s'.excEL1 = s.excEL1
  excEL2 : s'.excEL2 = s.excEL2
  excEL3 : s'.excEL3 = s.excEL3
  regions : s'.regions = s.regions
  text : s'.text = s.text
  inputs : s'.inputs = s.inputs

/-- Every byte of memory reads as before. -/
def MemoryKept (s s' : State) : Prop := ∀ a, memGet s'.mem a = memGet s.mem a

/-- What the latest of some cells at an address says is there. -/
def latestAt (l : List Host.Cell) (a : Nat) : Option Byte := (l.reverse.find? (·.1 == a)).map (·.2)

/-- The place holds the result of an access by the other name whose order against a write by `n`
is still open: the write may give it a new value (rule R46, second item). -/
def OpenAt (n : RegName) (s : State) (p : Place) : Prop :=
  ∃ a ∈ s.window.order, a.name ≠ n ∧ ⟨p, a.id⟩ ∈ s.window.held

/-- What an exception entry leaves alone: everything but the exception registers of one level, `PSTATE`, `pc`
and, of the model's own, the count of draws and the order of open accesses (rules R92, R102). -/
structure ArchitectureKept (s s' : State) : Prop where
  cfg : s'.cfg = s.cfg
  env : s'.env = s.env
  x : s'.x = s.x
  maskEL2 : s'.sctlr2maskEL2 = s.sctlr2maskEL2
  maskEL1 : s'.sctlr2maskEL1 = s.sctlr2maskEL1
  sctlr2 : s'.sctlr2EL2 = s.sctlr2EL2
  mem : s'.mem = s.mem
  regions : s'.regions = s.regions
  text : s'.text = s.text
  maskHist : s'.maskHist = s.maskHist
  nvEvents : s'.nvEvents = s.nvEvents
  inputs : s'.inputs = s.inputs

end Sys2Proof.Claims

open Sys2Proof Sys2Proof.Machine Sys2Proof.Claims

/-! Encoding. -/

/-- 30_encoding.md rules R54, R55: the decoder reads every instruction, with its operand at every value,
from the bytes the encoder lays out, and leaves the bytes that follow. The word layout is general knowledge
to the spec (log 5). -/
def Obligations.DecodeInvertsEncode : Prop :=
  ∀ (i : Instr) (rest : List Byte), decode (encodeBytes i ++ rest) = .ok (i, rest)

/-- 30_encoding.md rules R55, R56: a word has one meaning: only the encoding of an instruction decodes to
it. The word layout is general knowledge to the spec (log 5). -/
def Obligations.DecodedWordIsItsEncoding : Prop :=
  ∀ (w : BitVec 32) (i : Instr), decodeWord w = .ok i → encode i = w

/-- 30_encoding.md rule R55, "A word `w` is the instruction of a row when `w AND mask == match`; then
`t = w[4:0]`", for the four rows. The word layout is general knowledge to the spec (log 5). -/
def Obligations.MatchAndMaskOfTheFourRows : Prop :=
  ∀ (w : BitVec 32) (t : RegNum),
    (decodeWord w = .ok (.mrsSctlr2maskEl2 t) ↔
      w &&& 0xFFFFFFE0#32 = 0xD53C1460#32 ∧ t = w.extractLsb' 0 5) ∧
    (decodeWord w = .ok (.msrSctlr2maskEl2 t) ↔
      w &&& 0xFFFFFFE0#32 = 0xD51C1460#32 ∧ t = w.extractLsb' 0 5) ∧
    (decodeWord w = .ok (.mrsSctlr2maskEl1 t) ↔
      w &&& 0xFFFFFFE0#32 = 0xD5381460#32 ∧ t = w.extractLsb' 0 5) ∧
    (decodeWord w = .ok (.msrSctlr2maskEl1 t) ↔
      w &&& 0xFFFFFFE0#32 = 0xD5181460#32 ∧ t = w.extractLsb' 0 5)

/-- 30_encoding.md rule R54: the direction and the five fields select the row, `t` is free, and no other tuple
is one of the four. -/
def Obligations.TupleSelectsItsRow : Prop :=
  ∀ (u : SysRegTuple) (i : Instr), instrOfTuple u = some i ↔
    (u.op0 = 0b11#2 ∧ u.crn = 0b0001#4 ∧ u.crm = 0b0100#4 ∧ u.op2 = 0b011#3) ∧
      ((u.direction = .read ∧ u.op1 = 0b100#3 ∧ i = .mrsSctlr2maskEl2 u.t) ∨
       (u.direction = .write ∧ u.op1 = 0b100#3 ∧ i = .msrSctlr2maskEl2 u.t) ∨
       (u.direction = .read ∧ u.op1 = 0b000#3 ∧ i = .mrsSctlr2maskEl1 u.t) ∨
       (u.direction = .write ∧ u.op1 = 0b000#3 ∧ i = .msrSctlr2maskEl1 u.t))

/-- 30_encoding.md rules R51 and R52: the tuple of each accessor name, the same for the MRS and the MSR by it,
selects its instructions; the two names differ in op1 only. -/
def Obligations.AccessorNamesAreTheirTuples : Prop :=
  ∀ (d : Direction) (t : RegNum),
    accessorTuple ⟨d, .sctlr2maskEL2, t⟩ = ⟨d, 0b11, 0b100, 0b0001, 0b0100, 0b011, t⟩ ∧
    accessorTuple ⟨d, .sctlr2maskEL1, t⟩ = ⟨d, 0b11, 0b000, 0b0001, 0b0100, 0b011, t⟩ ∧
    { accessorTuple ⟨d, .sctlr2maskEL2, t⟩ with op1 := 0b000 } = accessorTuple ⟨d, .sctlr2maskEL1, t⟩ ∧
    ∀ n, instrOfTuple (accessorTuple ⟨.read, n, t⟩) = some (mrsBy n t) ∧
      instrOfTuple (accessorTuple ⟨.write, n, t⟩) = some (msrBy n t)

/-- 95_test_vectors.md section 2.1: some words written out from rule R55 decode to their instructions. The
word layout is general knowledge to the spec (log 5). -/
def Obligations.WrittenOutWordsDecode : Prop :=
  decode [0x65, 0x14, 0x3C, 0xD5] = .ok (.mrsSctlr2maskEl2 5, []) ∧
  decode [0x71, 0x14, 0x1C, 0xD5] = .ok (.msrSctlr2maskEl2 17, []) ∧
  decode [0x7F, 0x14, 0x38, 0xD5] = .ok (.mrsSctlr2maskEl1 31, []) ∧
  decode [0x7E, 0x14, 0x18, 0xD5] = .ok (.msrSctlr2maskEl1 30, [])

/-- 30_encoding.md rule R56: a word is refused, by name, exactly when it is no System register move of one
of the two names; so no neighbour of the four encodings is read as one of them. The word layout (log 5) and
the refusal (log 22) are decisions. -/
def Obligations.OtherEncodingsAreRefused : Prop :=
  ∀ w : BitVec 32,
    ((∃ why, decodeWord w = .error why) ↔
      ¬(isSysRegMove w = true ∧ (tupleOfWord w).WellFormed = true)) ∧
    (isSysRegMove w = true → (tupleOfWord w).WellFormed = false →
      decodeWord w = .error (.notOneOfTheFourAccessors (tupleOfWord w)))

/-! The step. -/

/-- 20_memory.md rule R45, 30_encoding.md rule R55: where no input comes next, the bytes of the program text at
an aligned `pc` decoded, the step is `exec` of the instruction at that state, with one entry of the schedule
of inputs past and nothing else around it; with no input to come it is `exec` at that very state. The program
text and the schedule are the model's (log 8). -/
def Obligations.StepRunsTheDecodedInstruction : Prop :=
  ∀ (s : State) (b0 b1 b2 b3 : Byte) (i : Instr),
    nextInput s = none → s.pc.toNat % 4 = 0 →
    memGet s.text s.pc.toNat = some b0 → memGet s.text (s.pc.toNat + 1) = some b1 →
    memGet s.text (s.pc.toNat + 2) = some b2 → memGet s.text (s.pc.toNat + 3) = some b3 →
    decode [b0, b1, b2, b3] = .ok (i, []) →
    step s = exec i (s.setInputs s.inputs.tail) ∧ (s.inputs = [] → step s = exec i s)

/-- An instruction placed at an aligned `pc` is the next the machine runs (log 8). -/
def Obligations.PlacedInstructionRunsNext : Prop :=
  ∀ (s : State) (i : Instr), s.pc.toNat % 4 = 0 →
    step (s.withFetchWord 32 (encode i).toNat) = exec i (s.withFetchWord 32 (encode i).toNat)

/-- 30_encoding.md rule R56, 20_memory.md rule R48: a word that is not one of the four accessors is refused
by name, and so is a `pc` at which the program text has no instruction. Both refusals are decisions (logs 8,
22). -/
def Obligations.StepRefusesByName : Prop :=
  ∀ s : State, nextInput s = none → s.pc.toNat % 4 = 0 →
    (∀ (b0 b1 b2 b3 : Byte) (why : DecodeReject),
      memGet s.text s.pc.toNat = some b0 → memGet s.text (s.pc.toNat + 1) = some b1 →
      memGet s.text (s.pc.toNat + 2) = some b2 → memGet s.text (s.pc.toNat + 3) = some b3 →
      decode [b0, b1, b2, b3] = .error why → step s = .refused (.notDecoded why)) ∧
    ((∃ k < 4, memGet s.text (s.pc.toNat + k) = none) → step s = .refused (.noInstruction s.pc))

/-- 10_state.md rule R36: an instruction at a `pc` for which `pc + 4` does not fit in 64 bits is refused,
whatever it is. The rule is decision D10 (log 10). -/
def Obligations.NoInstructionAtTheTopOfTheAddressSpace : Prop :=
  ∀ (i : Instr) (s : State), 2 ^ 64 ≤ s.pc.toNat + 4 → exec i s = .refused (.pcOverflow s.pc)

/-! Completion: where each instruction has its effect. -/

/-- 40_access_sctlr2mask_el2.md rule R60 rows 8 and 9: at EL3, and at EL2 when EL3 allows it, the MRS by the
EL2 name completes: `X[t]` gets the stored register (31 discards it) and `pc` advances by 4. Where the
ordering rule R46 leaves an order open the value is the one before as many of the latest accesses as are drawn,
none of them by the same name. Register 31 (log 9), the step of 4 (log 10) and the open order (log 7) are
decisions. -/
def Obligations.MrsByEL2NameReadsTheMask : Prop :=
  ∀ (t : RegNum) (s : State), Runs s →
    (s.pstate.el = .el3 ∨ (s.pstate.el = .el2 ∧ El3Allows s)) →
    ∃ s' v, exec (.mrsSctlr2maskEl2 t) s = .next s' ∧
      readX s' t = (if t = 31#5 then 0#64 else v) ∧ s'.pc = s.pc + 4#64 ∧
      (Settled s → v = s.sctlr2maskEL2) ∧
      v = maskSeenBy .sctlr2maskEL2 s

/-- 40_access_sctlr2mask_el2.md rule R61 rows 9 and 10, 10_state.md rule R24: at EL3 always, and at EL2 when
EL3 allows it, no order is open and the Effective value of the mask is zero, the MSR by the EL2 name completes
and, where no order is open, the register stores the bits of `X[t]` that are real fields or stored RES0 bits; an
order left open (log 7), at EL2 and EL3, is MsrUnderAnOpenOrder. The step of 4 (log 10) and the stored RES0 bits
(log 11) are decisions. -/
def Obligations.MsrByEL2NameWritesTheMask : Prop :=
  ∀ (t : RegNum) (s : State), Runs s →
    (s.pstate.el = .el3 ∨
      (s.pstate.el = .el2 ∧ El3Allows s ∧ Settled s ∧ effMaskEL2 s = 0#64)) →
    ∃ s', exec (.msrSctlr2maskEl2 t) s = .next s' ∧ s'.pc = s.pc + 4#64 ∧
      (Settled s → s'.sctlr2maskEL2 = readX s t &&& (implMask s.cfg ||| s.cfg.res0Stored))

/-- 41_access_sctlr2mask_el1.md rule R70 rows 8, 9, 13, 14, 15 and rule R72: where the MRS by the EL1 name
completes, and which location it reads: memory at EL1 under `nvx = '111'`, SCTLR2MASK_EL2 at EL2 in host
mode, SCTLR2MASK_EL1 otherwise. The memory oracle answers what memory holds or any word, by the draw (rule
R41). Register 31 (log 9), the step of 4 (log 10), the open order (log 7), the address and the oracle (logs
16, 17) are decisions. -/
def Obligations.MrsByEL1NameReadsItsLocation : Prop :=
  ∀ (t : RegNum) (s : State), Runs s →
    (s.pstate.el = .el1 → El3Allows s → El2Allows s.env.hfgrtr2_nSCTLR2MASK_EL1 s →
      s.env.nvx = 0b111#3 → nvCheck s = none →
      ∃ s' v, exec (.mrsSctlr2maskEl1 t) s = .next s' ∧ s'.pc = s.pc + 4#64 ∧
        readX s' t = (if t = 31#5 then 0#64 else v) ∧
        v = (if Config.freeNat s.draws % 2 = 0 then
            memRead8 s.cfg.nvBigEndian s.mem (s.env.nvBase.toNat + 0x328) (Config.freeWord s.draws)
          else Config.freeWord s.draws) ∧
        s'.nvEvents = s.nvEvents ++ [.memRead (s.env.nvBase.toNat + 0x328) v]) ∧
    ((s.pstate.el = .el3 ∨
        (s.pstate.el = .el2 ∧ El3Allows s ∧ s.env.inHostEL2 = false) ∨
        (s.pstate.el = .el1 ∧ El3Allows s ∧ El2Allows s.env.hfgrtr2_nSCTLR2MASK_EL1 s ∧
          s.env.nvx ≠ 0b111#3)) →
      ∃ s', exec (.mrsSctlr2maskEl1 t) s = .next s' ∧ s'.pc = s.pc + 4#64 ∧
        readX s' t = (if t = 31#5 then 0#64 else s.sctlr2maskEL1)) ∧
    (InHost s →
      ∃ s' v, exec (.mrsSctlr2maskEl1 t) s = .next s' ∧ s'.pc = s.pc + 4#64 ∧
        readX s' t = (if t = 31#5 then 0#64 else v) ∧
        (Settled s → v = s.sctlr2maskEL2) ∧
        v = maskSeenBy .sctlr2maskEL1 s)

/-- 41_access_sctlr2mask_el1.md rule R71 rows 8, 10, 15, 16, 17 and rule R72: where the MSR by the EL1 name
completes, and that of its three locations (the cell, SCTLR2MASK_EL1, SCTLR2MASK_EL2) it writes one and leaves
the other two. Row 8 comes before the EL1 lock; rows 16 and 17 have no lock. The bytes of the cell stand in
the order of 20_memory.md rule R43. Under an order left open its write of SCTLR2MASK_EL2 is
MsrUnderAnOpenOrder. The step of 4 (log 10), the stored RES0 bits (log 11) and the address and byte order of
the cell (log 16) are decisions. -/
def Obligations.MsrByEL1NameWritesItsLocation : Prop :=
  ∀ (t : RegNum) (s : State), Runs s →
    (s.pstate.el = .el1 → El3Allows s → El2Allows s.env.hfgwtr2_nSCTLR2MASK_EL1 s →
      s.env.nvx = 0b111#3 → nvCheck s = none →
      ∃ s', exec (.msrSctlr2maskEl1 t) s = .next s' ∧ s'.pc = s.pc + 4#64 ∧
        CellHolds (readX s t) s s' ∧
        (∀ free, memRead8 s.cfg.nvBigEndian s'.mem (s.env.nvBase.toNat + 0x328) free = readX s t) ∧
        s'.sctlr2maskEL1 = s.sctlr2maskEL1 ∧ s'.sctlr2maskEL2 = s.sctlr2maskEL2) ∧
    ((s.pstate.el = .el3 ∨
        (s.pstate.el = .el2 ∧ El3Allows s ∧ s.env.inHostEL2 = false) ∨
        (s.pstate.el = .el1 ∧ El3Allows s ∧ El2Allows s.env.hfgwtr2_nSCTLR2MASK_EL1 s ∧
          s.env.nvx ≠ 0b111#3 ∧ effMaskEL1 s = 0#64)) →
      ∃ s', exec (.msrSctlr2maskEl1 t) s = .next s' ∧ s'.pc = s.pc + 4#64 ∧
        s'.sctlr2maskEL1 = readX s t ∧ s'.sctlr2maskEL2 = s.sctlr2maskEL2 ∧ MemoryKept s s') ∧
    (InHost s → s.window.order = [] → effMaskEL2 s = 0#64 →
      ∃ s', exec (.msrSctlr2maskEl1 t) s = .next s' ∧ s'.pc = s.pc + 4#64 ∧
        s'.sctlr2maskEL2 = storedFrom s t ∧ s'.sctlr2maskEL1 = s.sctlr2maskEL1 ∧ MemoryKept s s')

/-- 10_state.md rules R26 and R28, with the default bodies of the two Effective functions: the lock condition
is the stored value AND the implemented bits, so a stored RES0 bit never locks (vectors 2.5 rows 21 and 24,
2.7 row 3): at EL2 an MSR by either name that reaches SCTLR2MASK_EL2 is refused exactly when a real field is
set, and at EL1 the MSR by the EL1 name likewise by SCTLR2MASK_EL1. The default bodies (log 12), the terminal
verdict (log 3) and the window (log 7) are decisions. -/
def Obligations.OnlyRealFieldsLock : Prop :=
  ∀ (t : RegNum) (s : State), Runs s → s.cfg.onEvent = .stop → El3Allows s →
    (s.env.effMaskEL2 = none → s.pstate.el = .el2 → Settled s →
      ∀ n, (n = .sctlr2maskEL1 → s.env.inHostEL2 = true) →
        if s.sctlr2maskEL2 &&& implMask s.cfg = 0#64 then
          ∃ s', exec (msrBy n t) s = .next s' ∧ s'.sctlr2maskEL2 = storedFrom s t
        else exec (msrBy n t) s = .fault (.undefined .lockEL2 s.pc ⟨.write, n, t⟩)) ∧
    (s.env.effMaskEL1 = none → s.pstate.el = .el1 → El2Allows s.env.hfgwtr2_nSCTLR2MASK_EL1 s →
      s.env.nvx ≠ 0b111#3 →
        if s.sctlr2maskEL1 &&& s.cfg.implMaskEL1 = 0#64 then
          ∃ s', exec (.msrSctlr2maskEl1 t) s = .next s' ∧ s'.sctlr2maskEL1 = readX s t
        else exec (.msrSctlr2maskEl1 t) s = .fault (.undefined .lockEL1 s.pc ⟨.write, .sctlr2maskEL1, t⟩))

/-! Events. -/

/-- 60_exceptions.md rules R93 and R94: with terminal verdicts (rule R95) an accessor whose first cause is `ev`
stops with exactly that event, its tag, its address and its tuple; with no cause the only `Undefined` or
`Trap` left is the EL2 lock of an MSR that reaches SCTLR2MASK_EL2 at EL2, raised exactly when the Effective
value is not zero if no order is open; and any other stop is the memory path's. The terminal verdict (log 3),
the stop of the memory path (log 16) and the open order (log 7) are decisions. -/
def Obligations.EventsFollowThePriority : Prop :=
  ∀ (i : Instr) (s : State), s.cfg.onEvent = .stop → s.pc.toNat + 4 < 2 ^ 64 →
    (∀ ev, firstCause i s = some ev → exec i s = .fault (faultOf ev i s)) ∧
    (firstCause i s = none → writesMaskAtEL2 s i = true → Settled s → effMaskEL2 s ≠ 0#64 →
      exec i s = .fault (faultOf (.undefined .lockEL2) i s)) ∧
    (firstCause i s = none → ∀ f, exec i s = .fault f →
      (f = faultOf (.undefined .lockEL2) i s ∧ writesMaskAtEL2 s i = true ∧
        (Settled s → effMaskEL2 s ≠ 0#64)) ∨
      ∃ why, nvCheck s = some why ∧ s.pstate.el = .el1 ∧ s.env.nvx = 0b111#3 ∧
        f = .nvStuck why s.pc (nvAddr s))

/-- 00_scope.md rule R2, conflict C6: when FEAT_SRMASK or FEAT_AA64 is not implemented each of the four
instructions is UNDEFINED, at every Exception level. The terminal verdict (log 3) and the reach over the EL1
name (log 23) are decisions. -/
def Obligations.AbsentRegisterIsUndefined : Prop :=
  ∀ (i : Instr) (s : State), s.cfg.onEvent = .stop → s.pc.toNat + 4 < 2 ^ 64 →
    (s.cfg.featSRMASK = false ∨ s.cfg.featAA64 = false) →
    exec i s = .fault (.undefined .notPresent s.pc (accessorOf i))

/-- 41_access_sctlr2mask_el1.md rule R73: at EL2 the three EL3 tests are the same for all four instructions,
so `SCR_EL3.SRMASKEn == '0'` shuts EL2 out of both names alike; at EL1 the EL2 name is decided by `nvx[0]`
alone; at EL3 no event is possible once the register is present. The terminal verdict is decision D28 (log
3). -/
def Obligations.ControlsActAlikeOnBothNames : Prop :=
  ∀ (i j : Instr) (s : State), s.cfg.onEvent = .stop → Runs s →
    (s.pstate.el = .el2 → s.cfg.haveEL3 = true → s.env.scrSRMASKEn = 0#1 →
      ∃ ev, exec i s = .fault (faultOf ev i s) ∧ exec j s = .fault (faultOf ev j s)) ∧
    (s.pstate.el = .el1 → ∀ t,
      (exec (.mrsSctlr2maskEl2 t) s = .fault (if s.env.nvx.getLsbD 0
          then .trap .el2 0x18 .nvTrap s.pc ⟨.read, .sctlr2maskEL2, t⟩
          else .undefined .el2NameFromEL1 s.pc ⟨.read, .sctlr2maskEL2, t⟩)) ∧
      (exec (.msrSctlr2maskEl2 t) s = .fault (if s.env.nvx.getLsbD 0
          then .trap .el2 0x18 .nvTrap s.pc ⟨.write, .sctlr2maskEL2, t⟩
          else .undefined .el2NameFromEL1 s.pc ⟨.write, .sctlr2maskEL2, t⟩))) ∧
    (s.pstate.el = .el3 → ∃ s', exec i s = .next s')

/-- 10_state.md rules R29, R30 and R31: the fields of SCR_EL3 are read only where EL3 is implemented, the field
of HCRX_EL2 only where EL2 and HCRX_EL2 are enabled, those of HFGRTR2_EL2 and HFGWTR2_EL2 only where EL2 is
enabled with FEAT_FGT2, the former by the MRS and the latter by the MSR alone; where a field is not read its
value has no part in what an instruction does. And no instruction writes any of them. -/
def Obligations.ControlsAreReadOnlyWhereTheyCount : Prop :=
  ∀ (i : Instr) (s : State) (b b' : Bit),
    (s.cfg.haveEL3 = false → Unread (fun e => { e with scrSRMASKEn := b, scrFGTEn2 := b' }) i s) ∧
    (s.env.el2Enabled = false ∨ s.env.hcrxEnabled = false →
      Unread (fun e => { e with hcrxSRMASKEn := b }) i s) ∧
    (s.env.el2Enabled = false ∨ s.cfg.featFGT2 = false →
      Unread (fun e => { e with hfgrtr2_nSCTLR2MASK_EL1 := b, hfgwtr2_nSCTLR2MASK_EL1 := b' }) i s) ∧
    (isMsr i = false → Unread (fun e => { e with hfgwtr2_nSCTLR2MASK_EL1 := b }) i s) ∧
    (isMsr i = true → Unread (fun e => { e with hfgrtr2_nSCTLR2MASK_EL1 := b }) i s) ∧
    (∀ s', exec i s = .next s' → s'.env = s.env)

/-- 60_exceptions.md rules R91, R92 and R102, while exceptions are taken (log 3): an accessor whose first
cause is a trap takes it: ESR, ELR and SPSR of the target get the syndrome, the instruction's own address
and the old `PSTATE`; `PSTATE.EL` becomes the target with interrupts masked; `pc` goes to an offset from the
target's VBAR, the word drawn; and nothing else changes. The whole entry is general knowledge to the spec; the
offset is a free value (logs 4, 6). That it is the same in a handler is the model's choice (log 28). -/
def Obligations.TrapIsTakenToItsTarget : Prop :=
  ∀ (i : Instr) (s : State) (target : TrapTarget) (why : TrapReason),
    s.cfg.onEvent = .enter → s.pc.toNat + 4 < 2 ^ 64 → firstCause i s = some (.trap target why) →
    ∃ s', exec i s = .next s' ∧
      s'.exc target.handler = { s.exc target.handler with
        esr := trapEsr (accessorOf i), elr := s.pc, spsr := s.pstate } ∧
      s'.pstate = ⟨target.handler.toEL, true⟩ ∧
      s'.pc = vectorAddress (s.exc target.handler).vbar (Config.freeWord s.draws) ∧
      (∀ h, h ≠ target.handler → s'.exc h = s.exc h) ∧ ArchitectureKept s s' ∧ s'.window = s.window

/-- 60_exceptions.md rule R90 (GK6), while exceptions are taken (log 3, log 6): an accessor whose first
cause is `UNDEFINED`, and an MSR that the EL2 lock refuses, whatever order is open, takes an exception of class
0x00, from EL0 to EL1 (or to EL2 when EL2 routes EL0's exceptions to itself) and otherwise to the level it was
raised at, which saves the instruction's address and `PSTATE`; interrupts are masked, and `pc` goes to an offset
from that level's VBAR. The low 26 bits of the syndrome and the offset are free values, the two words drawn next;
the mask of interrupts and the zeros above the class (log 6), and an entry that is the same in a handler, whose
saved registers it overwrites at the same level (log 28), are the model's choice. A refused lock test keeps its
place among the open accesses, as LockTestKept says, and any other event leaves the window as it was (log
7). -/
def Obligations.UndefinedIsTakenToItsLevel : Prop :=
  ∀ (i : Instr) (s : State) (why : UndefReason),
    s.cfg.onEvent = .enter → s.pc.toNat + 4 < 2 ^ 64 →
    (firstCause i s = some (.undefined why) ∨ RefusedByEL2Lock i s) →
    ∃ s' h d, exec i s = .next s' ∧
      d = (if firstCause i s = none
        then (drawUpTo (freedom (accessorOf i).name s.window.order) s).2.draws else s.draws) ∧
      h.toEL = (if s.pstate.el = .el0 then (if s.env.undefEL0ToEL2 then EL.el2 else EL.el1)
        else s.pstate.el) ∧
      s'.pstate = ⟨h.toEL, true⟩ ∧ (s'.exc h).elr = s.pc ∧ (s'.exc h).spsr = s.pstate ∧
      (s'.exc h).vbar = (s.exc h).vbar ∧ (s'.exc h).esr.extractLsb' 26 38 = 0#38 ∧
      (s'.exc h).esr.extractLsb' 0 26 = (Config.freeWord d).extractLsb' 0 26 ∧
      s'.pc = vectorAddress (s.exc h).vbar (Config.freeWord (d + 1)) ∧
      (∀ k, k ≠ h → s'.exc k = s.exc k) ∧ ArchitectureKept s s' ∧ LockTestKept i s s' ∧
      (firstCause i s = some (.undefined why) → why ≠ .lockEL1 → s'.window = s.window)

/-- 60_exceptions.md rule R102, the table of ESR values of the four instructions. General knowledge to the
spec (log 6). -/
def Obligations.SyndromeOfEachInstruction : Prop :=
  ∀ t : RegNum,
    trapEsr ⟨.read, .sctlr2maskEL2, t⟩ = 0x62370409#64 ||| (t.setWidth 64 <<< 5) ∧
    trapEsr ⟨.write, .sctlr2maskEL2, t⟩ = 0x62370408#64 ||| (t.setWidth 64 <<< 5) ∧
    trapEsr ⟨.read, .sctlr2maskEL1, t⟩ = 0x62360409#64 ||| (t.setWidth 64 <<< 5) ∧
    trapEsr ⟨.write, .sctlr2maskEL1, t⟩ = 0x62360408#64 ||| (t.setWidth 64 <<< 5)

/-- 60_exceptions.md rule R96 (GK5): returning from the exception a trap took gives back the `PSTATE` and
the `pc` of the trapped instruction, in a handler too (log 28). The return is an input from outside (log 26). -/
def Obligations.ReturnUndoesTheTrapEntry : Prop :=
  ∀ (i : Instr) (s s' : State) (target : TrapTarget) (why : TrapReason),
    s.cfg.onEvent = .enter → s.pc.toNat + 4 < 2 ^ 64 → firstCause i s = some (.trap target why) →
    exec i s = .next s' →
    ∃ s'', applyInput .exceptionReturn s' = .next s'' ∧ s''.pstate = s.pstate ∧ s''.pc = s.pc

/-! Frames. -/

/-- Rules R60 and R70, "State written on `Ok`: `x[t]`, then `pc`": an MRS that completes changes no general
register but `X[t]`, no system register, no byte of memory and no mask; `PSTATE` is unchanged (rule R33).
What happens while exceptions are taken is left out by the premise on the causes. -/
def Obligations.MrsFrame : Prop :=
  ∀ (t : RegNum) (i : Instr) (s s' : State),
    (i = .mrsSctlr2maskEl2 t ∨ i = .mrsSctlr2maskEl1 t) →
    firstCause i s = none → exec i s = .next s' →
    SystemKept s s' ∧ MemoryKept s s' ∧ s'.sctlr2maskEL2 = s.sctlr2maskEL2 ∧
      s'.sctlr2maskEL1 = s.sctlr2maskEL1 ∧ s'.maskHist = s.maskHist ∧
      (∀ u, u ≠ t → readX s' u = readX s u)

/-- Rule R61, and rule R71 at EL2 in host mode: an MSR of SCTLR2MASK_EL2 that completes changes no other
system register, no general register and no byte of memory, but for the places that hold the result of an
earlier access by the other name, whose order rule R46 still leaves open: a general register that is not the
MSR's own operand, SCTLR2MASK_EL1, a cell of memory, and what the history of that cell records. Such a place may
get what the MSR stores. Its only other next state is the entry of its event (rule R102). Which accesses are
still open and where their results are is the model's, and the invariant is what it says of them (log 7). -/
def Obligations.MsrOfTheMaskFrame : Prop :=
  ∀ (t : RegNum) (i : Instr) (n : RegName) (s s' : State), s.Inv →
    ((i = .msrSctlr2maskEl2 t ∧ n = .sctlr2maskEL2) ∨
      (i = .msrSctlr2maskEl1 t ∧ n = .sctlr2maskEL1 ∧ s.pstate.el = .el2 ∧ s.env.inHostEL2 = true)) →
    exec i s = .next s' →
    (SystemKept s s' ∧
      (∀ u, readX s' u = readX s u ∨ (OpenAt n s (.x u) ∧ u ≠ t ∧ readX s' u = storedFrom s t)) ∧
      (s'.sctlr2maskEL1 = s.sctlr2maskEL1 ∨
        (OpenAt n s .maskEL1 ∧ s'.sctlr2maskEL1 = storedFrom s t)) ∧
      (∀ a, memGet s'.mem a = memGet s.mem a ∨
        ∃ b, OpenAt n s (.cell b) ∧ b ≤ a ∧ a < b + 8 ∧
          ∀ free, memRead8 s.cfg.nvBigEndian s'.mem b free = storedFrom s t) ∧
      (∀ k, s'.nvEvents[k]? = s.nvEvents[k]? ∨
        (OpenAt n s (.event k) ∧
          s'.nvEvents[k]? = (s.nvEvents[k]?).map (NvEvent.withValue (storedFrom s t))))) ∨
    (s.cfg.onEvent = .enter ∧ ArchitectureKept s s')

/-- Rule R71 rows 10, 16, 17 and 8: the MSR by the EL1 name outside host mode changes no general register
and not SCTLR2MASK_EL2; where it writes SCTLR2MASK_EL1 every byte of memory is unchanged, and where it
writes the cell `NVMem[0x328]` every byte outside the cell's eight bytes is, and SCTLR2MASK_EL1 too. The
cell's address is decision D11 (log 16). -/
def Obligations.MsrByEL1NameFrame : Prop :=
  ∀ (t : RegNum) (s s' : State),
    (s.pstate.el = .el2 → s.env.inHostEL2 = false) →
    firstCause (.msrSctlr2maskEl1 t) s = none → exec (.msrSctlr2maskEl1 t) s = .next s' →
    SystemKept s s' ∧ s'.sctlr2maskEL2 = s.sctlr2maskEL2 ∧ s'.maskHist = s.maskHist ∧ s'.x = s.x ∧
      (s.pstate.el = .el1 → s.env.nvx = 0b111#3 →
        s'.sctlr2maskEL1 = s.sctlr2maskEL1 ∧
        ∀ a, (a < s.env.nvBase.toNat + 0x328 ∨ s.env.nvBase.toNat + 0x328 + 8 ≤ a) →
          memGet s'.mem a = memGet s.mem a) ∧
      (s.pstate.el ≠ .el1 ∨ s.env.nvx ≠ 0b111#3 → MemoryKept s s')

/-! Invariants of the machine. -/

/-- 10_state.md rules R24 and R37, 20_memory.md rule R46: the invariant of the machine holds after reset.
The invariant's window is the model's (log 7), the reset values too (logs 1, 2). -/
def Obligations.ResetStateMeetsTheInvariant : Prop := State.reset.Inv

/-- 10_state.md rules R24 and R25, 20_memory.md rule R47: in every state that meets the invariant every step, an
instruction or an input, gives a state that meets it: RES0 bits that are not stored stay 0, the open accesses by
one name stay in program order (log 25), the open accesses explain the register and the places that hold the
results of accesses, and memory keeps its canonical form. The window (log 7) and the memory list (log 17) are
the model's. -/
def Obligations.EveryStepKeepsTheInvariant : Prop :=
  ∀ s s' : State, s.Inv → step s = .next s' → s'.Inv

/-- 00_scope.md rule R3, 20_memory.md rule R48 (premise `TextFixed`): no step changes the configuration, the
memory the launch admits or the program text. -/
def Obligations.ConfigurationAndTextAreFixed : Prop :=
  ∀ s s' : State, step s = .next s' → s'.cfg = s.cfg ∧ s'.regions = s.regions ∧ s'.text = s.text

/-- 10_state.md rule R36, 20_memory.md rule R44: "no misaligned fetch can arise": an instruction leaves an
aligned `pc` aligned, whether it completes or its event is taken. The step of 4 (log 10) and the alignment
of a vector (log 6) are decisions. -/
def Obligations.InstructionsKeepThePcAligned : Prop :=
  ∀ s s' : State, nextInput s = none → s.pc.toNat % 4 = 0 → step s = .next s' → s'.pc.toNat % 4 = 0

/-- 40_access_sctlr2mask_el2.md rule R63, the write-once property: in a run with no reset and no instruction
executed at EL3, once the Effective value of the mask is not zero and no write of it is open, the register
and its Effective value never change. The level and the run-time inputs may change in the run, but for the
body of the Effective function: of another body the rule says that its value can change. No reordering, the
rule's third premise, is that no write is open (log 7). An inference the spec marks as its own. -/
def Obligations.LockedMaskNeverChanges : Prop :=
  ∀ s s' : State, s.Locked → LowRun s s' →
    s'.sctlr2maskEL2 = s.sctlr2maskEL2 ∧ effMaskEL2 s' = effMaskEL2 s

/-- 70_reset_and_hazards.md rule R110: "The reset is the only event other than an MSR at EL2 or EL3 that
changes the stored SCTLR2MASK_EL2". That a Cold reset is the same event is decision D19 (log 19). -/
def Obligations.OnlyResetAndMsrAboveEL1ChangeTheMask : Prop :=
  ∀ s s' : State, step s = .next s' → s'.sctlr2maskEL2 ≠ s.sctlr2maskEL2 →
    (∃ l, nextInput s = some (.reset l)) ∨
      (nextInput s = none ∧ (s.pstate.el = .el2 ∨ s.pstate.el = .el3) ∧
        ∃ i, fetch s = .instr i ∧ isMsr i = true)

/-- 10_state.md rule R27, 42_mask_effect.md rule R81: SCTLR2_EL2 changes by `WriteSCTLR2_EL2` and by a reset
only, the former at EL2 or EL3; so no instruction changes it. Decisions D15 and D21 (logs 14, 19). -/
def Obligations.OnlyItsWriteAndResetChangeSctlr2 : Prop :=
  ∀ s s' : State, step s = .next s' → s'.sctlr2EL2 ≠ s.sctlr2EL2 →
    (∃ l, nextInput s = some (.reset l)) ∨
      (∃ v, nextInput s = some (.writeSctlr2EL2 v) ∧
        (s.pstate.el = .el2 ∨ s.pstate.el = .el3))

/-! The mask fields and the masked write. -/

/-- 10_state.md rules R12 to R23, R25 and 00_scope.md rule R4: a field's bit is in `IMPL_MASK` exactly when
EL2 and the field's feature are implemented; bits [63:13] and bit [0] are never in it (rule R11). An
inference the spec marks as its own. -/
def Obligations.ImplementedFieldsMakeUpImplMask : Prop :=
  ∀ (c : Config),
    (∀ f : MaskField, (implMask c).getLsbD f.bit = (c.haveEL2 && f.implemented c)) ∧
    (∀ i, (i = 0 ∨ 13 ≤ i) → (implMask c).getLsbD i = false)

/-- 42_mask_effect.md rule R80: each field whose mask bit is 1 stays, each field whose mask bit is 0 takes
the new value; and on 64-bit images this is `(new AND NOT m) OR (old AND m)`. The 64-bit image is decision
D17 (log 13). -/
def Obligations.MaskedWriteIsFieldByField : Prop :=
  ∀ (old new : Sctlr2) (m : Word),
    (∀ f, maskBit m f = 1#1 → (old.maskedWrite new m).get f = old.get f) ∧
    (∀ f, maskBit m f = 0#1 → (old.maskedWrite new m).get f = new.get f) ∧
    (old.maskedWrite new m).image = (new.image &&& ~~~m) ||| (old.image &&& m)

/-- 42_mask_effect.md rule R85: the laws of `MaskedWrite`, for all 64-bit values. An inference the spec
marks as its own. -/
def Obligations.MaskedWriteLaws : Prop :=
  ∀ old new a b m : Word,
    maskedWrite old new 0#64 = new ∧
    maskedWrite old new 0xFFFFFFFFFFFFFFFF#64 = old ∧
    maskedWrite old new m &&& m = old &&& m ∧
    maskedWrite old new m &&& ~~~m = new &&& ~~~m ∧
    maskedWrite old old m = old ∧
    maskedWrite (maskedWrite old a m) b m = maskedWrite old b m

/-- 42_mask_effect.md rules R81 and R84: a write of SCTLR2_EL2 at EL2 with EL2 enabled completes and is
masked by the Effective value of the mask, the stored one or, with no synchronization since, one it had
before. With nothing unsynchronized it is the stored one. Decisions D15, D16, D18 (logs 14, 15). -/
def Obligations.WriteOfSctlr2IsMasked : Prop :=
  ∀ (v : Word) (s : State), s.env.el2Enabled = true →
    (s.pstate.el = .el2 ∨ (s.pstate.el = .el3 ∧ s.cfg.maskAtEL3 = true)) →
    ∃ s' m, applyInput (.writeSctlr2EL2 v) s = .next s' ∧
      (m = s.sctlr2maskEL2 ∨ m ∈ s.maskHist) ∧ (s.maskHist = [] → m = s.sctlr2maskEL2) ∧
      s'.sctlr2EL2 = s.sctlr2EL2.maskedWrite (Sctlr2.ofImage v) (effectiveEL2 s.cfg s.env m) ∧
      s'.sctlr2maskEL2 = s.sctlr2maskEL2 ∧ s'.pc = s.pc ∧ s'.x = s.x ∧ s'.mem = s.mem

/-- 42_mask_effect.md rule R83: "This register has no effect if EL2 is not enabled in the current Security
state": the write is unmasked at EL2 and EL3; enabling or disabling EL2 leaves the stored mask; and the EL2
name keeps working from EL3, with the stored value where no order is open (log 7). Register 31 (log 9), the stored RES0 bits (log 11), the 64-bit image (log 13) and
the abstract write (log 14) are decisions. -/
def Obligations.NoEffectWhenEL2IsNotEnabled : Prop :=
  (∀ (v : Word) (s : State), s.env.el2Enabled = false → (s.pstate.el = .el2 ∨ s.pstate.el = .el3) →
    ∃ s', applyInput (.writeSctlr2EL2 v) s = .next s' ∧ s'.sctlr2EL2 = Sctlr2.ofImage v) ∧
  (∀ (e : Env) (el : EL) (s : State), ∃ s', applyInput (.env el e) s = .next s' ∧
    s'.sctlr2maskEL2 = s.sctlr2maskEL2 ∧ s'.env.el2Enabled = e.el2Enabled) ∧
  (∀ (t : RegNum) (s : State), Runs s → s.pstate.el = .el3 → s.env.el2Enabled = false →
    (∃ s', exec (.mrsSctlr2maskEl2 t) s = .next s' ∧
      (Settled s → readX s' t = if t = 31#5 then 0#64 else s.sctlr2maskEL2)) ∧
    ∃ s', exec (.msrSctlr2maskEl2 t) s = .next s' ∧
      (Settled s → s'.sctlr2maskEL2 = readX s t &&& (implMask s.cfg ||| s.cfg.res0Stored)))

/-- 42_mask_effect.md rule R81: at EL3 without `MASK_AT_EL3` the write is unmasked; at EL0 and EL1 it is not
given by this spec and is refused. Decision D15 (log 14). -/
def Obligations.WriteOfSctlr2OutsideTheMask : Prop :=
  ∀ (v : Word) (s : State),
    (s.pstate.el = .el3 → s.cfg.maskAtEL3 = false →
      applyInput (.writeSctlr2EL2 v) s = .next (s.setSctlr2 (Sctlr2.ofImage v))) ∧
    (s.pstate.el = .el0 ∨ s.pstate.el = .el1 →
      applyInput (.writeSctlr2EL2 v) s = .refused .sctlr2WriteBelowEL2)

/-! Reset. -/

/-- 10_state.md rule R37 (and decision D20 for the RES0 bits): after a Warm reset every real field is 0 when
the highest implemented Exception level is EL2, and otherwise UNKNOWN: the field of the word drawn, as is a
stored RES0 bit; a bit that is neither is 0. Rule R38: every other register of the machine (`X[t]`, `pc`,
`PSTATE`, the other mask, SCTLR2_EL2, the exception registers of the three levels), the run-time inputs and every
byte of memory are as the launch gives them, at an address the launch lists twice the later byte. The
configuration, the memory admitted and the program text stay (rules R3, R48), and so do the inputs to come.
Decisions D6, D19, D20, D21 (logs 4, 19); that open accesses, old masks and the history of the cell are gone is
the model's choice (log 19). -/
def Obligations.WarmResetOfTheMask : Prop :=
  ∀ (l : Launch) (s : State), ∃ s', applyInput (.reset l) s = .next s' ∧
    (s.cfg.haveEL3 = false → s.cfg.haveEL2 = true → s'.sctlr2maskEL2 &&& implMask s.cfg = 0#64) ∧
    (s.cfg.haveEL3 = true ∨ s.cfg.haveEL2 = false →
      s'.sctlr2maskEL2 &&& implMask s.cfg = Config.freeWord s.draws &&& implMask s.cfg) ∧
    s'.sctlr2maskEL2 &&& (s.cfg.res0Stored &&& ~~~implMask s.cfg) =
      Config.freeWord s.draws &&& (s.cfg.res0Stored &&& ~~~implMask s.cfg) ∧
    s'.sctlr2maskEL2 &&& ~~~(implMask s.cfg ||| s.cfg.res0Stored) = 0#64 ∧
    s'.x = l.x ∧ s'.pc = l.pc ∧ s'.pstate = l.pstate ∧ s'.env = l.env ∧
    s'.sctlr2maskEL1 = l.sctlr2maskEL1 ∧ s'.sctlr2EL2 = l.sctlr2EL2 ∧
    s'.excEL1 = l.excEL1 ∧ s'.excEL2 = l.excEL2 ∧ s'.excEL3 = l.excEL3 ∧
    (∀ a, memGet s'.mem a = if a < 2 ^ 64 then latestAt l.mem a else none) ∧
    memWf s'.mem = true ∧ (memWf l.mem = true → s'.mem = l.mem) ∧
    s'.cfg = s.cfg ∧ s'.regions = s.regions ∧ s'.text = s.text ∧ s'.inputs = s.inputs ∧
    s'.window.order = [] ∧ s'.maskHist = [] ∧ s'.nvEvents = []

/-- 10_state.md rule R37 and vector Z1: the state after reset is fresh from reset, with no bit of the mask
set, and an MSR from EL2 passes the lock test. The configuration and the level are the model's choice (log
1). -/
def Obligations.ResetStateIsFreshAndUnlocked : Prop :=
  FreshFromReset State.reset = true ∧ configWellFormed State.reset.cfg = true ∧
    effMaskEL2 State.reset = 0#64 ∧ AssumedRelations State.reset = true ∧
    highestEL State.reset.cfg = State.reset.pstate.el

/-! Memory. -/

/-- 20_memory.md rules R40, R42 and R43: a write of `NVMem[0x328]` puts the bytes of `X[t]` there in either byte
order, and a read that follows it by the same PE, with no other agent writing between them, completes and
returns the value written: it does wherever the oracle answers what memory holds, and in every run whose
history of the cell is one of a memory (rule R41, "the history of accesses is judged afterwards"). Both
accesses are recorded. Register 31 (log 9), the address (log 16) and the oracle (log 17) are decisions. -/
def Obligations.NvMemReadReturnsWhatWasWritten : Prop :=
  ∀ (t u : RegNum) (s : State),
    Runs s → s.pc.toNat + 8 < 2 ^ 64 → s.pstate.el = .el1 → El3Allows s →
    El2Allows s.env.hfgwtr2_nSCTLR2MASK_EL1 s → El2Allows s.env.hfgrtr2_nSCTLR2MASK_EL1 s →
    s.env.nvx = 0b111#3 → nvCheck s = none →
    ∃ s₁ s₂ v, exec (.msrSctlr2maskEl1 t) s = .next s₁ ∧ exec (.mrsSctlr2maskEl1 u) s₁ = .next s₂ ∧
      CellHolds (readX s t) s s₁ ∧
      readX s₂ u = (if u = 31#5 then 0#64 else v) ∧
      s₂.nvEvents = s.nvEvents ++
        [.memWrite (s.env.nvBase.toNat + 0x328) (readX s t),
         .memRead (s.env.nvBase.toNat + 0x328) v] ∧
      (Config.freeNat s₁.draws % 2 = 0 → v = readX s t) ∧
      (∀ known, cellHistoryOk (s.env.nvBase.toNat + 0x328) known s₂.nvEvents = true → v = readX s t)

/-- 20_memory.md rules R41 and R101: the only state another agent can touch is the cell: its write puts its
bytes there, is recorded, and changes no byte outside the cell's eight and no register. It may come between any
two instructions (log 8). Decisions D11, D23 (logs 16, 17). -/
def Obligations.AgentWritesTheCellAlone : Prop :=
  ∀ (v : Word) (s : State), nvCheck s = none →
    ∃ s', applyInput (.agentWrite v) s = .next s' ∧ CellHolds v s s' ∧
      s'.nvEvents = s.nvEvents ++ [.agentWrite (s.env.nvBase.toNat + 0x328) v] ∧
      SystemKept s s' ∧ s'.x = s.x ∧ s'.pc = s.pc ∧ s'.sctlr2maskEL2 = s.sctlr2maskEL2 ∧
      s'.sctlr2maskEL1 = s.sctlr2maskEL1 ∧
      (∀ a, (a < s.env.nvBase.toNat + 0x328 ∨ s.env.nvBase.toNat + 0x328 + 8 ≤ a) →
        memGet s'.mem a = memGet s.mem a)

/-- 20_memory.md rules R44 and R48: an access of the cell that the launch does not admit is stuck, for the read
and the write alike, at EL1 with `nvx = '111'` and nothing trapping it; the launch admits it exactly when
`NV_BASE` is a multiple of 8, the eight bytes fit below 2^64, each is in an admitted region and none is of the
program text. Decision D12 (log 16). -/
def Obligations.UnadmittedCellIsStuck : Prop :=
  ∀ (t : RegNum) (s : State), Runs s → s.pstate.el = .el1 → El3Allows s → s.env.nvx = 0b111#3 →
    (nvCheck s = none ↔
      s.env.nvBase.toNat % 8 = 0 ∧ s.env.nvBase.toNat + 0x328 + 8 ≤ 2 ^ 64 ∧
      (∀ i < 8, ∃ r ∈ s.regions, r.base ≤ s.env.nvBase.toNat + 0x328 + i ∧
        s.env.nvBase.toNat + 0x328 + i < r.base + r.size) ∧
      (∀ c ∈ s.text, c.1 < s.env.nvBase.toNat + 0x328 ∨ s.env.nvBase.toNat + 0x328 + 8 ≤ c.1)) ∧
    (∀ why, nvCheck s = some why →
      (El2Allows s.env.hfgrtr2_nSCTLR2MASK_EL1 s →
        exec (.mrsSctlr2maskEl1 t) s = .fault (.nvStuck why s.pc (nvAddr s))) ∧
      (El2Allows s.env.hfgwtr2_nSCTLR2MASK_EL1 s →
        exec (.msrSctlr2maskEl1 t) s = .fault (.nvStuck why s.pc (nvAddr s))))

/-! Ordering. -/

/-- 20_memory.md rule R46, first item (vectors O1 and O2), for either name: in host mode at EL2, from an empty
window, a write by one name and then a read by the other: the read gives the value written or the one from
before, as the order drawn has it; after a synchronization it gives the value written. The reading of the
ordering sentence is decision D14 (logs 7, 20). -/
def Obligations.OtherNameReadMayMissTheWrite : Prop :=
  ∀ (n m : RegName) (t u : RegNum) (s : State), n ≠ m → InHost s → s.pc.toNat + 8 < 2 ^ 64 →
    s.window.order = [] → effMaskEL2 s = 0#64 →
    ∃ s₁, exec (msrBy n t) s = .next s₁ ∧ s₁.sctlr2maskEL2 = storedFrom s t ∧
      (∃ s₂, exec (mrsBy m u) s₁ = .next s₂ ∧ s₂.sctlr2maskEL2 = s₁.sctlr2maskEL2 ∧
        readX s₂ u = (if u = 31#5 then 0#64
          else if Config.freeNat s₁.draws % 3 = 0 then s₁.sctlr2maskEL2 else s.sctlr2maskEL2)) ∧
      (∃ s₂ s₃, applyInput .sync s₁ = .next s₂ ∧ exec (mrsBy m u) s₂ = .next s₃ ∧
        readX s₃ u = (if u = 31#5 then 0#64 else s₁.sctlr2maskEL2))

/-- 20_memory.md rule R47, 70_reset_and_hazards.md rule R116 (vector O3, program P3 step 3): a read by the same
accessor name as the write before it sees the value written, by the EL2 name whether or not the ordering rule
applies and by the EL1 name in host mode, also with a read by the other name between them. Decision D13 (log
25). -/
def Obligations.SameNameReadSeesTheWrite : Prop :=
  ∀ (n m : RegName) (t u w : RegNum) (s : State), Runs s → s.pc.toNat + 12 < 2 ^ 64 →
    s.pstate.el = .el2 → El3Allows s → (n = .sctlr2maskEL1 → s.env.inHostEL2 = true) →
    s.window.order = [] → effMaskEL2 s = 0#64 →
    ∃ s₁, exec (msrBy n t) s = .next s₁ ∧
      (∃ s₂, exec (mrsBy n u) s₁ = .next s₂ ∧
        readX s₂ u = (if u = 31#5 then 0#64 else storedFrom s t)) ∧
      (n ≠ m → s.env.inHostEL2 = true →
        ∃ s₂ s₃, exec (mrsBy m w) s₁ = .next s₂ ∧ exec (mrsBy n u) s₂ = .next s₃ ∧
          readX s₃ u = (if u = 31#5 then 0#64 else storedFrom s t) ∧
          s₃.sctlr2maskEL2 = storedFrom s t)

/-- 20_memory.md rule R46, second item, for either name: in host mode at EL2, from an empty window, a read by
one name and then a write by the other: both complete, and the read's register holds the value from before
the write or, where the order drawn puts the write first, the value written, except that the write comes after
the read of its own operand. Decision D14; the exception is the model's inference (log 7). -/
def Obligations.EarlierReadMaySeeTheLaterWrite : Prop :=
  ∀ (n m : RegName) (t u : RegNum) (s : State), n ≠ m → InHost s → s.pc.toNat + 8 < 2 ^ 64 →
    s.window.order = [] → effMaskEL2 s = 0#64 →
    ∃ s₁ s₂, exec (mrsBy n u) s = .next s₁ ∧ exec (msrBy m t) s₁ = .next s₂ ∧
      s₂.sctlr2maskEL2 = storedFrom s₁ t ∧
      readX s₂ u = (if u = 31#5 then 0#64
        else if u ≠ t ∧ Config.freeNat s₁.draws % 2 = 1 ∧ Config.freeNat (s₁.draws + 1) % 2 = 1
          then s₂.sctlr2maskEL2
        else s.sctlr2maskEL2)

/-- 20_memory.md rule R46, second item, for a read whose result has been used: in host mode at EL2, from an empty
window, a read by one name into `X[u]`; then `X[u]` is read over again, or written back, by the same name; then
a write by the other name. The orders in which that write comes before all of them are runs: there `X[u]` ends
with the value written, and it is what the write back stores. The write comes before an earlier lock test only
if its value does not lock that. Decision D14 (log 7). -/
def Obligations.AUsedReadStaysOpen : Prop :=
  ∀ (n m : RegName) (t u : RegNum) (s : State), n ≠ m → InHost s → s.pc.toNat + 12 < 2 ^ 64 →
    t ≠ u → u ≠ 31#5 → s.window.order = [] → effMaskEL2 s = 0#64 →
    (Config.freeNat s.draws % 3 = 2 → Config.freeNat (s.draws + 1) % 3 = 2 →
      ∃ s₁ s₂ s₃, exec (mrsBy n u) s = .next s₁ ∧ exec (mrsBy n u) s₁ = .next s₂ ∧
        exec (msrBy m t) s₂ = .next s₃ ∧ readX s₃ u = storedFrom s t) ∧
    (effectiveEL2 s.cfg s.env (storedFrom s t) = 0#64 →
      Config.freeNat s.draws % 4 = 3 → Config.freeNat (s.draws + 1) % 4 = 3 →
      ∃ s₁ s₂ s₃, exec (mrsBy n u) s = .next s₁ ∧ exec (msrBy n u) s₁ = .next s₂ ∧
        exec (msrBy m t) s₂ = .next s₃ ∧ readX s₃ u = storedFrom s t ∧
        s₃.sctlr2maskEL2 = storedFrom s t)

/-- 20_memory.md rule R46, third and fourth items (vectors O5 and O6), for either order of the names: two writes
by the two names. The order drawn first places the second's lock test: after the first write it sees that
write's value, and refuses the second if that locks; before it it sees the value from before. The order drawn
then places the second write, and the register ends with the first's value or the second's. The second cannot
come before the first's own lock test if its value would have locked that. After a synchronization the program
order is left. Decision D14 (log 7), the terminal verdict (log 3). -/
def Obligations.TwoWritesEndWithOneOfThem : Prop :=
  ∀ (n m : RegName) (t u : RegNum) (s : State), n ≠ m → InHost s → s.pc.toNat + 8 < 2 ^ 64 →
    s.cfg.onEvent = .stop → s.window.order = [] → effMaskEL2 s = 0#64 →
    ∃ s₁, exec (msrBy n t) s = .next s₁ ∧ s₁.sctlr2maskEL2 = storedFrom s t ∧
      (if Config.freeNat s₁.draws % 3 = 0 ∧ effMaskEL2 s₁ ≠ 0#64 then
        exec (msrBy m u) s₁ = .fault (.undefined .lockEL2 s₁.pc ⟨.write, m, u⟩)
      else
        ∃ s₂, exec (msrBy m u) s₁ = .next s₂ ∧
          s₂.sctlr2maskEL2 =
            if (Config.freeNat s₁.draws % 3 = 1 ∧ Config.freeNat (s₁.draws + 1) % 2 = 1) ∨
                (Config.freeNat s₁.draws % 3 = 2 ∧ Config.freeNat (s₁.draws + 1) %
                  (if effectiveEL2 s.cfg s.env (storedFrom s u) = 0#64 then 3 else 2) ≠ 0)
              then storedFrom s t else storedFrom s u) ∧
      (∃ s₂, applyInput .sync s₁ = .next s₂ ∧
        if effMaskEL2 s₁ = 0#64 then
          ∃ s₃, exec (msrBy m u) s₂ = .next s₃ ∧ s₃.sctlr2maskEL2 = storedFrom s u
        else exec (msrBy m u) s₂ = .fault (.undefined .lockEL2 s₂.pc ⟨.write, m, u⟩))

/-- 20_memory.md rule R46: an MSR of SCTLR2MASK_EL2 whatever order of earlier accesses is open. At EL2 its lock
test sees the value before as many of the latest accesses as are drawn, none of them by the same name; if that
locks it is refused: with terminal verdicts it stops (log 3), and while exceptions are taken this is
UndefinedIsTakenToItsLevel; at EL3 there is no test. Otherwise it completes and the register ends with its value
or keeps the one it had. Decision D14; what is open, at EL3 and without the ordering rule too, is the model's,
and the invariant is what it says of it (log 7). -/
def Obligations.MsrUnderAnOpenOrder : Prop :=
  ∀ (t : RegNum) (n : RegName) (s : State), Runs s → s.Inv →
    (s.pstate.el = .el2 → El3Allows s → (n = .sctlr2maskEL1 → s.env.inHostEL2 = true) →
      if effectiveEL2 s.cfg s.env (maskSeenBy n s) = 0#64 then
        ∃ s', exec (msrBy n t) s = .next s' ∧ s'.pc = s.pc + 4#64 ∧
          (s'.sctlr2maskEL2 = storedFrom s t ∨ s'.sctlr2maskEL2 = s.sctlr2maskEL2)
      else
        RefusedByEL2Lock (msrBy n t) s ∧
          (s.cfg.onEvent = .stop → exec (msrBy n t) s = .fault (.undefined .lockEL2 s.pc ⟨.write, n, t⟩))) ∧
    (s.pstate.el = .el3 →
      ∃ s', exec (.msrSctlr2maskEl2 t) s = .next s' ∧ s'.pc = s.pc + 4#64 ∧
        (s'.sctlr2maskEL2 = storedFrom s t ∨ s'.sctlr2maskEL2 = s.sctlr2maskEL2))

/-- 20_memory.md rule R46, second item, 70_reset_and_hazards.md rule R114, for a read whose result has been
written elsewhere: in host mode at EL2 with E2H 1, from an empty window, `MRS X[u], SCTLR2MASK_EL1`; out of host
mode, with E2H still 1, `MSR SCTLR2MASK_EL1, X[u]` puts the result in SCTLR2MASK_EL1; then `MSR SCTLR2MASK_EL2,
X[t]`, with no synchronization. All complete. In the order in which that write comes before the read, `X[u]` and
SCTLR2MASK_EL1 have the value written, and otherwise the value from before. Decision D14 (log 7). -/
def Obligations.AStoredReadStaysOpen : Prop :=
  ∀ (t u : RegNum) (s : State), InHost s → s.env.e2hEffective = 1#1 → s.pc.toNat + 12 < 2 ^ 64 →
    t ≠ u → u ≠ 31#5 → s.window.order = [] → effMaskEL2 s = 0#64 →
    ∃ s₁ s₂ s₃ s₄, exec (.mrsSctlr2maskEl1 u) s = .next s₁ ∧
      applyInput (.env .el2 { s.env with inHostEL2 := false }) s₁ = .next s₂ ∧
      exec (.msrSctlr2maskEl1 u) s₂ = .next s₃ ∧ s₃.sctlr2maskEL1 = s.sctlr2maskEL2 ∧
      exec (.msrSctlr2maskEl2 t) s₃ = .next s₄ ∧ s₄.sctlr2maskEL2 = storedFrom s t ∧
      (if Config.freeNat s.draws % 3 = 2 ∧ Config.freeNat (s.draws + 1) % 3 = 2 then
        readX s₄ u = storedFrom s t ∧ s₄.sctlr2maskEL1 = storedFrom s t
      else readX s₄ u = s.sctlr2maskEL2 ∧ s₄.sctlr2maskEL1 = s.sctlr2maskEL2)

/-- 20_memory.md rules R41, R42, R46, second item, and R47, for a read whose result has been written to memory: in
host mode at EL2, from an empty window, `MRS X[u]` by one name; at EL1 with `nvx = '111'` `MSR SCTLR2MASK_EL1,
X[u]` writes it to `NVMem[0x328]`; back at EL2 `MSR X[t]` by the other name. All complete. If the last is by the
EL2 name, then in the order in which it comes before the read, `X[u]`, the cell and the write of the cell that its
history records have the value written; in the others, and if it is by the EL1 name, which follows the write of
the cell and so the read, the value from before. Decisions D13, D14 (logs 7, 25), D11 (log 16). -/
def Obligations.AReadStoredInMemoryStaysOpen : Prop :=
  ∀ (n m : RegName) (t u : RegNum) (s : State), n ≠ m → InHost s → s.pc.toNat + 12 < 2 ^ 64 →
    t ≠ u → u ≠ 31#5 → s.window.order = [] → effMaskEL2 s = 0#64 →
    El2Allows s.env.hfgwtr2_nSCTLR2MASK_EL1 s → nvCheck s = none →
    ∃ s₁ s₂ s₃ s₄ s₅, exec (mrsBy n u) s = .next s₁ ∧
      applyInput (.env .el1 { s.env with nvx := 0b111#3 }) s₁ = .next s₂ ∧
      exec (.msrSctlr2maskEl1 u) s₂ = .next s₃ ∧ applyInput (.env .el2 s.env) s₃ = .next s₄ ∧
      exec (msrBy m t) s₄ = .next s₅ ∧ s₅.sctlr2maskEL2 = storedFrom s t ∧
      ∃ v, v = (if m = .sctlr2maskEL2 ∧ Config.freeNat s.draws % 3 = 2 ∧
            Config.freeNat (s.draws + 1) % 3 = 2
          then storedFrom s t else s.sctlr2maskEL2) ∧
        readX s₅ u = v ∧ CellHolds v s s₅ ∧
        s₅.nvEvents = s.nvEvents ++ [.memWrite (s.env.nvBase.toNat + 0x328) v]

/-- 20_memory.md rule R47 (decision D13, log 25): two accesses by the EL1 name take effect in program order also
where the first reaches another location. In host mode at EL2, from an empty window, `MRS X[u], SCTLR2MASK_EL2`;
out of host mode `MSR SCTLR2MASK_EL1, X[u]` puts the result in SCTLR2MASK_EL1; in host mode again `MSR
SCTLR2MASK_EL1, X[t]` writes SCTLR2MASK_EL2. All complete, and the last does not come before the read, whose
result the access before it by the same name has used: `X[u]` and SCTLR2MASK_EL1 keep the value from before. -/
def Obligations.TheEL1NameKeepsItsOrderElsewhere : Prop :=
  ∀ (t u : RegNum) (s : State), InHost s → s.pc.toNat + 12 < 2 ^ 64 →
    t ≠ u → u ≠ 31#5 → s.window.order = [] → effMaskEL2 s = 0#64 →
    ∃ s₁ s₂ s₃ s₄ s₅, exec (.mrsSctlr2maskEl2 u) s = .next s₁ ∧
      applyInput (.env .el2 { s.env with inHostEL2 := false }) s₁ = .next s₂ ∧
      exec (.msrSctlr2maskEl1 u) s₂ = .next s₃ ∧ applyInput (.env .el2 s.env) s₃ = .next s₄ ∧
      exec (.msrSctlr2maskEl1 t) s₄ = .next s₅ ∧ s₅.sctlr2maskEL2 = storedFrom s t ∧
      readX s₅ u = s.sctlr2maskEL2 ∧ s₅.sctlr2maskEL1 = s.sctlr2maskEL2

/-- 20_memory.md rule R47 (decision D13, log 25): two reads by the EL1 name take effect in program order also where
the second reaches another location, and an MSR comes after the read of its operand, of whatever location (log
7). In host mode at EL2, from an empty window, `MRS X[u], SCTLR2MASK_EL1`; out of host mode `MRS X[t],
SCTLR2MASK_EL1` reads SCTLR2MASK_EL1, and `MSR SCTLR2MASK_EL2, X[t]` writes that to SCTLR2MASK_EL2. All complete,
and the write does not come before the first read: `X[u]` has the value from before. -/
def Obligations.AnOperandReadElsewhereKeepsItsOrder : Prop :=
  ∀ (t u : RegNum) (s : State), InHost s → s.pc.toNat + 12 < 2 ^ 64 →
    t ≠ u → t ≠ 31#5 → u ≠ 31#5 → s.window.order = [] → effMaskEL2 s = 0#64 →
    ∃ s₁ s₂ s₃ s₄, exec (.mrsSctlr2maskEl1 u) s = .next s₁ ∧
      applyInput (.env .el2 { s.env with inHostEL2 := false }) s₁ = .next s₂ ∧
      exec (.mrsSctlr2maskEl1 t) s₂ = .next s₃ ∧ readX s₃ t = s.sctlr2maskEL1 ∧
      exec (.msrSctlr2maskEl2 t) s₃ = .next s₄ ∧
      s₄.sctlr2maskEL2 = s.sctlr2maskEL1 &&& (implMask s.cfg ||| s.cfg.res0Stored) ∧
      readX s₄ u = s.sctlr2maskEL2

/-- 20_memory.md rules R46 and R47, 70_reset_and_hazards.md rule R114: an access at EL3, to which the ordering rule
does not apply, is no synchronization. In host mode at EL2, from an empty window, `MSR SCTLR2MASK_EL1, X[t]`; at
EL3 `MRS X[w], SCTLR2MASK_EL2`; back at EL2 `MRS X[u], SCTLR2MASK_EL2`. The last may still miss the write, but not
where the read before it by the same name saw it (rule R47). Decisions D13, D14; that the read at EL3 may miss it
too is the model's choice (log 7). -/
def Obligations.AnAccessAtEL3LeavesTheOrderOpen : Prop :=
  ∀ (t u w : RegNum) (s : State), InHost s → s.pc.toNat + 12 < 2 ^ 64 →
    s.window.order = [] → effMaskEL2 s = 0#64 →
    ∃ s₁ s₂ s₃ s₄ s₅, exec (.msrSctlr2maskEl1 t) s = .next s₁ ∧
      applyInput (.env .el3 s.env) s₁ = .next s₂ ∧ exec (.mrsSctlr2maskEl2 w) s₂ = .next s₃ ∧
      applyInput (.env .el2 s.env) s₃ = .next s₄ ∧ exec (.mrsSctlr2maskEl2 u) s₄ = .next s₅ ∧
      s₅.sctlr2maskEL2 = storedFrom s t ∧
      readX s₃ w = (if w = 31#5 then 0#64
        else if Config.freeNat s₁.draws % 3 = 0 then storedFrom s t else s.sctlr2maskEL2) ∧
      readX s₅ u = (if u = 31#5 then 0#64
        else if Config.freeNat s₁.draws % 3 = 0 ∨
            Config.freeNat (s₁.draws + 1) % (Config.freeNat s₁.draws % 3 + 1) = 0
          then storedFrom s t else s.sctlr2maskEL2)

/-- 20_memory.md rule R47: the lock test of an MSR that is refused is an access by its name like any other, with
or without the ordering rule. In host mode at EL2, from an empty window, `MSR SCTLR2MASK_EL1, X[t]` of a value
that locks; out of host mode with E2H 0 `MSR SCTLR2MASK_EL2, X[w]` is refused where its lock test sees that
value, and its exception taken to EL2 with the instruction's address saved (rules R90 and R102, where rule R95
has a terminal verdict: logs 3, 6); in host mode again `MRS X[u], SCTLR2MASK_EL2` then reads no older one.
Decision D13 (log 25); that the test may see the value from before is the model's choice (log 7). -/
def Obligations.ARefusedLockTestKeepsItsPlace : Prop :=
  ∀ (t u w : RegNum) (s : State), InHost s → s.cfg.onEvent = .enter → s.pc.toNat + 8 < 2 ^ 64 →
    s.window.order = [] → effMaskEL2 s = 0#64 → effectiveEL2 s.cfg s.env (storedFrom s t) ≠ 0#64 →
    ∃ s₁ s₂ s₃, exec (.msrSctlr2maskEl1 t) s = .next s₁ ∧
      applyInput (.env .el2 { s.env with inHostEL2 := false, e2hEffective := 0#1 }) s₁ = .next s₂ ∧
      exec (.msrSctlr2maskEl2 w) s₂ = .next s₃ ∧
      (Config.freeNat s₁.draws % 3 = 0 →
        s₃.sctlr2maskEL2 = storedFrom s t ∧ s₃.excEL2.elr = s₂.pc ∧
        (s₃.pc.toNat + 4 < 2 ^ 64 →
          ∃ s₄ s₅, applyInput (.env .el2 s.env) s₃ = .next s₄ ∧
            exec (.mrsSctlr2maskEl2 u) s₄ = .next s₅ ∧
            readX s₅ u = if u = 31#5 then 0#64 else storedFrom s t)) ∧
      (Config.freeNat s₁.draws % 3 ≠ 0 → s₃.pc = s₂.pc + 4#64 ∧ s₃.excEL2 = s.excEL2)

/-- 42_mask_effect.md rule R84 and 70_reset_and_hazards.md rule R115 (vector O8): a write of SCTLR2_EL2
right after an MSR of the mask, by either name that reaches it, is bound by the mask before it or after it, as
drawn, and after a synchronization by the new one. Decision D18 (log 15). -/
def Obligations.NewMaskBindsAfterSynchronization : Prop :=
  ∀ (n : RegName) (t : RegNum) (v : Word) (s : State),
    Runs s → s.pstate.el = .el2 → El3Allows s → (n = .sctlr2maskEL1 → s.env.inHostEL2 = true) →
    s.env.el2Enabled = true → s.window.order = [] → effMaskEL2 s = 0#64 → s.maskHist = [] →
    ∃ s₁, exec (msrBy n t) s = .next s₁ ∧ s₁.sctlr2maskEL2 = storedFrom s t ∧
      (∃ s₂, applyInput (.writeSctlr2EL2 v) s₁ = .next s₂ ∧
        s₂.sctlr2EL2 = s.sctlr2EL2.maskedWrite (Sctlr2.ofImage v)
          (if Config.freeNat s₁.draws % 3 = 2 then effMaskEL2 s else effMaskEL2 s₁)) ∧
      (∃ s₂ s₃, applyInput .sync s₁ = .next s₂ ∧ applyInput (.writeSctlr2EL2 v) s₂ = .next s₃ ∧
        s₃.sctlr2EL2 = s.sctlr2EL2.maskedWrite (Sctlr2.ofImage v) (effMaskEL2 s₁))

/-! The operand. -/

/-- 10_state.md rule R35 (decision D9): register 31 reads as 64 zero bits and discards writes; writing
`X[t]` changes no other register. The zero register is general knowledge to the spec (log 9). -/
def Obligations.GeneralRegistersAndTheZeroRegister : Prop :=
  ∀ (s : State) (t u : RegNum) (v : Word),
    readX s 31#5 = 0#64 ∧ writeX s 31#5 v = s ∧
    (t ≠ 31#5 → readX (writeX s t v) t = v) ∧ (u ≠ t → readX (writeX s t v) u = readX s u)
end

