-- ==== Sys2Proof/Laws/Decode.lean ====
section
/-! SUPPORT. The decoder and the encoder: the bytes of a word, the fields of a word. -/

namespace Sys2Proof.Laws

/-- Every instruction is one of the four accessors of rule R54: its operand has no illegal value (R35). -/
theorem instr_wellFormed (i : Instr) : i.WellFormed = true := by
  cases i <;> rfl

/-- The bytes of a word put together are the word (rule R55). -/
theorem wordOfBytes_bytesOfWord (w : BitVec 32) :
    wordOfBytes (w.extractLsb' 0 8) (w.extractLsb' 8 8) (w.extractLsb' 16 8) (w.extractLsb' 24 8) = w := by
  apply BitVec.eq_of_getLsbD_eq
  intro i hi
  simp only [wordOfBytes, BitVec.getLsbD_append, BitVec.getLsbD_extractLsb']
  split_ifs <;> (rw [decide_eq_true (by omega), Bool.true_and]; congr 1; omega)

/-- The decoder reads the first word of some bytes. -/
theorem decode_bytesOfWord (w : BitVec 32) (rest : List Byte) :
    decode (bytesOfWord w ++ rest) =
      match decodeWord w with
      | .ok i => .ok (i, rest)
      | .error r => .error r := by
  cases h : decodeWord w <;> simp [bytesOfWord, decode, wordOfBytes_bytesOfWord, h]

end Sys2Proof.Laws
end

