-- ==== Sys2Proof/Laws/Memory.lean ====
section
/-! SUPPORT. Memory: a read after a write, what a write leaves alone, and that every memory operation keeps the
canonical form. -/

namespace Sys2Proof.Machine

theorem memGet_of_memAbove {m : Memory} {a b : Nat} (h : memAbove b m = true) (hab : a ≤ b) :
    memGet m a = none := by
  induction m with
  | nil => rfl
  | cons c rest ih =>
    obtain ⟨k, v⟩ := c
    simp only [memAbove, Bool.and_eq_true, decide_eq_true_eq] at h
    have : k ≠ a := by omega
    simp [memGet, this, ih h.2]

theorem memGet_memSet_self (m : Memory) (a : Nat) (v : Byte) : memGet (memSet m a v) a = some v := by
  induction m with
  | nil => simp [memSet, memGet]
  | cons c rest ih =>
    obtain ⟨k, w⟩ := c
    simp only [memSet]
    split
    · simp [memGet]
    · split
      · simp [memGet]
      · have : k ≠ a := fun h => by omega
        simp [memGet, this, ih]

theorem memGet_memSet_ne {m : Memory} {a b : Nat} (v : Byte) (h : a ≠ b) :
    memGet (memSet m a v) b = memGet m b := by
  induction m with
  | nil => simp [memSet, memGet, h]
  | cons c rest ih =>
    obtain ⟨k, w⟩ := c
    simp only [memSet]
    split
    · simp [memGet, h]
    · split
      · next heq => subst heq; simp [memGet, h]
      · simp [memGet, ih]

theorem memAbove_memSet {m : Memory} {a b : Nat} (v : Byte) (hm : memAbove b m = true) (h : b < a) :
    memAbove b (memSet m a v) = true := by
  induction m with
  | nil => simp [memSet, memAbove, h]
  | cons c rest ih =>
    obtain ⟨k, w⟩ := c
    simp only [memAbove, Bool.and_eq_true, decide_eq_true_eq] at hm
    simp only [memSet]
    split
    · simp [memAbove, hm, h]
    · split
      · simp [memAbove, hm, h]
      · simp [memAbove, hm, ih hm.2]

theorem memAbove_trans {m : Memory} {a b : Nat} (h : memAbove b m = true) (hab : a ≤ b) :
    memAbove a m = true := by
  induction m with
  | nil => rfl
  | cons c rest ih =>
    obtain ⟨k, w⟩ := c
    simp only [memAbove, Bool.and_eq_true, decide_eq_true_eq] at h ⊢
    exact ⟨by omega, ih h.2⟩

/-- Writing one byte below 2^64 keeps the canonical form. -/
theorem memWf_memSet {m : Memory} {a : Nat} (v : Byte) (hm : memWf m = true) (ha : a < 2 ^ 64) :
    memWf (memSet m a v) = true := by
  induction m with
  | nil => simp only [memSet, memWf, memAbove, Bool.and_eq_true, decide_eq_true_eq]; exact ⟨⟨trivial, ha⟩, trivial⟩
  | cons c rest ih =>
    obtain ⟨k, w⟩ := c
    simp only [memWf, Bool.and_eq_true, decide_eq_true_eq] at hm
    obtain ⟨⟨hk, hk64⟩, hr⟩ := hm
    simp only [memSet]
    split
    · next h =>
      simp only [memWf, memAbove, Bool.and_eq_true, decide_eq_true_eq]
      exact ⟨⟨⟨h, memAbove_trans hk (by omega)⟩, ha⟩, ⟨hk, hk64⟩, hr⟩
    · split
      · next heq =>
        subst heq
        simp only [memWf, Bool.and_eq_true, decide_eq_true_eq]
        exact ⟨⟨hk, hk64⟩, hr⟩
      · simp only [memWf, Bool.and_eq_true, decide_eq_true_eq]
        exact ⟨⟨memAbove_memSet v hk (by omega), hk64⟩, ih hr⟩

/-- Writing some bytes below 2^64 keeps the canonical form. -/
theorem memWf_memWriteBytes {bs : List Byte} {m : Memory} {a : Nat} (hm : memWf m = true)
    (ha : a + bs.length ≤ 2 ^ 64) : memWf (memWriteBytes m a bs) = true := by
  induction bs generalizing m a with
  | nil => exact hm
  | cons b bs ih =>
    simp only [List.length_cons] at ha
    exact ih (memWf_memSet b hm (by omega)) (by omega)

/-- The eight-byte write keeps the canonical form. -/
theorem memWf_memWrite8 {m : Memory} {a : Nat} (be : Bool) (v : Word) (hm : memWf m = true)
    (ha : a + 8 ≤ 2 ^ 64) : memWf (memWrite8 be m a v) = true :=
  memWf_memWriteBytes hm (by simpa using ha)

/-- The memory of some bytes is in the canonical form. -/
theorem memWf_memOf (cells : List Host.Cell) : memWf (memOf cells) = true := by
  suffices h : ∀ m, memWf m = true →
      memWf (cells.foldl (fun m c => if c.1 < 2 ^ 64 then memSet m c.1 c.2 else m) m) = true from h [] rfl
  induction cells with
  | nil => exact fun m h => h
  | cons c rest ih =>
    intro m h
    refine ih _ ?_
    dsimp only
    split
    · next hc => exact memWf_memSet c.2 h hc
    · exact h

/-- Writing some bytes leaves every other address alone. -/
theorem memGet_memWriteBytes_outside {bs : List Byte} {m : Memory} {a b : Nat}
    (h : b < a ∨ a + bs.length ≤ b) : memGet (memWriteBytes m a bs) b = memGet m b := by
  induction bs generalizing m a with
  | nil => rfl
  | cons c cs ih =>
    simp only [List.length_cons] at h
    simp only [memWriteBytes]
    rw [ih (by omega), memGet_memSet_ne c (by omega)]

/-- A byte written is the byte read. -/
theorem memGet_memWriteBytes_inside {bs : List Byte} {m : Memory} {a i : Nat} (h : i < bs.length) :
    memGet (memWriteBytes m a bs) (a + i) = some bs[i] := by
  induction bs generalizing m a i with
  | nil => simp at h
  | cons c cs ih =>
    simp only [memWriteBytes]
    cases i with
    | zero =>
      rw [memGet_memWriteBytes_outside (by omega)]
      simp [memGet_memSet_self]
    | succ j =>
      have hj : j < cs.length := by simpa using h
      have := ih (m := memSet m a c) (a := a + 1) hj
      simpa [Nat.add_assoc, Nat.add_comm 1 j] using this

/-- The eight-byte write leaves every byte outside the cell alone. -/
theorem memGet_memWrite8_outside {m : Memory} {a b : Nat} (be : Bool) (v : Word)
    (h : b < a ∨ a + 8 ≤ b) : memGet (memWrite8 be m a v) b = memGet m b :=
  memGet_memWriteBytes_outside (by simpa using h)

/-- Byte `i` of the cell after the eight-byte write (rule R43). -/
theorem memGet_memWrite8_inside {m : Memory} {a i : Nat} (be : Bool) (v : Word) (h : i < 8) :
    memGet (memWrite8 be m a v) (a + i) = some (byteOf v (byteIndex be i)) := by
  unfold memWrite8
  rw [memGet_memWriteBytes_inside (by simpa using h)]
  simp

theorem byteIndex_lt {be : Bool} {i : Nat} (h : i < 8) : byteIndex be i < 8 := by
  unfold byteIndex; split <;> omega

theorem byteIndex_byteIndex {be : Bool} {i : Nat} (h : i < 8) : byteIndex be (byteIndex be i) = i := by
  unfold byteIndex; split <;> omega

/-- The bytes of a value put together are the value. -/
theorem wordOf_byteOf (v : Word) : wordOf (byteOf v) = v := by
  simp only [wordOf, byteOf]
  ext i hi
  simp only [BitVec.getElem_append, BitVec.getElem_extractLsb']
  simp only [← BitVec.getLsbD_eq_getElem]
  split_ifs <;> congr 1 <;> omega

/-- A read of the cell after a write of it gives the value written, in either byte order (rules R40, R43). -/
theorem memRead8_memWrite8 (be : Bool) (m : Memory) (a : Nat) (v free : Word) :
    memRead8 be (memWrite8 be m a v) a free = v := by
  have h : ∀ i, i < 8 →
      (memGet (memWrite8 be m a v) (a + byteIndex be i)).getD (byteOf free i) = byteOf v i := by
    intro i hi
    rw [memGet_memWrite8_inside be v (byteIndex_lt hi), byteIndex_byteIndex hi]
    rfl
  have : memRead8 be (memWrite8 be m a v) a free = wordOf (byteOf v) := by
    simp only [memRead8, wordOf]
    rw [h 0 (by decide), h 1 (by decide), h 2 (by decide), h 3 (by decide), h 4 (by decide),
      h 5 (by decide), h 6 (by decide), h 7 (by decide)]
  rw [this, wordOf_byteOf]

/-- An admitted cell lies below 2^64. -/
theorem nvAddr_fits {s : State} (h : nvCheck s = none) : nvAddr s + 8 ≤ 2 ^ 64 := by
  simp only [nvCheck] at h
  split_ifs at h with h1 h2
  omega

end Sys2Proof.Machine
end

