-- ==== Sys2Proof/Laws/State.lean ====
section
/-! SUPPORT. Beside State: one lemma per field per update, true by rfl, so that no proof unfolds a record
update. The updates are the `State.set…` of Sys2Proof/Machine/State.lean. -/

namespace Sys2Proof.Machine

variable (s : State)

@[simp] theorem State.setPc_cfg (v : Word) : (s.setPc v).cfg = s.cfg := rfl
@[simp] theorem State.setPc_env (v : Word) : (s.setPc v).env = s.env := rfl
@[simp] theorem State.setPc_pstate (v : Word) : (s.setPc v).pstate = s.pstate := rfl
@[simp] theorem State.setPc_x (v : Word) : (s.setPc v).x = s.x := rfl
@[simp] theorem State.setPc_pc (v : Word) : (s.setPc v).pc = v := rfl
@[simp] theorem State.setPc_sctlr2maskEL2 (v : Word) : (s.setPc v).sctlr2maskEL2 = s.sctlr2maskEL2 := rfl
@[simp] theorem State.setPc_sctlr2maskEL1 (v : Word) : (s.setPc v).sctlr2maskEL1 = s.sctlr2maskEL1 := rfl
@[simp] theorem State.setPc_sctlr2EL2 (v : Word) : (s.setPc v).sctlr2EL2 = s.sctlr2EL2 := rfl
@[simp] theorem State.setPc_excEL1 (v : Word) : (s.setPc v).excEL1 = s.excEL1 := rfl
@[simp] theorem State.setPc_excEL2 (v : Word) : (s.setPc v).excEL2 = s.excEL2 := rfl
@[simp] theorem State.setPc_excEL3 (v : Word) : (s.setPc v).excEL3 = s.excEL3 := rfl
@[simp] theorem State.setPc_mem (v : Word) : (s.setPc v).mem = s.mem := rfl
@[simp] theorem State.setPc_regions (v : Word) : (s.setPc v).regions = s.regions := rfl
@[simp] theorem State.setPc_text (v : Word) : (s.setPc v).text = s.text := rfl
@[simp] theorem State.setPc_window (v : Word) : (s.setPc v).window = s.window := rfl
@[simp] theorem State.setPc_maskHist (v : Word) : (s.setPc v).maskHist = s.maskHist := rfl
@[simp] theorem State.setPc_nvEvents (v : Word) : (s.setPc v).nvEvents = s.nvEvents := rfl
@[simp] theorem State.setPc_draws (v : Word) : (s.setPc v).draws = s.draws := rfl
@[simp] theorem State.setPc_inputs (v : Word) : (s.setPc v).inputs = s.inputs := rfl

@[simp] theorem State.setX_cfg (v : Vector Word 31) : (s.setX v).cfg = s.cfg := rfl
@[simp] theorem State.setX_env (v : Vector Word 31) : (s.setX v).env = s.env := rfl
@[simp] theorem State.setX_pstate (v : Vector Word 31) : (s.setX v).pstate = s.pstate := rfl
@[simp] theorem State.setX_x (v : Vector Word 31) : (s.setX v).x = v := rfl
@[simp] theorem State.setX_pc (v : Vector Word 31) : (s.setX v).pc = s.pc := rfl
@[simp] theorem State.setX_sctlr2maskEL2 (v : Vector Word 31) : (s.setX v).sctlr2maskEL2 = s.sctlr2maskEL2 := rfl
@[simp] theorem State.setX_sctlr2maskEL1 (v : Vector Word 31) : (s.setX v).sctlr2maskEL1 = s.sctlr2maskEL1 := rfl
@[simp] theorem State.setX_sctlr2EL2 (v : Vector Word 31) : (s.setX v).sctlr2EL2 = s.sctlr2EL2 := rfl
@[simp] theorem State.setX_excEL1 (v : Vector Word 31) : (s.setX v).excEL1 = s.excEL1 := rfl
@[simp] theorem State.setX_excEL2 (v : Vector Word 31) : (s.setX v).excEL2 = s.excEL2 := rfl
@[simp] theorem State.setX_excEL3 (v : Vector Word 31) : (s.setX v).excEL3 = s.excEL3 := rfl
@[simp] theorem State.setX_mem (v : Vector Word 31) : (s.setX v).mem = s.mem := rfl
@[simp] theorem State.setX_regions (v : Vector Word 31) : (s.setX v).regions = s.regions := rfl
@[simp] theorem State.setX_text (v : Vector Word 31) : (s.setX v).text = s.text := rfl
@[simp] theorem State.setX_window (v : Vector Word 31) : (s.setX v).window = s.window := rfl
@[simp] theorem State.setX_maskHist (v : Vector Word 31) : (s.setX v).maskHist = s.maskHist := rfl
@[simp] theorem State.setX_nvEvents (v : Vector Word 31) : (s.setX v).nvEvents = s.nvEvents := rfl
@[simp] theorem State.setX_draws (v : Vector Word 31) : (s.setX v).draws = s.draws := rfl
@[simp] theorem State.setX_inputs (v : Vector Word 31) : (s.setX v).inputs = s.inputs := rfl

@[simp] theorem State.setPState_cfg (v : PState) : (s.setPState v).cfg = s.cfg := rfl
@[simp] theorem State.setPState_env (v : PState) : (s.setPState v).env = s.env := rfl
@[simp] theorem State.setPState_pstate (v : PState) : (s.setPState v).pstate = v := rfl
@[simp] theorem State.setPState_x (v : PState) : (s.setPState v).x = s.x := rfl
@[simp] theorem State.setPState_pc (v : PState) : (s.setPState v).pc = s.pc := rfl
@[simp] theorem State.setPState_sctlr2maskEL2 (v : PState) : (s.setPState v).sctlr2maskEL2 = s.sctlr2maskEL2 := rfl
@[simp] theorem State.setPState_sctlr2maskEL1 (v : PState) : (s.setPState v).sctlr2maskEL1 = s.sctlr2maskEL1 := rfl
@[simp] theorem State.setPState_sctlr2EL2 (v : PState) : (s.setPState v).sctlr2EL2 = s.sctlr2EL2 := rfl
@[simp] theorem State.setPState_excEL1 (v : PState) : (s.setPState v).excEL1 = s.excEL1 := rfl
@[simp] theorem State.setPState_excEL2 (v : PState) : (s.setPState v).excEL2 = s.excEL2 := rfl
@[simp] theorem State.setPState_excEL3 (v : PState) : (s.setPState v).excEL3 = s.excEL3 := rfl
@[simp] theorem State.setPState_mem (v : PState) : (s.setPState v).mem = s.mem := rfl
@[simp] theorem State.setPState_regions (v : PState) : (s.setPState v).regions = s.regions := rfl
@[simp] theorem State.setPState_text (v : PState) : (s.setPState v).text = s.text := rfl
@[simp] theorem State.setPState_window (v : PState) : (s.setPState v).window = s.window := rfl
@[simp] theorem State.setPState_maskHist (v : PState) : (s.setPState v).maskHist = s.maskHist := rfl
@[simp] theorem State.setPState_nvEvents (v : PState) : (s.setPState v).nvEvents = s.nvEvents := rfl
@[simp] theorem State.setPState_draws (v : PState) : (s.setPState v).draws = s.draws := rfl
@[simp] theorem State.setPState_inputs (v : PState) : (s.setPState v).inputs = s.inputs := rfl

@[simp] theorem State.setEnv_cfg (v : Env) : (s.setEnv v).cfg = s.cfg := rfl
@[simp] theorem State.setEnv_env (v : Env) : (s.setEnv v).env = v := rfl
@[simp] theorem State.setEnv_pstate (v : Env) : (s.setEnv v).pstate = s.pstate := rfl
@[simp] theorem State.setEnv_x (v : Env) : (s.setEnv v).x = s.x := rfl
@[simp] theorem State.setEnv_pc (v : Env) : (s.setEnv v).pc = s.pc := rfl
@[simp] theorem State.setEnv_sctlr2maskEL2 (v : Env) : (s.setEnv v).sctlr2maskEL2 = s.sctlr2maskEL2 := rfl
@[simp] theorem State.setEnv_sctlr2maskEL1 (v : Env) : (s.setEnv v).sctlr2maskEL1 = s.sctlr2maskEL1 := rfl
@[simp] theorem State.setEnv_sctlr2EL2 (v : Env) : (s.setEnv v).sctlr2EL2 = s.sctlr2EL2 := rfl
@[simp] theorem State.setEnv_excEL1 (v : Env) : (s.setEnv v).excEL1 = s.excEL1 := rfl
@[simp] theorem State.setEnv_excEL2 (v : Env) : (s.setEnv v).excEL2 = s.excEL2 := rfl
@[simp] theorem State.setEnv_excEL3 (v : Env) : (s.setEnv v).excEL3 = s.excEL3 := rfl
@[simp] theorem State.setEnv_mem (v : Env) : (s.setEnv v).mem = s.mem := rfl
@[simp] theorem State.setEnv_regions (v : Env) : (s.setEnv v).regions = s.regions := rfl
@[simp] theorem State.setEnv_text (v : Env) : (s.setEnv v).text = s.text := rfl
@[simp] theorem State.setEnv_window (v : Env) : (s.setEnv v).window = s.window := rfl
@[simp] theorem State.setEnv_maskHist (v : Env) : (s.setEnv v).maskHist = s.maskHist := rfl
@[simp] theorem State.setEnv_nvEvents (v : Env) : (s.setEnv v).nvEvents = s.nvEvents := rfl
@[simp] theorem State.setEnv_draws (v : Env) : (s.setEnv v).draws = s.draws := rfl
@[simp] theorem State.setEnv_inputs (v : Env) : (s.setEnv v).inputs = s.inputs := rfl

@[simp] theorem State.setMaskEL2_cfg (v : Word) : (s.setMaskEL2 v).cfg = s.cfg := rfl
@[simp] theorem State.setMaskEL2_env (v : Word) : (s.setMaskEL2 v).env = s.env := rfl
@[simp] theorem State.setMaskEL2_pstate (v : Word) : (s.setMaskEL2 v).pstate = s.pstate := rfl
@[simp] theorem State.setMaskEL2_x (v : Word) : (s.setMaskEL2 v).x = s.x := rfl
@[simp] theorem State.setMaskEL2_pc (v : Word) : (s.setMaskEL2 v).pc = s.pc := rfl
@[simp] theorem State.setMaskEL2_sctlr2maskEL2 (v : Word) : (s.setMaskEL2 v).sctlr2maskEL2 = v := rfl
@[simp] theorem State.setMaskEL2_sctlr2maskEL1 (v : Word) : (s.setMaskEL2 v).sctlr2maskEL1 = s.sctlr2maskEL1 := rfl
@[simp] theorem State.setMaskEL2_sctlr2EL2 (v : Word) : (s.setMaskEL2 v).sctlr2EL2 = s.sctlr2EL2 := rfl
@[simp] theorem State.setMaskEL2_excEL1 (v : Word) : (s.setMaskEL2 v).excEL1 = s.excEL1 := rfl
@[simp] theorem State.setMaskEL2_excEL2 (v : Word) : (s.setMaskEL2 v).excEL2 = s.excEL2 := rfl
@[simp] theorem State.setMaskEL2_excEL3 (v : Word) : (s.setMaskEL2 v).excEL3 = s.excEL3 := rfl
@[simp] theorem State.setMaskEL2_mem (v : Word) : (s.setMaskEL2 v).mem = s.mem := rfl
@[simp] theorem State.setMaskEL2_regions (v : Word) : (s.setMaskEL2 v).regions = s.regions := rfl
@[simp] theorem State.setMaskEL2_text (v : Word) : (s.setMaskEL2 v).text = s.text := rfl
@[simp] theorem State.setMaskEL2_window (v : Word) : (s.setMaskEL2 v).window = s.window := rfl
@[simp] theorem State.setMaskEL2_maskHist (v : Word) : (s.setMaskEL2 v).maskHist = s.maskHist := rfl
@[simp] theorem State.setMaskEL2_nvEvents (v : Word) : (s.setMaskEL2 v).nvEvents = s.nvEvents := rfl
@[simp] theorem State.setMaskEL2_draws (v : Word) : (s.setMaskEL2 v).draws = s.draws := rfl
@[simp] theorem State.setMaskEL2_inputs (v : Word) : (s.setMaskEL2 v).inputs = s.inputs := rfl

@[simp] theorem State.setMaskEL1_cfg (v : Word) : (s.setMaskEL1 v).cfg = s.cfg := rfl
@[simp] theorem State.setMaskEL1_env (v : Word) : (s.setMaskEL1 v).env = s.env := rfl
@[simp] theorem State.setMaskEL1_pstate (v : Word) : (s.setMaskEL1 v).pstate = s.pstate := rfl
@[simp] theorem State.setMaskEL1_x (v : Word) : (s.setMaskEL1 v).x = s.x := rfl
@[simp] theorem State.setMaskEL1_pc (v : Word) : (s.setMaskEL1 v).pc = s.pc := rfl
@[simp] theorem State.setMaskEL1_sctlr2maskEL2 (v : Word) : (s.setMaskEL1 v).sctlr2maskEL2 = s.sctlr2maskEL2 := rfl
@[simp] theorem State.setMaskEL1_sctlr2maskEL1 (v : Word) : (s.setMaskEL1 v).sctlr2maskEL1 = v := rfl
@[simp] theorem State.setMaskEL1_sctlr2EL2 (v : Word) : (s.setMaskEL1 v).sctlr2EL2 = s.sctlr2EL2 := rfl
@[simp] theorem State.setMaskEL1_excEL1 (v : Word) : (s.setMaskEL1 v).excEL1 = s.excEL1 := rfl
@[simp] theorem State.setMaskEL1_excEL2 (v : Word) : (s.setMaskEL1 v).excEL2 = s.excEL2 := rfl
@[simp] theorem State.setMaskEL1_excEL3 (v : Word) : (s.setMaskEL1 v).excEL3 = s.excEL3 := rfl
@[simp] theorem State.setMaskEL1_mem (v : Word) : (s.setMaskEL1 v).mem = s.mem := rfl
@[simp] theorem State.setMaskEL1_regions (v : Word) : (s.setMaskEL1 v).regions = s.regions := rfl
@[simp] theorem State.setMaskEL1_text (v : Word) : (s.setMaskEL1 v).text = s.text := rfl
@[simp] theorem State.setMaskEL1_window (v : Word) : (s.setMaskEL1 v).window = s.window := rfl
@[simp] theorem State.setMaskEL1_maskHist (v : Word) : (s.setMaskEL1 v).maskHist = s.maskHist := rfl
@[simp] theorem State.setMaskEL1_nvEvents (v : Word) : (s.setMaskEL1 v).nvEvents = s.nvEvents := rfl
@[simp] theorem State.setMaskEL1_draws (v : Word) : (s.setMaskEL1 v).draws = s.draws := rfl
@[simp] theorem State.setMaskEL1_inputs (v : Word) : (s.setMaskEL1 v).inputs = s.inputs := rfl

@[simp] theorem State.setSctlr2_cfg (v : Sctlr2) : (s.setSctlr2 v).cfg = s.cfg := rfl
@[simp] theorem State.setSctlr2_env (v : Sctlr2) : (s.setSctlr2 v).env = s.env := rfl
@[simp] theorem State.setSctlr2_pstate (v : Sctlr2) : (s.setSctlr2 v).pstate = s.pstate := rfl
@[simp] theorem State.setSctlr2_x (v : Sctlr2) : (s.setSctlr2 v).x = s.x := rfl
@[simp] theorem State.setSctlr2_pc (v : Sctlr2) : (s.setSctlr2 v).pc = s.pc := rfl
@[simp] theorem State.setSctlr2_sctlr2maskEL2 (v : Sctlr2) : (s.setSctlr2 v).sctlr2maskEL2 = s.sctlr2maskEL2 := rfl
@[simp] theorem State.setSctlr2_sctlr2maskEL1 (v : Sctlr2) : (s.setSctlr2 v).sctlr2maskEL1 = s.sctlr2maskEL1 := rfl
@[simp] theorem State.setSctlr2_sctlr2EL2 (v : Sctlr2) : (s.setSctlr2 v).sctlr2EL2 = v := rfl
@[simp] theorem State.setSctlr2_excEL1 (v : Sctlr2) : (s.setSctlr2 v).excEL1 = s.excEL1 := rfl
@[simp] theorem State.setSctlr2_excEL2 (v : Sctlr2) : (s.setSctlr2 v).excEL2 = s.excEL2 := rfl
@[simp] theorem State.setSctlr2_excEL3 (v : Sctlr2) : (s.setSctlr2 v).excEL3 = s.excEL3 := rfl
@[simp] theorem State.setSctlr2_mem (v : Sctlr2) : (s.setSctlr2 v).mem = s.mem := rfl
@[simp] theorem State.setSctlr2_regions (v : Sctlr2) : (s.setSctlr2 v).regions = s.regions := rfl
@[simp] theorem State.setSctlr2_text (v : Sctlr2) : (s.setSctlr2 v).text = s.text := rfl
@[simp] theorem State.setSctlr2_window (v : Sctlr2) : (s.setSctlr2 v).window = s.window := rfl
@[simp] theorem State.setSctlr2_maskHist (v : Sctlr2) : (s.setSctlr2 v).maskHist = s.maskHist := rfl
@[simp] theorem State.setSctlr2_nvEvents (v : Sctlr2) : (s.setSctlr2 v).nvEvents = s.nvEvents := rfl
@[simp] theorem State.setSctlr2_draws (v : Sctlr2) : (s.setSctlr2 v).draws = s.draws := rfl
@[simp] theorem State.setSctlr2_inputs (v : Sctlr2) : (s.setSctlr2 v).inputs = s.inputs := rfl

@[simp] theorem State.setExcEL1_cfg (v : ExcRegs) : (s.setExcEL1 v).cfg = s.cfg := rfl
@[simp] theorem State.setExcEL1_env (v : ExcRegs) : (s.setExcEL1 v).env = s.env := rfl
@[simp] theorem State.setExcEL1_pstate (v : ExcRegs) : (s.setExcEL1 v).pstate = s.pstate := rfl
@[simp] theorem State.setExcEL1_x (v : ExcRegs) : (s.setExcEL1 v).x = s.x := rfl
@[simp] theorem State.setExcEL1_pc (v : ExcRegs) : (s.setExcEL1 v).pc = s.pc := rfl
@[simp] theorem State.setExcEL1_sctlr2maskEL2 (v : ExcRegs) : (s.setExcEL1 v).sctlr2maskEL2 = s.sctlr2maskEL2 := rfl
@[simp] theorem State.setExcEL1_sctlr2maskEL1 (v : ExcRegs) : (s.setExcEL1 v).sctlr2maskEL1 = s.sctlr2maskEL1 := rfl
@[simp] theorem State.setExcEL1_sctlr2EL2 (v : ExcRegs) : (s.setExcEL1 v).sctlr2EL2 = s.sctlr2EL2 := rfl
@[simp] theorem State.setExcEL1_excEL1 (v : ExcRegs) : (s.setExcEL1 v).excEL1 = v := rfl
@[simp] theorem State.setExcEL1_excEL2 (v : ExcRegs) : (s.setExcEL1 v).excEL2 = s.excEL2 := rfl
@[simp] theorem State.setExcEL1_excEL3 (v : ExcRegs) : (s.setExcEL1 v).excEL3 = s.excEL3 := rfl
@[simp] theorem State.setExcEL1_mem (v : ExcRegs) : (s.setExcEL1 v).mem = s.mem := rfl
@[simp] theorem State.setExcEL1_regions (v : ExcRegs) : (s.setExcEL1 v).regions = s.regions := rfl
@[simp] theorem State.setExcEL1_text (v : ExcRegs) : (s.setExcEL1 v).text = s.text := rfl
@[simp] theorem State.setExcEL1_window (v : ExcRegs) : (s.setExcEL1 v).window = s.window := rfl
@[simp] theorem State.setExcEL1_maskHist (v : ExcRegs) : (s.setExcEL1 v).maskHist = s.maskHist := rfl
@[simp] theorem State.setExcEL1_nvEvents (v : ExcRegs) : (s.setExcEL1 v).nvEvents = s.nvEvents := rfl
@[simp] theorem State.setExcEL1_draws (v : ExcRegs) : (s.setExcEL1 v).draws = s.draws := rfl
@[simp] theorem State.setExcEL1_inputs (v : ExcRegs) : (s.setExcEL1 v).inputs = s.inputs := rfl

@[simp] theorem State.setExcEL2_cfg (v : ExcRegs) : (s.setExcEL2 v).cfg = s.cfg := rfl
@[simp] theorem State.setExcEL2_env (v : ExcRegs) : (s.setExcEL2 v).env = s.env := rfl
@[simp] theorem State.setExcEL2_pstate (v : ExcRegs) : (s.setExcEL2 v).pstate = s.pstate := rfl
@[simp] theorem State.setExcEL2_x (v : ExcRegs) : (s.setExcEL2 v).x = s.x := rfl
@[simp] theorem State.setExcEL2_pc (v : ExcRegs) : (s.setExcEL2 v).pc = s.pc := rfl
@[simp] theorem State.setExcEL2_sctlr2maskEL2 (v : ExcRegs) : (s.setExcEL2 v).sctlr2maskEL2 = s.sctlr2maskEL2 := rfl
@[simp] theorem State.setExcEL2_sctlr2maskEL1 (v : ExcRegs) : (s.setExcEL2 v).sctlr2maskEL1 = s.sctlr2maskEL1 := rfl
@[simp] theorem State.setExcEL2_sctlr2EL2 (v : ExcRegs) : (s.setExcEL2 v).sctlr2EL2 = s.sctlr2EL2 := rfl
@[simp] theorem State.setExcEL2_excEL1 (v : ExcRegs) : (s.setExcEL2 v).excEL1 = s.excEL1 := rfl
@[simp] theorem State.setExcEL2_excEL2 (v : ExcRegs) : (s.setExcEL2 v).excEL2 = v := rfl
@[simp] theorem State.setExcEL2_excEL3 (v : ExcRegs) : (s.setExcEL2 v).excEL3 = s.excEL3 := rfl
@[simp] theorem State.setExcEL2_mem (v : ExcRegs) : (s.setExcEL2 v).mem = s.mem := rfl
@[simp] theorem State.setExcEL2_regions (v : ExcRegs) : (s.setExcEL2 v).regions = s.regions := rfl
@[simp] theorem State.setExcEL2_text (v : ExcRegs) : (s.setExcEL2 v).text = s.text := rfl
@[simp] theorem State.setExcEL2_window (v : ExcRegs) : (s.setExcEL2 v).window = s.window := rfl
@[simp] theorem State.setExcEL2_maskHist (v : ExcRegs) : (s.setExcEL2 v).maskHist = s.maskHist := rfl
@[simp] theorem State.setExcEL2_nvEvents (v : ExcRegs) : (s.setExcEL2 v).nvEvents = s.nvEvents := rfl
@[simp] theorem State.setExcEL2_draws (v : ExcRegs) : (s.setExcEL2 v).draws = s.draws := rfl
@[simp] theorem State.setExcEL2_inputs (v : ExcRegs) : (s.setExcEL2 v).inputs = s.inputs := rfl

@[simp] theorem State.setExcEL3_cfg (v : ExcRegs) : (s.setExcEL3 v).cfg = s.cfg := rfl
@[simp] theorem State.setExcEL3_env (v : ExcRegs) : (s.setExcEL3 v).env = s.env := rfl
@[simp] theorem State.setExcEL3_pstate (v : ExcRegs) : (s.setExcEL3 v).pstate = s.pstate := rfl
@[simp] theorem State.setExcEL3_x (v : ExcRegs) : (s.setExcEL3 v).x = s.x := rfl
@[simp] theorem State.setExcEL3_pc (v : ExcRegs) : (s.setExcEL3 v).pc = s.pc := rfl
@[simp] theorem State.setExcEL3_sctlr2maskEL2 (v : ExcRegs) : (s.setExcEL3 v).sctlr2maskEL2 = s.sctlr2maskEL2 := rfl
@[simp] theorem State.setExcEL3_sctlr2maskEL1 (v : ExcRegs) : (s.setExcEL3 v).sctlr2maskEL1 = s.sctlr2maskEL1 := rfl
@[simp] theorem State.setExcEL3_sctlr2EL2 (v : ExcRegs) : (s.setExcEL3 v).sctlr2EL2 = s.sctlr2EL2 := rfl
@[simp] theorem State.setExcEL3_excEL1 (v : ExcRegs) : (s.setExcEL3 v).excEL1 = s.excEL1 := rfl
@[simp] theorem State.setExcEL3_excEL2 (v : ExcRegs) : (s.setExcEL3 v).excEL2 = s.excEL2 := rfl
@[simp] theorem State.setExcEL3_excEL3 (v : ExcRegs) : (s.setExcEL3 v).excEL3 = v := rfl
@[simp] theorem State.setExcEL3_mem (v : ExcRegs) : (s.setExcEL3 v).mem = s.mem := rfl
@[simp] theorem State.setExcEL3_regions (v : ExcRegs) : (s.setExcEL3 v).regions = s.regions := rfl
@[simp] theorem State.setExcEL3_text (v : ExcRegs) : (s.setExcEL3 v).text = s.text := rfl
@[simp] theorem State.setExcEL3_window (v : ExcRegs) : (s.setExcEL3 v).window = s.window := rfl
@[simp] theorem State.setExcEL3_maskHist (v : ExcRegs) : (s.setExcEL3 v).maskHist = s.maskHist := rfl
@[simp] theorem State.setExcEL3_nvEvents (v : ExcRegs) : (s.setExcEL3 v).nvEvents = s.nvEvents := rfl
@[simp] theorem State.setExcEL3_draws (v : ExcRegs) : (s.setExcEL3 v).draws = s.draws := rfl
@[simp] theorem State.setExcEL3_inputs (v : ExcRegs) : (s.setExcEL3 v).inputs = s.inputs := rfl

@[simp] theorem State.setMem_cfg (v : Memory) : (s.setMem v).cfg = s.cfg := rfl
@[simp] theorem State.setMem_env (v : Memory) : (s.setMem v).env = s.env := rfl
@[simp] theorem State.setMem_pstate (v : Memory) : (s.setMem v).pstate = s.pstate := rfl
@[simp] theorem State.setMem_x (v : Memory) : (s.setMem v).x = s.x := rfl
@[simp] theorem State.setMem_pc (v : Memory) : (s.setMem v).pc = s.pc := rfl
@[simp] theorem State.setMem_sctlr2maskEL2 (v : Memory) : (s.setMem v).sctlr2maskEL2 = s.sctlr2maskEL2 := rfl
@[simp] theorem State.setMem_sctlr2maskEL1 (v : Memory) : (s.setMem v).sctlr2maskEL1 = s.sctlr2maskEL1 := rfl
@[simp] theorem State.setMem_sctlr2EL2 (v : Memory) : (s.setMem v).sctlr2EL2 = s.sctlr2EL2 := rfl
@[simp] theorem State.setMem_excEL1 (v : Memory) : (s.setMem v).excEL1 = s.excEL1 := rfl
@[simp] theorem State.setMem_excEL2 (v : Memory) : (s.setMem v).excEL2 = s.excEL2 := rfl
@[simp] theorem State.setMem_excEL3 (v : Memory) : (s.setMem v).excEL3 = s.excEL3 := rfl
@[simp] theorem State.setMem_mem (v : Memory) : (s.setMem v).mem = v := rfl
@[simp] theorem State.setMem_regions (v : Memory) : (s.setMem v).regions = s.regions := rfl
@[simp] theorem State.setMem_text (v : Memory) : (s.setMem v).text = s.text := rfl
@[simp] theorem State.setMem_window (v : Memory) : (s.setMem v).window = s.window := rfl
@[simp] theorem State.setMem_maskHist (v : Memory) : (s.setMem v).maskHist = s.maskHist := rfl
@[simp] theorem State.setMem_nvEvents (v : Memory) : (s.setMem v).nvEvents = s.nvEvents := rfl
@[simp] theorem State.setMem_draws (v : Memory) : (s.setMem v).draws = s.draws := rfl
@[simp] theorem State.setMem_inputs (v : Memory) : (s.setMem v).inputs = s.inputs := rfl

@[simp] theorem State.setText_cfg (v : Memory) : (s.setText v).cfg = s.cfg := rfl
@[simp] theorem State.setText_env (v : Memory) : (s.setText v).env = s.env := rfl
@[simp] theorem State.setText_pstate (v : Memory) : (s.setText v).pstate = s.pstate := rfl
@[simp] theorem State.setText_x (v : Memory) : (s.setText v).x = s.x := rfl
@[simp] theorem State.setText_pc (v : Memory) : (s.setText v).pc = s.pc := rfl
@[simp] theorem State.setText_sctlr2maskEL2 (v : Memory) : (s.setText v).sctlr2maskEL2 = s.sctlr2maskEL2 := rfl
@[simp] theorem State.setText_sctlr2maskEL1 (v : Memory) : (s.setText v).sctlr2maskEL1 = s.sctlr2maskEL1 := rfl
@[simp] theorem State.setText_sctlr2EL2 (v : Memory) : (s.setText v).sctlr2EL2 = s.sctlr2EL2 := rfl
@[simp] theorem State.setText_excEL1 (v : Memory) : (s.setText v).excEL1 = s.excEL1 := rfl
@[simp] theorem State.setText_excEL2 (v : Memory) : (s.setText v).excEL2 = s.excEL2 := rfl
@[simp] theorem State.setText_excEL3 (v : Memory) : (s.setText v).excEL3 = s.excEL3 := rfl
@[simp] theorem State.setText_mem (v : Memory) : (s.setText v).mem = s.mem := rfl
@[simp] theorem State.setText_regions (v : Memory) : (s.setText v).regions = s.regions := rfl
@[simp] theorem State.setText_text (v : Memory) : (s.setText v).text = v := rfl
@[simp] theorem State.setText_window (v : Memory) : (s.setText v).window = s.window := rfl
@[simp] theorem State.setText_maskHist (v : Memory) : (s.setText v).maskHist = s.maskHist := rfl
@[simp] theorem State.setText_nvEvents (v : Memory) : (s.setText v).nvEvents = s.nvEvents := rfl
@[simp] theorem State.setText_draws (v : Memory) : (s.setText v).draws = s.draws := rfl
@[simp] theorem State.setText_inputs (v : Memory) : (s.setText v).inputs = s.inputs := rfl

@[simp] theorem State.setWindow_cfg (v : Window) : (s.setWindow v).cfg = s.cfg := rfl
@[simp] theorem State.setWindow_env (v : Window) : (s.setWindow v).env = s.env := rfl
@[simp] theorem State.setWindow_pstate (v : Window) : (s.setWindow v).pstate = s.pstate := rfl
@[simp] theorem State.setWindow_x (v : Window) : (s.setWindow v).x = s.x := rfl
@[simp] theorem State.setWindow_pc (v : Window) : (s.setWindow v).pc = s.pc := rfl
@[simp] theorem State.setWindow_sctlr2maskEL2 (v : Window) : (s.setWindow v).sctlr2maskEL2 = s.sctlr2maskEL2 := rfl
@[simp] theorem State.setWindow_sctlr2maskEL1 (v : Window) : (s.setWindow v).sctlr2maskEL1 = s.sctlr2maskEL1 := rfl
@[simp] theorem State.setWindow_sctlr2EL2 (v : Window) : (s.setWindow v).sctlr2EL2 = s.sctlr2EL2 := rfl
@[simp] theorem State.setWindow_excEL1 (v : Window) : (s.setWindow v).excEL1 = s.excEL1 := rfl
@[simp] theorem State.setWindow_excEL2 (v : Window) : (s.setWindow v).excEL2 = s.excEL2 := rfl
@[simp] theorem State.setWindow_excEL3 (v : Window) : (s.setWindow v).excEL3 = s.excEL3 := rfl
@[simp] theorem State.setWindow_mem (v : Window) : (s.setWindow v).mem = s.mem := rfl
@[simp] theorem State.setWindow_regions (v : Window) : (s.setWindow v).regions = s.regions := rfl
@[simp] theorem State.setWindow_text (v : Window) : (s.setWindow v).text = s.text := rfl
@[simp] theorem State.setWindow_window (v : Window) : (s.setWindow v).window = v := rfl
@[simp] theorem State.setWindow_maskHist (v : Window) : (s.setWindow v).maskHist = s.maskHist := rfl
@[simp] theorem State.setWindow_nvEvents (v : Window) : (s.setWindow v).nvEvents = s.nvEvents := rfl
@[simp] theorem State.setWindow_draws (v : Window) : (s.setWindow v).draws = s.draws := rfl
@[simp] theorem State.setWindow_inputs (v : Window) : (s.setWindow v).inputs = s.inputs := rfl

@[simp] theorem State.setMaskHist_cfg (v : List Word) : (s.setMaskHist v).cfg = s.cfg := rfl
@[simp] theorem State.setMaskHist_env (v : List Word) : (s.setMaskHist v).env = s.env := rfl
@[simp] theorem State.setMaskHist_pstate (v : List Word) : (s.setMaskHist v).pstate = s.pstate := rfl
@[simp] theorem State.setMaskHist_x (v : List Word) : (s.setMaskHist v).x = s.x := rfl
@[simp] theorem State.setMaskHist_pc (v : List Word) : (s.setMaskHist v).pc = s.pc := rfl
@[simp] theorem State.setMaskHist_sctlr2maskEL2 (v : List Word) : (s.setMaskHist v).sctlr2maskEL2 = s.sctlr2maskEL2 := rfl
@[simp] theorem State.setMaskHist_sctlr2maskEL1 (v : List Word) : (s.setMaskHist v).sctlr2maskEL1 = s.sctlr2maskEL1 := rfl
@[simp] theorem State.setMaskHist_sctlr2EL2 (v : List Word) : (s.setMaskHist v).sctlr2EL2 = s.sctlr2EL2 := rfl
@[simp] theorem State.setMaskHist_excEL1 (v : List Word) : (s.setMaskHist v).excEL1 = s.excEL1 := rfl
@[simp] theorem State.setMaskHist_excEL2 (v : List Word) : (s.setMaskHist v).excEL2 = s.excEL2 := rfl
@[simp] theorem State.setMaskHist_excEL3 (v : List Word) : (s.setMaskHist v).excEL3 = s.excEL3 := rfl
@[simp] theorem State.setMaskHist_mem (v : List Word) : (s.setMaskHist v).mem = s.mem := rfl
@[simp] theorem State.setMaskHist_regions (v : List Word) : (s.setMaskHist v).regions = s.regions := rfl
@[simp] theorem State.setMaskHist_text (v : List Word) : (s.setMaskHist v).text = s.text := rfl
@[simp] theorem State.setMaskHist_window (v : List Word) : (s.setMaskHist v).window = s.window := rfl
@[simp] theorem State.setMaskHist_maskHist (v : List Word) : (s.setMaskHist v).maskHist = v := rfl
@[simp] theorem State.setMaskHist_nvEvents (v : List Word) : (s.setMaskHist v).nvEvents = s.nvEvents := rfl
@[simp] theorem State.setMaskHist_draws (v : List Word) : (s.setMaskHist v).draws = s.draws := rfl
@[simp] theorem State.setMaskHist_inputs (v : List Word) : (s.setMaskHist v).inputs = s.inputs := rfl

@[simp] theorem State.setNvEvents_cfg (v : List NvEvent) : (s.setNvEvents v).cfg = s.cfg := rfl
@[simp] theorem State.setNvEvents_env (v : List NvEvent) : (s.setNvEvents v).env = s.env := rfl
@[simp] theorem State.setNvEvents_pstate (v : List NvEvent) : (s.setNvEvents v).pstate = s.pstate := rfl
@[simp] theorem State.setNvEvents_x (v : List NvEvent) : (s.setNvEvents v).x = s.x := rfl
@[simp] theorem State.setNvEvents_pc (v : List NvEvent) : (s.setNvEvents v).pc = s.pc := rfl
@[simp] theorem State.setNvEvents_sctlr2maskEL2 (v : List NvEvent) : (s.setNvEvents v).sctlr2maskEL2 = s.sctlr2maskEL2 := rfl
@[simp] theorem State.setNvEvents_sctlr2maskEL1 (v : List NvEvent) : (s.setNvEvents v).sctlr2maskEL1 = s.sctlr2maskEL1 := rfl
@[simp] theorem State.setNvEvents_sctlr2EL2 (v : List NvEvent) : (s.setNvEvents v).sctlr2EL2 = s.sctlr2EL2 := rfl
@[simp] theorem State.setNvEvents_excEL1 (v : List NvEvent) : (s.setNvEvents v).excEL1 = s.excEL1 := rfl
@[simp] theorem State.setNvEvents_excEL2 (v : List NvEvent) : (s.setNvEvents v).excEL2 = s.excEL2 := rfl
@[simp] theorem State.setNvEvents_excEL3 (v : List NvEvent) : (s.setNvEvents v).excEL3 = s.excEL3 := rfl
@[simp] theorem State.setNvEvents_mem (v : List NvEvent) : (s.setNvEvents v).mem = s.mem := rfl
@[simp] theorem State.setNvEvents_regions (v : List NvEvent) : (s.setNvEvents v).regions = s.regions := rfl
@[simp] theorem State.setNvEvents_text (v : List NvEvent) : (s.setNvEvents v).text = s.text := rfl
@[simp] theorem State.setNvEvents_window (v : List NvEvent) : (s.setNvEvents v).window = s.window := rfl
@[simp] theorem State.setNvEvents_maskHist (v : List NvEvent) : (s.setNvEvents v).maskHist = s.maskHist := rfl
@[simp] theorem State.setNvEvents_nvEvents (v : List NvEvent) : (s.setNvEvents v).nvEvents = v := rfl
@[simp] theorem State.setNvEvents_draws (v : List NvEvent) : (s.setNvEvents v).draws = s.draws := rfl
@[simp] theorem State.setNvEvents_inputs (v : List NvEvent) : (s.setNvEvents v).inputs = s.inputs := rfl

@[simp] theorem State.setDraws_cfg (v : Nat) : (s.setDraws v).cfg = s.cfg := rfl
@[simp] theorem State.setDraws_env (v : Nat) : (s.setDraws v).env = s.env := rfl
@[simp] theorem State.setDraws_pstate (v : Nat) : (s.setDraws v).pstate = s.pstate := rfl
@[simp] theorem State.setDraws_x (v : Nat) : (s.setDraws v).x = s.x := rfl
@[simp] theorem State.setDraws_pc (v : Nat) : (s.setDraws v).pc = s.pc := rfl
@[simp] theorem State.setDraws_sctlr2maskEL2 (v : Nat) : (s.setDraws v).sctlr2maskEL2 = s.sctlr2maskEL2 := rfl
@[simp] theorem State.setDraws_sctlr2maskEL1 (v : Nat) : (s.setDraws v).sctlr2maskEL1 = s.sctlr2maskEL1 := rfl
@[simp] theorem State.setDraws_sctlr2EL2 (v : Nat) : (s.setDraws v).sctlr2EL2 = s.sctlr2EL2 := rfl
@[simp] theorem State.setDraws_excEL1 (v : Nat) : (s.setDraws v).excEL1 = s.excEL1 := rfl
@[simp] theorem State.setDraws_excEL2 (v : Nat) : (s.setDraws v).excEL2 = s.excEL2 := rfl
@[simp] theorem State.setDraws_excEL3 (v : Nat) : (s.setDraws v).excEL3 = s.excEL3 := rfl
@[simp] theorem State.setDraws_mem (v : Nat) : (s.setDraws v).mem = s.mem := rfl
@[simp] theorem State.setDraws_regions (v : Nat) : (s.setDraws v).regions = s.regions := rfl
@[simp] theorem State.setDraws_text (v : Nat) : (s.setDraws v).text = s.text := rfl
@[simp] theorem State.setDraws_window (v : Nat) : (s.setDraws v).window = s.window := rfl
@[simp] theorem State.setDraws_maskHist (v : Nat) : (s.setDraws v).maskHist = s.maskHist := rfl
@[simp] theorem State.setDraws_nvEvents (v : Nat) : (s.setDraws v).nvEvents = s.nvEvents := rfl
@[simp] theorem State.setDraws_draws (v : Nat) : (s.setDraws v).draws = v := rfl
@[simp] theorem State.setDraws_inputs (v : Nat) : (s.setDraws v).inputs = s.inputs := rfl

@[simp] theorem State.setInputs_cfg (v : List (Option Input)) : (s.setInputs v).cfg = s.cfg := rfl
@[simp] theorem State.setInputs_env (v : List (Option Input)) : (s.setInputs v).env = s.env := rfl
@[simp] theorem State.setInputs_pstate (v : List (Option Input)) : (s.setInputs v).pstate = s.pstate := rfl
@[simp] theorem State.setInputs_x (v : List (Option Input)) : (s.setInputs v).x = s.x := rfl
@[simp] theorem State.setInputs_pc (v : List (Option Input)) : (s.setInputs v).pc = s.pc := rfl
@[simp] theorem State.setInputs_sctlr2maskEL2 (v : List (Option Input)) : (s.setInputs v).sctlr2maskEL2 = s.sctlr2maskEL2 := rfl
@[simp] theorem State.setInputs_sctlr2maskEL1 (v : List (Option Input)) : (s.setInputs v).sctlr2maskEL1 = s.sctlr2maskEL1 := rfl
@[simp] theorem State.setInputs_sctlr2EL2 (v : List (Option Input)) : (s.setInputs v).sctlr2EL2 = s.sctlr2EL2 := rfl
@[simp] theorem State.setInputs_excEL1 (v : List (Option Input)) : (s.setInputs v).excEL1 = s.excEL1 := rfl
@[simp] theorem State.setInputs_excEL2 (v : List (Option Input)) : (s.setInputs v).excEL2 = s.excEL2 := rfl
@[simp] theorem State.setInputs_excEL3 (v : List (Option Input)) : (s.setInputs v).excEL3 = s.excEL3 := rfl
@[simp] theorem State.setInputs_mem (v : List (Option Input)) : (s.setInputs v).mem = s.mem := rfl
@[simp] theorem State.setInputs_regions (v : List (Option Input)) : (s.setInputs v).regions = s.regions := rfl
@[simp] theorem State.setInputs_text (v : List (Option Input)) : (s.setInputs v).text = s.text := rfl
@[simp] theorem State.setInputs_window (v : List (Option Input)) : (s.setInputs v).window = s.window := rfl
@[simp] theorem State.setInputs_maskHist (v : List (Option Input)) : (s.setInputs v).maskHist = s.maskHist := rfl
@[simp] theorem State.setInputs_nvEvents (v : List (Option Input)) : (s.setInputs v).nvEvents = s.nvEvents := rfl
@[simp] theorem State.setInputs_draws (v : List (Option Input)) : (s.setInputs v).draws = s.draws := rfl
@[simp] theorem State.setInputs_inputs (v : List (Option Input)) : (s.setInputs v).inputs = v := rfl

end Sys2Proof.Machine
end

