-- ==== Sys2Proof/Laws/Ops.lean ====
section
/-! SUPPORT. For each shared operation one lemma that says what it can do to the state; a proof about the
state after an operation cites it and reads the fields off the updates. -/

namespace Sys2Proof.Machine

variable (s : State)

/-- A write of `X[t]` changes the general registers alone. -/
theorem writeX_shape (t : RegNum) (v : Word) : ∃ x, writeX s t v = s.setX x := by
  unfold writeX
  split
  · exact ⟨_, rfl⟩
  · exact ⟨s.x, rfl⟩

/-- Register 31 reads as zero (rule R35). -/
theorem readX_31 : readX s 31#5 = 0#64 := rfl

/-- A write of register 31 is discarded (rule R35). -/
theorem writeX_31 (v : Word) : writeX s 31#5 v = s := rfl

theorem regNum_lt_iff (t : RegNum) : t.toNat < 31 ↔ t ≠ 31#5 := by
  revert t; decide

/-- What `X[u]` is after a write of `X[t]` (rule R35). -/
theorem readX_writeX (t u : RegNum) (v : Word) :
    readX (writeX s t v) u = if u = t ∧ t ≠ 31#5 then v else readX s u := by
  by_cases ht : t.toNat < 31
  · have hw : writeX s t v = s.setX (s.x.set t.toNat v ht) := by simp [writeX, ht]
    have ht31 := (regNum_lt_iff t).1 ht
    rw [hw]
    by_cases hu : u.toNat < 31
    · by_cases e : u = t
      · subst e; simp [readX, ht31, hu]
      · have hne : t.toNat ≠ u.toNat := fun hh => e (BitVec.toNat_inj.1 hh.symm)
        simp [readX, hu, e, hne]
    · have e : u ≠ t := fun e => hu (e ▸ ht)
      simp [readX, hu, e]
  · have h31 : t = 31#5 := by by_contra hh; exact ht ((regNum_lt_iff t).2 hh)
    subst h31
    simp [writeX_31]

/-- A register read depends on the registers alone. -/
theorem readX_congr {s s' : State} (h : s'.x = s.x) (t : RegNum) : readX s' t = readX s t := by
  simp only [readX, h]

/-- A draw changes the count of draws alone. -/
theorem drawUpTo_shape (k : Nat) : ∃ d, (drawUpTo k s).2 = s.setDraws d := by
  unfold drawUpTo
  split
  · exact ⟨s.draws, rfl⟩
  · exact ⟨_, rfl⟩

/-- A draw answers a number from 0 to `k`. -/
theorem drawUpTo_le (k : Nat) : (drawUpTo k s).1 ≤ k := by
  unfold drawUpTo
  split
  · exact Nat.zero_le _
  · exact Nat.lt_succ_iff.1 (Nat.mod_lt _ (Nat.succ_pos k))

@[simp] theorem drawUpTo_zero : drawUpTo 0 s = (0, s) := rfl

theorem drawFrom_shape (l : List Nat) : ∃ d, (drawFrom l s).2 = s.setDraws d := drawUpTo_shape s _

/-- What is drawn is one of the choices. -/
theorem drawFrom_mem {l : List Nat} (h : l ≠ []) : (drawFrom l s).1 ∈ l := by
  have h1 := drawUpTo_le s (l.length - 1)
  have h2 : 0 < l.length := List.length_pos_iff.2 h
  have h3 : (drawUpTo (l.length - 1) s).1 < l.length := by omega
  simp only [drawFrom, List.getD_eq_getElem?_getD, List.getElem?_eq_getElem h3, Option.getD_some]
  exact List.getElem_mem h3

/-- A read of SCTLR2MASK_EL2 changes the window and the draws alone. -/
theorem readMaskEL2_shape (n : RegName) (t : RegNum) :
    ∃ w d, (readMaskEL2 n t s).2 = (s.setDraws d).setWindow w := by
  unfold readMaskEL2
  split
  · obtain ⟨d, hd⟩ := drawUpTo_shape s (freedom n s.window.order)
    exact ⟨_, d, by rw [readMaskAt, hd]⟩
  · exact ⟨s.window, s.draws, rfl⟩

/-- The lock test changes the window and the draws alone. -/
theorem lockTest_shape (n : RegName) : ∃ w d, (lockTest n s).2 = (s.setDraws d).setWindow w := by
  unfold lockTest
  split
  · obtain ⟨d, hd⟩ := drawUpTo_shape s (freedom n s.window.order)
    exact ⟨_, d, by rw [testMaskAt, hd]⟩
  · exact ⟨s.window, s.draws, rfl⟩

/-- An access of another location changes the order of the window alone. -/
theorem openElsewhere_shape (k : AccessKind) : ∃ w, openElsewhere k s = s.setWindow w := by
  unfold openElsewhere
  split
  · exact ⟨s.window, rfl⟩
  · exact ⟨_, rfl⟩

/-- So does the lock test of SCTLR2MASK_EL1. -/
theorem lockTestEL1_shape : ∃ w, (lockTestEL1 s).2 = s.setWindow w := openElsewhere_shape s _

/-- Putting a value in a place changes the general registers, SCTLR2MASK_EL1, memory or the recorded events of
the cell, and nothing else. -/
theorem putPlace_shape (p : Place) (v : Word) :
    ∃ x m1 mem ev, putPlace p v s = (((s.setX x).setMaskEL1 m1).setMem mem).setNvEvents ev := by
  cases p with
  | x t =>
    obtain ⟨x, hx⟩ := writeX_shape s t v
    exact ⟨x, s.sctlr2maskEL1, s.mem, s.nvEvents, hx⟩
  | maskEL1 => exact ⟨s.x, v, s.mem, s.nvEvents, rfl⟩
  | cell a => exact ⟨s.x, s.sctlr2maskEL1, memWrite8 s.cfg.nvBigEndian s.mem a v, s.nvEvents, rfl⟩
  | event k => exact ⟨s.x, s.sctlr2maskEL1, s.mem, s.nvEvents.modify k (NvEvent.withValue v), rfl⟩

/-- So does refreshing the results of open accesses. -/
theorem refreshHeld_shape (before after : List (Nat × Word)) (l : List Held) :
    ∀ s : State, ∃ x m1 mem ev,
      refreshHeld before after l s = (((s.setX x).setMaskEL1 m1).setMem mem).setNvEvents ev := by
  induction l with
  | nil => exact fun s => ⟨s.x, s.sctlr2maskEL1, s.mem, s.nvEvents, rfl⟩
  | cons h rest ih =>
    intro s
    simp only [refreshHeld]
    split
    · exact ih s
    · obtain ⟨x, m1, mem, ev, hp⟩ := putPlace_shape s h.place (seenAt after h.id)
      obtain ⟨x', m1', mem', ev', hr⟩ := ih (putPlace h.place (seenAt after h.id) s)
      exact ⟨x', m1', mem', ev', by rw [hr, hp]; rfl⟩

/-- A write among the open accesses changes the register, the window and the places that hold results of open
reads, and nothing else. -/
theorem writeMaskAt_shape (back : Nat) (a : Access) :
    ∃ x m1 mem ev m, writeMaskAt back a s =
      (((((s.setWindow (insertAccess back a (openWindow s))).setMaskEL2 m).setX x).setMaskEL1 m1).setMem
        mem).setNvEvents ev := by
  unfold writeMaskAt
  obtain ⟨x, m1, mem, ev, h⟩ := refreshHeld_shape
    (replay s.cfg (openWindow s).base (openWindow s).order).seen
    (replay s.cfg (openWindow s).base (insertAccess back a (openWindow s)).order).seen (openWindow s).held
    ((s.setWindow (insertAccess back a (openWindow s))).setMaskEL2
      (replay s.cfg (openWindow s).base (insertAccess back a (openWindow s)).order).mask)
  exact ⟨x, m1, mem, ev, _, h⟩

/-- So does a write put among them by a draw, which it counts. -/
theorem writeMaskUnordered_shape (a : Access) :
    ∃ x m1 mem ev m w d, writeMaskUnordered a s =
      ((((((s.setDraws d).setWindow w).setMaskEL2 m).setX x).setMaskEL1 m1).setMem mem).setNvEvents ev := by
  unfold writeMaskUnordered
  obtain ⟨d, hd⟩ := drawFrom_shape s (placesFor s.cfg (openWindow s) a)
  rw [hd]
  obtain ⟨x, m1, mem, ev, m, h⟩ := writeMaskAt_shape (s.setDraws d)
    (drawFrom (placesFor s.cfg (openWindow s) a) s).1 a
  exact ⟨x, m1, mem, ev, m, _, d, h⟩

/-- A write of SCTLR2MASK_EL2 changes the register, the window, the draws, the history of the mask and the places
that hold results of open accesses, and nothing else. -/
theorem writeMaskEL2_shape (n : RegName) (t : RegNum) :
    ∃ x m1 mem ev m w d h, writeMaskEL2 n t s =
      (((((((s.setMaskHist h).setDraws d).setWindow w).setMaskEL2 m).setX x).setMaskEL1 m1).setMem
        mem).setNvEvents ev := by
  unfold writeMaskEL2 noteMaskWrite
  generalize s.maskHist ++ [s.sctlr2maskEL2, storedMask s.cfg (readX s t)] = h
  split
  · obtain ⟨x, m1, mem, ev, m, w, d, hw⟩ :=
      writeMaskUnordered_shape (s.setMaskHist h) (nextAccess n (.write (sourceOf t s)) s)
    exact ⟨x, m1, mem, ev, m, w, d, h, hw⟩
  · refine ⟨s.x, s.sctlr2maskEL1, s.mem, s.nvEvents, storedMask s.cfg (readX s t), s.window, s.draws, h, ?_⟩
    simp only [State.setMaskHist, State.setDraws, State.setWindow, State.setMaskEL2, State.setX,
      State.setMaskEL1, State.setMem, State.setNvEvents]

/-- An exception entry changes the exception registers of its level, `PSTATE`, `pc` and the draws alone. -/
theorem enterException_shape (h : HandlerEL) (esr : Word) :
    ∃ r p, enterException h esr s =
      (((s.setDraws (s.draws + 1)).setExc h r).setPState ⟨h.toEL, true⟩).setPc p :=
  ⟨_, _, rfl⟩

/-- What an accessor that raises an event answers while exceptions are taken: an entry, with draws made. -/
theorem raise_next {s s' : State} {ev : Event} {a : Accessor} (h : raise ev a s = .next s') :
    s.cfg.onEvent = .enter ∧ ∃ l esr d, s' = enterException l esr (s.setDraws d) := by
  unfold raise at h
  cases hc : s.cfg.onEvent with
  | stop => cases ev <;> simp [hc] at h
  | enter =>
    cases ev with
    | undefined why =>
      simp only [hc, Host.Outcome.next.injEq] at h
      exact ⟨rfl, _, _, s.draws + 1, h.symm⟩
    | trap target why =>
      simp only [hc, Host.Outcome.next.injEq] at h
      exact ⟨rfl, _, _, s.draws, h.symm⟩

/-- A run of an instruction that answers a next state had a `pc` to advance. -/
theorem guardPc_next {s s' : State} {f : State → Host.Outcome State Fault Refusal}
    (h : guardPc s f = .next s') : pcFits s = true ∧ f s = .next s' := by
  unfold guardPc at h
  split at h
  · exact ⟨‹_›, h⟩
  · cases h

end Sys2Proof.Machine
end

