-- ==== Sys2Proof/Laws/Exec.lean ====
section
/-! SUPPORT. Once for each meaning and for the step: if it answers a next state, which of these cases holds. -/

namespace Sys2Proof.Machine

/-- The ways an accessor that answers a next state has ended. -/
inductive Ended (s : State) : State → Prop where
  /-- Its event was taken as an exception (rule R102). -/
  | taken (l : HandlerEL) (esr : Word) (d : Nat) (h : s.cfg.onEvent = .enter) :
      Ended s (enterException l esr (s.setDraws d))
  /-- Its lock test refused it and the exception was taken (rules R61, R71, R102). -/
  | locked (n : RegName) (l : HandlerEL) (esr : Word) (d : Nat) (h : s.cfg.onEvent = .enter)
      (el2 : s.pstate.el = .el2) (lock : (lockTest n s).1 = true) :
      Ended s (enterException l esr ((lockTest n s).2.setDraws d))
  /-- The lock test of SCTLR2MASK_EL1 refused it and the exception was taken (rules R71, R102). -/
  | lockedEL1 (l : HandlerEL) (esr : Word) (d : Nat) (h : s.cfg.onEvent = .enter)
      (el1 : s.pstate.el = .el1) : Ended s (enterException l esr ((lockTestEL1 s).2.setDraws d))
  /-- `X[t] <- SCTLR2MASK_EL2` (rules R60, R70). -/
  | readMaskEL2 (n : RegName) (t : RegNum) (h : s.pstate.el = .el2 ∨ s.pstate.el = .el3) :
      Ended s (advance (writeX (readMaskEL2 n t s).2 t (readMaskEL2 n t s).1))
  /-- `SCTLR2MASK_EL2 <- X[t]` at EL2 (rules R61, R71). -/
  | writeMaskAtEL2 (n : RegName) (t : RegNum) (h : s.pstate.el = .el2) (lock : (lockTest n s).1 = false) :
      Ended s (advance (writeMaskEL2 n t (lockTest n s).2))
  /-- `SCTLR2MASK_EL2 <- X[t]` at EL3 (rule R61). -/
  | writeMaskAtEL3 (n : RegName) (t : RegNum) (h : s.pstate.el = .el3) : Ended s (advance (writeMaskEL2 n t s))
  /-- `X[t] <- SCTLR2MASK_EL1` (rule R70). -/
  | readMaskEL1 (t : RegNum) :
      Ended s (advance (writeX (readMaskEL1 t s).2 t (readMaskEL1 t s).1))
  /-- `SCTLR2MASK_EL1 <- X[t]` at EL1 (rule R71). -/
  | writeMaskEL1AtEL1 (t : RegNum) (h : s.pstate.el = .el1) (lock : effMaskEL1 s = 0#64) :
      Ended s (advance (writeMaskEL1 t (lockTestEL1 s).2))
  /-- `SCTLR2MASK_EL1 <- X[t]` above EL1 (rule R71). -/
  | writeMaskEL1Above (t : RegNum) (h : s.pstate.el ≠ .el1) : Ended s (advance (writeMaskEL1 t s))
  /-- `X[t] <- NVMem[0x328]` (rules R41, R70). -/
  | readNv (t : RegNum) (h : s.pstate.el = .el1) (cell : nvCheck s = none) :
      Ended s (advance (writeX (nvRead t s).2 t (nvRead t s).1))
  /-- `NVMem[0x328] <- X[t]` (rules R42, R71). -/
  | writeNv (t : RegNum) (h : s.pstate.el = .el1) (cell : nvCheck s = none) :
      Ended s (advance (nvWrite t s))

theorem raise_ended {s s' : State} {ev : Event} {a : Accessor} (h : raise ev a s = .next s') :
    Ended s s' := by
  obtain ⟨hc, l, esr, d, rfl⟩ := raise_next h
  exact .taken l esr d hc

theorem lockedWrite_ended {s s' : State} {n : RegName} {t : RegNum}
    (hel : s.pstate.el = .el2 ∨ s.pstate.el = .el3) (h : lockedWrite n t s = .next s') :
    Ended s s' := by
  unfold lockedWrite at h
  split at h
  · next he =>
    split at h
    · next hl =>
      obtain ⟨w, d, hd⟩ := lockTest_shape s n
      obtain ⟨hc, l, esr, d', rfl⟩ := raise_next h
      exact .locked n l esr d' (by simpa [hd] using hc) he hl
    · next hl =>
      simp only [finishWrite, Host.Outcome.next.injEq] at h
      subst h
      exact .writeMaskAtEL2 n t he (by simpa using hl)
  · next he =>
    simp only [finishWrite, Host.Outcome.next.injEq] at h
    subst h
    exact .writeMaskAtEL3 n t (by tauto)

theorem writeMaskEL1From_ended {s s' : State} {t : RegNum} (h : writeMaskEL1From t s = .next s') :
    Ended s s' := by
  unfold writeMaskEL1From at h
  split at h
  · next he =>
    split at h
    · obtain ⟨w, hw⟩ := lockTestEL1_shape s
      obtain ⟨hc, l, esr, d, rfl⟩ := raise_next h
      exact .lockedEL1 l esr d (by simpa [hw] using hc) he
    · next hl =>
      simp only [finishWrite, Host.Outcome.next.injEq] at h
      subst h
      exact .writeMaskEL1AtEL1 t he (by simpa [lockTestEL1] using hl)
  · next he =>
    simp only [finishWrite, Host.Outcome.next.injEq] at h
    subst h
    exact .writeMaskEL1Above t he

/-- After the checks of the EL2 name an access is made at EL2 or EL3 (rules R60, R61). -/
theorem checkEL2Name_none {s : State} (h : checkEL2Name s = none) :
    s.pstate.el = .el2 ∨ s.pstate.el = .el3 := by
  unfold checkEL2Name at h
  cases he : s.pstate.el <;> simp only [he] at h ⊢ <;> split_ifs at h <;> simp

/-- The EL1 name reaches SCTLR2MASK_EL2 at EL2 alone (rule R72). -/
theorem el1NameLocation_maskEL2 {s : State} (h : el1NameLocation s = .sctlr2maskEL2) :
    s.pstate.el = .el2 ∧ s.env.inHostEL2 = true := by
  unfold el1NameLocation at h
  cases he : s.pstate.el <;> simp only [he] at h ⊢ <;> (try split_ifs at h) <;> simp_all

/-- The EL1 name reaches memory at EL1 alone (rule R72). -/
theorem el1NameLocation_nvMem {s : State} (h : el1NameLocation s = .nvMem) :
    s.pstate.el = .el1 ∧ s.env.nvx = 0b111#3 := by
  unfold el1NameLocation at h
  cases he : s.pstate.el <;> simp only [he] at h ⊢ <;> (try split_ifs at h) <;> simp_all

/-- Every next state of `exec` is one of the ways to end. -/
theorem exec_ended {i : Instr} {s s' : State} (h : exec i s = .next s') : Ended s s' := by
  cases i with
  | mrsSctlr2maskEl2 t =>
    obtain ⟨-, h⟩ := guardPc_next (show execMrsSctlr2maskEl2 t s = .next s' from h)
    split at h
    · exact raise_ended h
    · next hc =>
      cases h
      exact .readMaskEL2 _ t (checkEL2Name_none hc)
  | msrSctlr2maskEl2 t =>
    obtain ⟨-, h⟩ := guardPc_next (show execMsrSctlr2maskEl2 t s = .next s' from h)
    split at h
    · exact raise_ended h
    · next hc => exact lockedWrite_ended (checkEL2Name_none hc) h
  | mrsSctlr2maskEl1 t =>
    obtain ⟨-, h⟩ := guardPc_next (show execMrsSctlr2maskEl1 t s = .next s' from h)
    split at h
    · exact raise_ended h
    · split at h
      · next hl =>
        unfold readNvInto at h
        split at h
        · cases h
        · next hn => cases h; exact .readNv t (el1NameLocation_nvMem hl).1 hn
      · cases h; exact .readMaskEL1 t
      · next hl =>
        cases h
        exact .readMaskEL2 _ t (.inl (el1NameLocation_maskEL2 hl).1)
  | msrSctlr2maskEl1 t =>
    obtain ⟨-, h⟩ := guardPc_next (show execMsrSctlr2maskEl1 t s = .next s' from h)
    split at h
    · exact raise_ended h
    · split at h
      · next hl =>
        unfold writeNvFrom at h
        split at h
        · cases h
        · next hn => cases h; exact .writeNv t (el1NameLocation_nvMem hl).1 hn
      · exact writeMaskEL1From_ended h
      · next hl => exact lockedWrite_ended (.inl (el1NameLocation_maskEL2 hl).1) h

/-- One entry of the schedule is past: the inputs to come change, nothing else. -/
@[simp] theorem popInput_eq (s : State) : popInput s = s.setInputs s.inputs.tail := rfl

/-- A step that answers a next state has applied the input that comes next, or run the fetched instruction. -/
theorem step_next {s s' : State} (h : step s = .next s') :
    (∃ inp, nextInput s = some inp ∧ applyInput inp (popInput s) = .next s') ∨
      (nextInput s = none ∧ ∃ i, fetch s = .instr i ∧ exec i (popInput s) = .next s') := by
  unfold step at h
  split at h
  · next inp hi => exact .inl ⟨inp, hi, h⟩
  · next hi =>
    split at h
    · next i hf => exact .inr ⟨hi, i, hf, h⟩
    · cases h
    · cases h

end Sys2Proof.Machine
end

