-- ==== Sys2Proof/Laws/Flags.lean ====
section
/-! SUPPORT. The mask bits: what a stored value can be, the fields of SCTLR2_EL2, the masked write. -/

namespace Sys2Proof.Machine

/-- What a write stores can be stored (rule R24). -/
theorem storable_storedMask (c : Config) (v : Word) : Storable c (storedMask c v) := by
  unfold Storable storedMask
  ext i hi
  simp only [BitVec.getElem_and, BitVec.getElem_not, BitVec.getElem_zero]
  cases (storableMask c)[i] <;> simp

theorem storable_zero (c : Config) : Storable c 0#64 := by simp [Storable]

theorem storable_and_of_subset (c : Config) (v m : Word) (h : Storable c m) : Storable c (v &&& m) := by
  unfold Storable at *
  rw [BitVec.and_assoc, h, BitVec.and_zero]

/-- The named field of a record given by its fields. -/
@[simp] theorem Sctlr2.get_ofFields (g : MaskField → Bit) (f : MaskField) :
    (Sctlr2.ofFields g).get f = g f := by
  cases f <;> rfl

/-- A record is known by its twelve named fields. -/
theorem Sctlr2.ext_get {a b : Sctlr2} (h : ∀ f, a.get f = b.get f) : a = b := by
  obtain ⟨⟩ := a
  obtain ⟨⟩ := b
  have h1 := h .cptm0; have h2 := h .cptm; have h3 := h .cpta0; have h4 := h .cpta
  have h5 := h .enPACM0; have h6 := h .enPACM; have h7 := h .enIDCP128; have h8 := h .ease
  have h9 := h .enANERR; have h10 := h .enADERR; have h11 := h .nmea; have h12 := h .emec
  simp only [Sctlr2.get] at *
  simp_all

/-- Each field of a masked write, by name (rule R80). -/
@[simp] theorem Sctlr2.get_maskedWrite (old new : Sctlr2) (m : Word) (f : MaskField) :
    (old.maskedWrite new m).get f = if maskBit m f = 1#1 then old.get f else new.get f := by
  simp [Sctlr2.maskedWrite]

/-- Bit `i` of the 64-bit masked write depends on bit `i` of its arguments only (rule R85). -/
theorem maskedWrite_getLsbD (old new m : Word) (i : Nat) :
    (maskedWrite old new m).getLsbD i = if m.getLsbD i then old.getLsbD i else new.getLsbD i := by
  by_cases hi : i < 64
  · simp only [maskedWrite, BitVec.getLsbD_or, BitVec.getLsbD_and, BitVec.getLsbD_not, hi]
    cases m.getLsbD i <;> simp
  · have h : ∀ v : Word, v.getLsbD i = false := fun v => BitVec.getLsbD_of_ge v i (by omega)
    simp [h]

end Sys2Proof.Machine
end

