-- ==== Sys2Proof/Laws/PerInstr.lean ====
section
/-! SUPPORT. Statements for all instructions, made per instruction. The family Encoding says that an
instruction's word is a System register move whose fields are the instruction's own tuple, so that no field
of rule R54 is lost in the word of rule R55. -/

namespace Sys2Proof.Laws.Encoding

/-- The instruction is well formed, its word has the fixed bits of a System register move, and the fields of
its word are its tuple (rules R54, R55). -/
def Statement (i : Instr) : Prop :=
  i.WellFormed = true ∧ isSysRegMove (encode i) = true ∧ tupleOfWord (encode i) = i.tuple

theorem mrsSctlr2maskEl2 (t : RegNum) : Statement (.mrsSctlr2maskEl2 t) := by
  revert t; unfold Statement; decide

theorem msrSctlr2maskEl2 (t : RegNum) : Statement (.msrSctlr2maskEl2 t) := by
  revert t; unfold Statement; decide

theorem mrsSctlr2maskEl1 (t : RegNum) : Statement (.mrsSctlr2maskEl1 t) := by
  revert t; unfold Statement; decide

theorem msrSctlr2maskEl1 (t : RegNum) : Statement (.msrSctlr2maskEl1 t) := by
  revert t; unfold Statement; decide

end Sys2Proof.Laws.Encoding
end

