-- ==== Sys2Proof/Laws/Window.lean ====
section
/-! SUPPORT. The ordering window (20_memory.md rules R46, R47): what putting an access among the open ones does to
what they give, and that each operation on the window keeps it well formed (`WindowInv`). -/

namespace Sys2Proof.Machine

/-! Performing accesses. -/

@[simp] theorem replay_nil (c : Config) (b : Word) : replay c b [] = ⟨b, []⟩ := rfl

theorem replay_append (c : Config) (b : Word) (l l' : List Access) :
    replay c b (l ++ l') = l'.foldl (performAccess c) (replay c b l) := by
  simp [replay]

/-- Storing what can be stored changes nothing. -/
theorem storedMask_of_storable {c : Config} {v : Word} (h : Storable c v) : storedMask c v = v := by
  have h1 : v = (v &&& storableMask c) ||| (v &&& ~~~storableMask c) := by
    ext i hi
    simp only [BitVec.getElem_or, BitVec.getElem_and, BitVec.getElem_not]
    cases v[i] <;> cases (storableMask c)[i] <;> rfl
  rw [h, BitVec.or_zero] at h1
  exact h1.symm

/-- The register only ever gets what it can store. -/
theorem foldl_performAccess_storable {c : Config} (l : List Access) :
    ∀ {r : Replay}, Storable c r.mask → Storable c (l.foldl (performAccess c) r).mask := by
  induction l with
  | nil => exact fun h => h
  | cons a rest ih =>
    intro r h
    refine ih ?_
    obtain ⟨id, n, k⟩ := a
    cases k with
    | read => exact h
    | test b => exact h
    | write src => exact storable_storedMask c _
    | elsewhere src => exact h
    | testEL1 use => exact h

theorem replay_storable {c : Config} {b : Word} (l : List Access) (h : Storable c b) :
    Storable c (replay c b l).mask := foldl_performAccess_storable l h

/-- The two give the same, but for the result numbered `id`. -/
def SameBut (id : Nat) (r r' : Replay) : Prop :=
  r'.mask = r.mask ∧ ∀ k, k ≠ id → seenAt r'.seen k = seenAt r.seen k

theorem performAccess_sameBut {c : Config} {id : Nat} {r r' : Replay} {a : Access}
    (h : SameBut id r r') (ha : a.needs ≠ some id) :
    SameBut id (performAccess c r a) (performAccess c r' a) := by
  obtain ⟨aid, n, k⟩ := a
  cases k with
  | read =>
    refine ⟨h.1, fun k hk => ?_⟩
    simp only [performAccess, seenAt, h.1, h.2 k hk]
  | test b => exact h
  | write src =>
    cases src with
    | word v => exact ⟨rfl, h.2⟩
    | ofRead m =>
      have hm : m ≠ id := fun e => ha (by simp [Access.needs, e])
      exact ⟨by simp only [performAccess, sourceValue, h.2 m hm], h.2⟩
  | elsewhere src =>
    have hv : sourceValue r' src = sourceValue r src := by
      cases src with
      | word v => rfl
      | ofRead m => exact h.2 m fun e => ha (by simp [Access.needs, e])
    refine ⟨h.1, fun k hk => ?_⟩
    simp only [performAccess, seenAt, hv, h.2 k hk]
  | testEL1 use => exact h

theorem foldl_performAccess_sameBut {c : Config} {id : Nat} (l : List Access) :
    ∀ {r r' : Replay}, SameBut id r r' → (∀ a ∈ l, a.needs ≠ some id) →
      SameBut id (l.foldl (performAccess c) r) (l.foldl (performAccess c) r') := by
  induction l with
  | nil => exact fun h _ => h
  | cons a rest ih =>
    intro r r' h hl
    exact ih (performAccess_sameBut h (hl a (by simp))) fun b hb => hl b (by simp [hb])

/-- An access that is no write changes nothing but its own result. -/
theorem performAccess_nonWrite {c : Config} {r : Replay} {a : Access} (h : a.isWrite = false) :
    SameBut a.id r (performAccess c r a) := by
  obtain ⟨id, n, k⟩ := a
  cases k with
  | read =>
    refine ⟨rfl, fun k hk => ?_⟩
    simp only [performAccess, seenAt, if_neg (Ne.symm hk)]
  | test b => exact ⟨rfl, fun _ _ => rfl⟩
  | write src => cases h
  | elsewhere src =>
    refine ⟨rfl, fun k hk => ?_⟩
    simp only [performAccess, seenAt, if_neg (Ne.symm hk)]
  | testEL1 use => exact ⟨rfl, fun _ _ => rfl⟩

/-- The result of a read that is not among some accesses is what it was before them. -/
theorem seenAt_foldl {c : Config} {id : Nat} (l : List Access) :
    ∀ {r : Replay}, (∀ a ∈ l, a.id ≠ id) →
      seenAt (l.foldl (performAccess c) r).seen id = seenAt r.seen id := by
  induction l with
  | nil => exact fun _ => rfl
  | cons a rest ih =>
    intro r hl
    rw [List.foldl_cons, ih fun b hb => hl b (by simp [hb])]
    have ha := hl a (by simp)
    obtain ⟨aid, n, k⟩ := a
    cases k with
    | read => simp only [performAccess, seenAt, if_neg ha]
    | test b => rfl
    | write src => rfl
    | elsewhere src => simp only [performAccess, seenAt, if_neg ha]
    | testEL1 use => rfl

/-- What the second gives is what the first does, or `v`. -/
def OneOf (v : Word) (r r' : Replay) : Prop :=
  (r'.mask = r.mask ∨ r'.mask = v) ∧
    ∀ k, seenAt r'.seen k = seenAt r.seen k ∨ seenAt r'.seen k = v

theorem performAccess_oneOf {c : Config} {v : Word} {r r' : Replay} (hv : Storable c v) (a : Access)
    (h : OneOf v r r') : OneOf v (performAccess c r a) (performAccess c r' a) := by
  obtain ⟨id, n, k⟩ := a
  cases k with
  | read =>
    refine ⟨h.1, fun k => ?_⟩
    simp only [performAccess, seenAt]
    split
    · exact h.1
    · exact h.2 k
  | test b => exact h
  | write src =>
    refine ⟨?_, h.2⟩
    cases src with
    | word w => exact .inl rfl
    | ofRead m =>
      simp only [performAccess, sourceValue]
      rcases h.2 m with e | e
      · exact .inl (by rw [e])
      · exact .inr (by rw [e, storedMask_of_storable hv])
  | elsewhere src =>
    have hs : sourceValue r' src = sourceValue r src ∨ sourceValue r' src = v := by
      cases src with
      | word w => exact .inl rfl
      | ofRead m => exact h.2 m
    refine ⟨h.1, fun k => ?_⟩
    simp only [performAccess, seenAt]
    split
    · exact hs
    · exact h.2 k
  | testEL1 use => exact h

theorem foldl_performAccess_oneOf {c : Config} {v : Word} (hv : Storable c v) (l : List Access) :
    ∀ {r r' : Replay}, OneOf v r r' →
      OneOf v (l.foldl (performAccess c) r) (l.foldl (performAccess c) r') := by
  induction l with
  | nil => exact fun h => h
  | cons a rest ih => exact fun h => ih (performAccess_oneOf hv a h)

/-! Putting an access among the others. -/

/-- With no access passed over, the access is the last of the window. -/
@[simp] theorem insertAccess_zero (a : Access) (w : Window) :
    insertAccess 0 a w = { w with order := w.order ++ [a] } := by
  simp [insertAccess]

@[simp] theorem insertAccess_base (back : Nat) (a : Access) (w : Window) :
    (insertAccess back a w).base = w.base := rfl

/-- The accesses are those there were and the new one. -/
theorem insertAccess_perm (back : Nat) (a : Access) (w : Window) :
    List.Perm (insertAccess back a w).order (a :: w.order) := by
  simpa [insertAccess] using
    List.perm_middle (a := a) (l₁ := w.order.take (w.order.length - back))
      (l₂ := w.order.drop (w.order.length - back))

/-- An access that is no write changes nothing but its own result. -/
theorem replay_insert_nonWrite {c : Config} {a : Access} (back : Nat) (w : Window)
    (ha : a.isWrite = false) (hn : ∀ b ∈ w.order, b.needs ≠ some a.id) :
    SameBut a.id (replay c w.base w.order) (replay c w.base (insertAccess back a w).order) := by
  conv_lhs => rw [← List.take_append_drop (w.order.length - back) w.order]
  rw [insertAccess, replay_append, replay_append, List.foldl_cons]
  exact foldl_performAccess_sameBut _ (performAccess_nonWrite ha) fun b hb =>
    hn b (List.mem_of_mem_drop hb)

/-- The result of a read put among the others is the register's value there. -/
theorem seenAt_insert_read {c : Config} {id : Nat} {n : RegName} (back : Nat) (w : Window)
    (hid : ∀ b ∈ w.order, b.id ≠ id) :
    seenAt (replay c w.base (insertAccess back ⟨id, n, .read⟩ w).order).seen id = valueBefore c back w := by
  rw [insertAccess, replay_append, List.foldl_cons,
    seenAt_foldl _ fun b hb => hid b (List.mem_of_mem_drop hb)]
  simp [performAccess, seenAt, valueBefore]

/-- A write of `v` put among the others: what they give is what they gave, or `v`. -/
theorem replay_insert_write {c : Config} {id : Nat} {n : RegName} {src : WriteSource} {v : Word}
    (back : Nat) (w : Window)
    (hv : storedMask c (sourceValue (replay c w.base (w.order.take (w.order.length - back))) src) = v) :
    OneOf v (replay c w.base w.order)
      (replay c w.base (insertAccess back ⟨id, n, .write src⟩ w).order) := by
  conv_lhs => rw [← List.take_append_drop (w.order.length - back) w.order]
  rw [insertAccess, replay_append, replay_append, List.foldl_cons]
  exact foldl_performAccess_oneOf (hv ▸ storable_storedMask c _) _
    ⟨.inr hv, fun k => .inl rfl⟩

@[simp] theorem valueBefore_zero (c : Config) (w : Window) :
    valueBefore c 0 w = (replay c w.base w.order).mask := by
  simp [valueBefore]

@[simp] theorem freedom_nil (n : RegName) : freedom n [] = 0 := rfl

/-- The accesses that may be passed over are no more than the window has. -/
theorem freedom_le (n : RegName) (l : List Access) : freedom n l ≤ l.length := by
  have := (List.takeWhile_sublist (fun a : Access => decide (a.name ≠ n)) (l := l.reverse)).length_le
  simpa [freedom] using this

/-- The accesses that may be passed over use the other name. -/
theorem name_ne_of_mem_drop {n : RegName} {l : List Access} {back : Nat} (h : back ≤ freedom n l) {a : Access}
    (ha : a ∈ l.drop (l.length - back)) : a.name ≠ n := by
  have hr : a ∈ l.reverse.take back := by
    rw [List.take_reverse]
    exact List.mem_reverse.2 ha
  have hp : (l.reverse.takeWhile fun b : Access => decide (b.name ≠ n)) <+: l.reverse :=
    List.takeWhile_prefix _
  have hs : l.reverse.take back <+: l.reverse.takeWhile fun b : Access => decide (b.name ≠ n) :=
    List.prefix_of_prefix_length_le (List.take_prefix _ _) hp
      (le_trans (List.length_take_le _ _) h)
  simpa using List.mem_takeWhile_imp (hs.subset hr)

/-- Every place an access may take passes over no access by its name. -/
theorem le_freedom_of_mem_placesFor {c : Config} {w : Window} {a : Access} {back : Nat}
    (h : back ∈ placesFor c w a) : back ≤ freedom a.name w.order := by
  simp only [placesFor, List.mem_filter, List.mem_range] at h
  omega

@[simp] theorem insertAccess_held (back : Nat) (a : Access) (w : Window) :
    (insertAccess back a w).held = w.held := rfl

/-- An access may always be the last of the window, unless it needs a read that is not there. -/
theorem zero_mem_placesFor {c : Config} {w : Window} {a : Access} (h : sourceReady w.order a = true) :
    0 ∈ placesFor c w a := by
  rw [placesFor, List.mem_filter]
  exact ⟨by simp, by simp [mayPutAt, h, keepOutcomes]⟩

/-! The open window. -/

@[simp] theorem openWindow_order (s : State) : (openWindow s).order = s.window.order := by
  unfold openWindow
  split
  · next h => exact h.symm
  · rfl

/-- The opened window explains the register. -/
theorem openWindow_agrees {s : State} (h : WindowAgrees s) :
    (replay s.cfg (openWindow s).base s.window.order).mask = s.sctlr2maskEL2 := by
  unfold openWindow
  split
  · next he => rw [he]; rfl
  · next hne => exact h hne

theorem openWindow_base_storable {s : State} (hm : Storable s.cfg s.sctlr2maskEL2) (h : WindowInv s) :
    Storable s.cfg (openWindow s).base := by
  unfold openWindow
  split
  · exact hm
  · next hne => exact h.base hne

/-- With no access open no place holds a result. -/
theorem held_of_order_nil {s : State} (h : WindowInv s) (he : s.window.order = []) : s.window.held = [] :=
  List.eq_nil_iff_forall_not_mem.2 fun a ha => by simpa [he] using h.heldBelow a ha

theorem openWindow_held {s : State} (h : WindowInv s) : (openWindow s).held = s.window.held := by
  unfold openWindow
  split
  · next he => exact (held_of_order_nil h he).symm
  · rfl

/-- The results the places hold, from the opened window. -/
theorem openWindow_results {s : State} (h : WindowInv s) {a : Held} (ha : a ∈ s.window.held) :
    PlaceHolds a.place (seenAt (replay s.cfg (openWindow s).base s.window.order).seen a.id) s := by
  have hb : openWindow s = s.window := by
    unfold openWindow
    rw [if_neg]
    intro e
    rw [held_of_order_nil h e] at ha
    cases ha
  rw [hb]
  exact h.results a ha

/-! What places hold. -/

/-- What a place holds is held against the configuration, the registers, memory and the recorded events. -/
theorem PlaceHolds.congr {p : Place} {v : Word} {s s' : State} (h : PlaceHolds p v s) (hc : s'.cfg = s.cfg)
    (hx : ∀ t, p = .x t → readX s' t = readX s t) (hm1 : s'.sctlr2maskEL1 = s.sctlr2maskEL1)
    (hm : s'.mem = s.mem) (he : s'.nvEvents = s.nvEvents) : PlaceHolds p v s' := by
  cases p with
  | x t => exact ⟨h.1, (hx t rfl).trans h.2⟩
  | maskEL1 => exact hm1.trans h
  | cell a => exact ⟨h.1, h.2.1, by rw [hc, hm]; exact h.2.2⟩
  | event k => unfold PlaceHolds; rw [he]; exact h

theorem readX_putPlace {p : Place} {v : Word} {s : State} {u : RegNum} (h : p ≠ .x u) :
    readX (putPlace p v s) u = readX s u := by
  cases p with
  | x t => rw [putPlace, readX_writeX, if_neg fun e => h (by rw [e.1])]
  | maskEL1 => rfl
  | cell a => rfl
  | event k => rfl

/-- Eight bytes apart from the cell written read as before. -/
theorem memRead8_memWrite8_apart {be : Bool} {m : Memory} {a b : Nat} (v free : Word)
    (h : a + 8 ≤ b ∨ b + 8 ≤ a) : memRead8 be (memWrite8 be m b v) a free = memRead8 be m a free := by
  have hi : ∀ i, i < 8 → memGet (memWrite8 be m b v) (a + byteIndex be i) = memGet m (a + byteIndex be i) := by
    intro i hi
    have := byteIndex_lt (be := be) hi
    exact memGet_memWrite8_outside be v (by omega)
  simp only [memRead8, wordOf]
  rw [hi 0 (by decide), hi 1 (by decide), hi 2 (by decide), hi 3 (by decide), hi 4 (by decide),
    hi 5 (by decide), hi 6 (by decide), hi 7 (by decide)]

/-- A place holds what is put in it. -/
theorem placeHolds_putPlace_self {p : Place} {v w : Word} {s : State} (h : PlaceHolds p w s) :
    PlaceHolds p v (putPlace p v s) := by
  cases p with
  | x t => exact ⟨h.1, by simp [putPlace, readX_writeX, h.1]⟩
  | maskEL1 => rfl
  | cell a => exact ⟨h.1, h.2.1, fun free => memRead8_memWrite8 _ _ _ _ _⟩
  | event k =>
    simp only [PlaceHolds, putPlace, State.setNvEvents_nvEvents, List.getElem?_modify_eq] at h ⊢
    cases he : s.nvEvents[k]? with
    | none => rw [he] at h; cases h
    | some e => cases e <;> rfl

/-- And what is put in another place changes nothing of it. -/
theorem placeHolds_putPlace_ne {p q : Place} {v w w' : Word} {s : State} (h : PlaceHolds p w s)
    (hq : PlaceHolds q w' s) (hne : q ≠ p) : PlaceHolds p w (putPlace q v s) := by
  cases p with
  | x t => exact ⟨h.1, by rw [readX_putPlace hne]; exact h.2⟩
  | maskEL1 =>
    cases q with
    | x t =>
      obtain ⟨y, hy⟩ := writeX_shape s t v
      rw [putPlace, hy]
      exact h
    | maskEL1 => exact absurd rfl hne
    | cell b => exact h
    | event k => exact h
  | cell a =>
    cases q with
    | x t =>
      obtain ⟨y, hy⟩ := writeX_shape s t v
      rw [putPlace, hy]
      exact h
    | maskEL1 => exact h
    | cell b =>
      refine ⟨h.1, h.2.1, fun free => ?_⟩
      have hab : b ≠ a := fun e => hne (by rw [e])
      have := h.1
      have := hq.1
      exact (memRead8_memWrite8_apart v free (by omega)).trans (h.2.2 free)
    | event k => exact h
  | event k =>
    cases q with
    | x t =>
      obtain ⟨y, hy⟩ := writeX_shape s t v
      rw [putPlace, hy]
      exact h
    | maskEL1 => exact h
    | cell b => exact h
    | event j =>
      have hjk : j ≠ k := fun e => hne (by rw [e])
      simp only [PlaceHolds, putPlace, State.setNvEvents_nvEvents, List.getElem?_modify_ne _ _ hjk] at h ⊢
      exact h

/-- Putting a value in an aligned cell keeps memory's canonical form. -/
theorem memWf_putPlace {p : Place} {v w : Word} {s : State} (h : PlaceHolds p w s) (hm : memWf s.mem = true) :
    memWf (putPlace p v s).mem = true := by
  cases p with
  | x t =>
    obtain ⟨y, hy⟩ := writeX_shape s t v
    rw [putPlace, hy]
    exact hm
  | maskEL1 => exact hm
  | cell a => exact memWf_memWrite8 _ _ hm h.2.1
  | event k => exact hm

/-! Refreshing what places hold. -/

/-- A place that holds no result of an open access keeps its value. -/
theorem placeHolds_refreshHeld_other {before after : List (Nat × Word)} {p : Place} {v : Word} (l : List Held) :
    ∀ s : State, (∀ h ∈ l, h.place ≠ p) → (l.map (·.place)).Nodup →
      (∀ h ∈ l, PlaceHolds h.place (seenAt before h.id) s) → PlaceHolds p v s →
      PlaceHolds p v (refreshHeld before after l s) := by
  induction l with
  | nil => exact fun s _ _ _ hp => hp
  | cons h rest ih =>
    intro s hne hnd hb hp
    simp only [List.map_cons, List.nodup_cons, List.mem_map, not_exists, not_and] at hnd
    simp only [refreshHeld]
    have hh := hb h (by simp)
    refine ih _ (fun a ha => hne a (by simp [ha])) hnd.2 (fun a ha => ?_) ?_
    · split
      · exact hb a (by simp [ha])
      · exact placeHolds_putPlace_ne (hb a (by simp [ha])) hh fun e => hnd.1 a ha e.symm
    · split
      · exact hp
      · exact placeHolds_putPlace_ne hp hh (hne h (by simp))

/-- A place that holds the result of an open access holds its new result afterwards. -/
theorem placeHolds_refreshHeld {before after : List (Nat × Word)} {a : Held} (l : List Held) :
    ∀ s : State, (l.map (·.place)).Nodup → (∀ h ∈ l, PlaceHolds h.place (seenAt before h.id) s) → a ∈ l →
      PlaceHolds a.place (seenAt after a.id) (refreshHeld before after l s) := by
  induction l with
  | nil => exact fun s _ _ h => by cases h
  | cons h rest ih =>
    intro s hnd hb hmem
    simp only [List.map_cons, List.nodup_cons, List.mem_map, not_exists, not_and] at hnd
    simp only [refreshHeld]
    have hh := hb h (by simp)
    have hrest : ∀ b ∈ rest, PlaceHolds b.place (seenAt before b.id)
        (if seenAt after h.id = seenAt before h.id then s else putPlace h.place (seenAt after h.id) s) := by
      intro b hbm
      split
      · exact hb b (by simp [hbm])
      · exact placeHolds_putPlace_ne (hb b (by simp [hbm])) hh fun e => hnd.1 b hbm e.symm
    rcases List.mem_cons.1 hmem with rfl | hr
    · refine placeHolds_refreshHeld_other rest _ (fun b hbm e => hnd.1 b hbm e) hnd.2 hrest ?_
      split
      · next he => rw [he]; exact hh
      · exact placeHolds_putPlace_self hh
    · exact ih _ hnd.2 hrest hr

/-- Refreshing keeps memory's canonical form. -/
theorem memWf_refreshHeld {before after : List (Nat × Word)} (l : List Held) :
    ∀ s : State, (l.map (·.place)).Nodup → (∀ h ∈ l, PlaceHolds h.place (seenAt before h.id) s) →
      memWf s.mem = true → memWf (refreshHeld before after l s).mem = true := by
  induction l with
  | nil => exact fun s _ _ h => h
  | cons h rest ih =>
    intro s hnd hb hm
    simp only [List.map_cons, List.nodup_cons, List.mem_map, not_exists, not_and] at hnd
    simp only [refreshHeld]
    have hh := hb h (by simp)
    refine ih _ hnd.2 (fun a ha => ?_) ?_
    · split
      · exact hb a (by simp [ha])
      · exact placeHolds_putPlace_ne (hb a (by simp [ha])) hh fun e => hnd.1 a ha e.symm
    · split
      · exact hm
      · exact memWf_putPlace hh hm

/-! Which places hold the results of open accesss. -/

theorem heldAt_some {p : Place} {id : Nat} (l : List Held) (h : heldAt p l = some id) : ⟨p, id⟩ ∈ l := by
  induction l with
  | nil => cases h
  | cons a rest ih =>
    simp only [heldAt] at h
    split at h
    · next hp =>
      obtain ⟨q, k⟩ := a
      cases h
      subst hp
      exact List.mem_cons_self
    · exact List.mem_cons_of_mem _ (ih h)

/-- After a place gets a value it holds the result of `r`, if that is an open access; every other place holds what it
did. -/
theorem mem_hold {p : Place} {r : Option Nat} {l : List Held} {a : Held} :
    a ∈ hold p r l ↔ (a.place = p ∧ r = some a.id) ∨ (a.place ≠ p ∧ a ∈ l) := by
  obtain ⟨q, k⟩ := a
  cases r with
  | none => simp [hold, and_comm]
  | some id =>
    simp only [hold, Option.map_some, Option.toList_some, List.cons_append, List.nil_append, List.mem_cons,
      List.mem_filter, decide_eq_true_eq, Held.mk.injEq, Option.some.injEq]
    constructor
    · rintro (⟨rfl, rfl⟩ | ⟨h, hn⟩)
      · exact .inl ⟨rfl, rfl⟩
      · exact .inr ⟨hn, h⟩
    · rintro (⟨rfl, rfl⟩ | ⟨hn, h⟩)
      · exact .inl ⟨rfl, rfl⟩
      · exact .inr ⟨h, hn⟩

/-- A place still holds the result of one read at most. -/
theorem nodup_hold {p : Place} {r : Option Nat} {l : List Held} (h : (l.map (·.place)).Nodup) :
    ((hold p r l).map (·.place)).Nodup := by
  have hf : ((l.filter fun h => decide (h.place ≠ p)).map (·.place)).Nodup :=
    h.sublist (List.filter_sublist.map _)
  cases r with
  | none => exact hf
  | some id =>
    simp only [hold, Option.map_some, Option.toList_some, List.cons_append, List.nil_append, List.map_cons,
      List.nodup_cons, List.mem_map, List.mem_filter, decide_eq_true_eq, not_exists, not_and]
    exact ⟨fun a ha => ha.2, hf⟩

/-! Each operation keeps the window well formed. -/

/-- With no access open, and no place said to hold a result, there is nothing to say. -/
theorem windowInv_of_empty {s : State} (h : s.window.order = []) (hh : s.window.held = []) : WindowInv s where
  base hne := absurd h hne
  numbers := by simp [h]
  below := by simp [h]
  inOrder := by simp [h]
  needs := by simp [h]
  heldBelow := by simp [hh]
  places := by simp [hh]
  results := by simp [hh]
  agrees hne := absurd h hne

/-- What the window is held against: the configuration, the register and what its places hold. -/
theorem WindowInv.congr {s s' : State} (h : WindowInv s) (hc : s'.cfg = s.cfg)
    (hm : s'.sctlr2maskEL2 = s.sctlr2maskEL2) (hb : s'.window.base = s.window.base)
    (ho : s'.window.order = s.window.order) (hh : s'.window.held = s.window.held)
    (hp : ∀ a ∈ s.window.held, ∀ v, PlaceHolds a.place v s → PlaceHolds a.place v s') : WindowInv s' where
  base := by rw [ho, hb, hc]; exact h.base
  numbers := by rw [ho]; exact h.numbers
  below := by rw [ho]; exact h.below
  inOrder := by rw [ho]; exact h.inOrder
  needs := by rw [ho]; exact h.needs
  heldBelow := by rw [hh, ho]; exact h.heldBelow
  places := by rw [hh]; exact h.places
  results := by
    rw [hh, hc, hb, ho]
    exact fun a ha => hp a ha _ (h.results a ha)
  agrees := by unfold WindowAgrees; rw [ho, hb, hc, hm]; exact h.agrees

/-- A place gets the result of an open access, or another value: the window is well formed afterwards. -/
theorem windowInv_hold {s s' : State} {p : Place} {r : Option Nat} (h : WindowInv s) (hc : s'.cfg = s.cfg)
    (hm : s'.sctlr2maskEL2 = s.sctlr2maskEL2) (hb : s'.window.base = s.window.base)
    (ho : s'.window.order = s.window.order) (hh : s'.window.held = hold p r s.window.held)
    (hr : ∀ id, r = some id → id < s.window.order.length ∧
      PlaceHolds p (seenAt (replay s.cfg s.window.base s.window.order).seen id) s')
    (hp : ∀ q v, q ≠ p → PlaceHolds q v s → PlaceHolds q v s') : WindowInv s' where
  base := by rw [ho, hb, hc]; exact h.base
  numbers := by rw [ho]; exact h.numbers
  below := by rw [ho]; exact h.below
  inOrder := by rw [ho]; exact h.inOrder
  needs := by rw [ho]; exact h.needs
  heldBelow := by
    rw [hh, ho]
    intro a ha
    rcases mem_hold.1 ha with ⟨_, hid⟩ | ⟨_, ha⟩
    · exact (hr _ hid).1
    · exact h.heldBelow a ha
  places := by rw [hh]; exact nodup_hold h.places
  results := by
    rw [hh, hc, hb, ho]
    intro a ha
    rcases mem_hold.1 ha with ⟨hpl, hid⟩ | ⟨hne, ha⟩
    · rw [hpl]; exact (hr _ hid).2
    · exact hp _ _ hne (h.results a ha)
  agrees := by unfold WindowAgrees; rw [ho, hb, hc, hm]; exact h.agrees

/-- The open access a place holds the result of is one of the window's, and what it gives is there. -/
theorem readHeldAt_some {s : State} (h : WindowInv s) {p : Place} {id : Nat} (hid : readHeldAt p s = some id) :
    id < s.window.order.length ∧
      PlaceHolds p (seenAt (replay s.cfg s.window.base s.window.order).seen id) s :=
  ⟨h.heldBelow _ (heldAt_some _ hid), h.results _ (heldAt_some _ hid)⟩

/-- `X[t]` gets the result of an open access, or another value. -/
theorem windowInv_writeX {s : State} {t : RegNum} {r : Option Nat} {v : Word} (h : WindowInv s)
    (hr : ∀ id, r = some id → id < s.window.order.length ∧
      v = seenAt (replay s.cfg s.window.base s.window.order).seen id) :
    WindowInv (writeX (setHeld (holdX t r s.window.held) s) t v) := by
  by_cases ht : t = 31#5
  · subst ht
    exact h.congr rfl rfl rfl rfl rfl fun _ _ _ hp => hp
  · obtain ⟨x, hx⟩ := writeX_shape (setHeld (holdX t r s.window.held) s) t v
    refine windowInv_hold (p := .x t) (r := r) h (by rw [hx]; rfl) (by rw [hx]; rfl) (by rw [hx]; rfl)
      (by rw [hx]; rfl) (by rw [hx]; simp [setHeld, holdX, ht]) (fun id hid => ⟨(hr id hid).1, ht, ?_⟩)
      fun q w hq hp => ?_
    · rw [readX_writeX, if_pos ⟨rfl, ht⟩]
      exact (hr id hid).2
    · refine PlaceHolds.congr (s := s) hp (by rw [hx]; rfl) (fun u hu => ?_) (by rw [hx]; rfl)
        (by rw [hx]; rfl) (by rw [hx]; rfl)
      rw [readX_writeX, if_neg fun e => hq (by rw [hu, e.1])]
      rfl

/-- SCTLR2MASK_EL1 gets the result of an open access, or another value. -/
theorem windowInv_setMaskEL1 {s : State} {v : Word} {r : Option Nat} (h : WindowInv s)
    (hr : ∀ id, r = some id → id < s.window.order.length ∧
      v = seenAt (replay s.cfg s.window.base s.window.order).seen id) :
    WindowInv (setHeld (hold .maskEL1 r s.window.held) (s.setMaskEL1 v)) := by
  refine windowInv_hold (p := .maskEL1) (r := r) h rfl rfl rfl rfl rfl (fun id hid => hr id hid)
    fun q w hq hp => ?_
  cases q with
  | x u => exact hp
  | maskEL1 => exact absurd rfl hq
  | cell a => exact hp
  | event k => exact hp

/-- The address of an admitted cell is a multiple of 8. -/
theorem nvAddr_aligned {s : State} (h : nvCheck s = none) : nvAddr s % 8 = 0 := by
  simp only [nvCheck] at h
  split_ifs at h with h1
  simp only [nvAddr]
  omega

/-- An event is recorded, which holds the result of an open access, or another value. -/
theorem windowInv_record {s : State} {e : NvEvent} {r : Option Nat} (h : WindowInv s)
    (hr : ∀ id, r = some id → id < s.window.order.length ∧
      e.value = seenAt (replay s.cfg s.window.base s.window.order).seen id) :
    WindowInv (setHeld (hold (.event s.nvEvents.length) r s.window.held) (s.setNvEvents (s.nvEvents ++ [e]))) := by
  refine windowInv_hold (p := .event s.nvEvents.length) (r := r) h rfl rfl rfl rfl rfl
    (fun id hid => ⟨(hr id hid).1, ?_⟩) fun q w hq hp => ?_
  · simp [PlaceHolds, setHeld, (hr id hid).2]
  · cases q with
    | x u => exact hp
    | maskEL1 => exact hp
    | cell a => exact hp
    | event k =>
      have hk : k < s.nvEvents.length := by
        by_contra hge
        simp only [PlaceHolds, List.getElem?_eq_none (not_lt.1 hge)] at hp
        cases hp
      simp only [PlaceHolds, setHeld, State.setWindow_nvEvents, State.setNvEvents_nvEvents,
        List.getElem?_append_left hk] at hp ⊢
      exact hp

/-- The admitted cell gets the result of an open access, or another value. -/
theorem windowInv_writeCell {s : State} {v : Word} {r : Option Nat} (h : WindowInv s) (hn : nvCheck s = none)
    (hr : ∀ id, r = some id → id < s.window.order.length ∧
      v = seenAt (replay s.cfg s.window.base s.window.order).seen id) :
    WindowInv (setHeld (hold (.cell (nvAddr s)) r s.window.held)
      (s.setMem (memWrite8 s.cfg.nvBigEndian s.mem (nvAddr s) v))) := by
  have ha := nvAddr_aligned hn
  refine windowInv_hold (p := .cell (nvAddr s)) (r := r) h rfl rfl rfl rfl rfl
    (fun id hid => ⟨(hr id hid).1, ha, nvAddr_fits hn, fun free => ?_⟩) fun q w hq hp => ?_
  · exact (memRead8_memWrite8 _ _ _ _ _).trans (hr id hid).2
  · cases q with
    | x u => exact hp
    | maskEL1 => exact hp
    | cell a =>
      refine ⟨hp.1, hp.2.1, fun free => ?_⟩
      have hne : a ≠ nvAddr s := fun e => hq (by rw [e])
      have := hp.1
      exact (memRead8_memWrite8_apart v free (by omega)).trans (hp.2.2 free)
    | event k => exact hp

/-- Another agent's write of the cell keeps the window. -/
theorem windowInv_agentWrite {s : State} {v : Word} (h : WindowInv s) (hn : nvCheck s = none) :
    WindowInv (setHeld (hold (.cell (nvAddr s)) none s.window.held)
      ((s.setMem (memWrite8 s.cfg.nvBigEndian s.mem (nvAddr s) v)).setNvEvents
        (s.nvEvents ++ [.agentWrite (nvAddr s) v]))) := by
  have hw := windowInv_writeCell (v := v) (r := none) h hn fun id hid => by cases hid
  refine hw.congr rfl rfl rfl rfl rfl fun a _ w hp => ?_
  cases hpl : a.place with
  | x u => rw [hpl] at hp; exact hp
  | maskEL1 => rw [hpl] at hp; exact hp
  | cell b => rw [hpl] at hp; exact hp
  | event k =>
    rw [hpl] at hp
    have hk : k < s.nvEvents.length := by
      by_contra hge
      simp only [PlaceHolds, setHeld, State.setWindow_nvEvents, State.setMem_nvEvents,
        List.getElem?_eq_none (not_lt.1 hge)] at hp
      cases hp
    simp only [PlaceHolds, setHeld, State.setWindow_nvEvents, State.setMem_nvEvents,
      State.setNvEvents_nvEvents, List.getElem?_append_left hk] at hp ⊢
    exact hp

/-- The next number is above all others. -/
theorem nextAccess_fresh {s : State} (h : WindowInv s) (n : RegName) (k : AccessKind) {a : Access}
    (ha : a ∈ s.window.order) : a.id ≠ (nextAccess n k s).id ∧ a.needs ≠ some (nextAccess n k s).id := by
  refine ⟨fun e => ?_, fun e => ?_⟩
  · have := h.below a ha
    simp only [nextAccess] at e
    omega
  · have := h.needs a ha _ e
    simp only [nextAccess] at this
    omega

/-- An access put where none by its name is passed over leaves those by one name in program order. -/
theorem inOrder_insert {s : State} {n : RegName} {k : AccessKind} {back : Nat} (h : WindowInv s)
    (hback : back ≤ freedom n s.window.order) (m : RegName) :
    (((insertAccess back (nextAccess n k s) (openWindow s)).order.filter fun a => decide (a.name = m)).map
      (·.id)).Pairwise (· < ·) := by
  have hm := h.inOrder m
  rw [← List.take_append_drop (s.window.order.length - back) s.window.order] at hm
  simp only [insertAccess, openWindow_order, List.filter_append, List.filter_cons, nextAccess] at hm ⊢
  by_cases hn : n = m
  · subst hn
    have hd : ((s.window.order.drop (s.window.order.length - back)).filter
        fun a => decide (a.name = n)) = [] :=
      List.filter_eq_nil_iff.2 fun a ha => by simpa using name_ne_of_mem_drop hback ha
    rw [hd, List.append_nil] at hm
    simp only [decide_true, if_true, hd, List.map_append, List.map_cons, List.map_nil]
    refine List.pairwise_append.2 ⟨hm, by simp, fun x hx y hy => ?_⟩
    obtain ⟨a, ha, rfl⟩ := List.mem_map.1 hx
    rw [List.mem_singleton.1 hy]
    exact h.below a (List.mem_of_mem_take (List.mem_of_mem_filter ha))
  · simpa [hn] using hm

/-- What holds of the window with a new access put anywhere, which holds what it held. -/
theorem windowInv_insert {s s' : State} {n : RegName} {k : AccessKind} (back : Nat) (h : WindowInv s)
    (hs : Storable s.cfg s.sctlr2maskEL2) (hback : back ≤ freedom n s.window.order) (hc : s'.cfg = s.cfg)
    (hw : s'.window = insertAccess back (nextAccess n k s) (openWindow s))
    (needs : ∀ id, (nextAccess n k s).needs = some id → id < s.window.order.length)
    (results : ∀ a ∈ s.window.held, PlaceHolds a.place
      (seenAt (replay s.cfg (openWindow s).base
        (insertAccess back (nextAccess n k s) (openWindow s)).order).seen a.id) s')
    (agrees : (replay s.cfg (openWindow s).base
      (insertAccess back (nextAccess n k s) (openWindow s)).order).mask = s'.sctlr2maskEL2) :
    WindowInv s' := by
  have hp := insertAccess_perm back (nextAccess n k s) (openWindow s)
  rw [openWindow_order] at hp
  have hmem : ∀ a, a ∈ (insertAccess back (nextAccess n k s) (openWindow s)).order ↔
      a = nextAccess n k s ∨ a ∈ s.window.order := fun a => by rw [hp.mem_iff, List.mem_cons]
  have hlen : (insertAccess back (nextAccess n k s) (openWindow s)).order.length =
      s.window.order.length + 1 := by simpa using hp.length_eq
  constructor
  · intro _
    rw [hw, hc]
    exact openWindow_base_storable hs h
  · rw [hw]
    refine (hp.map _).nodup_iff.2 ?_
    simp only [List.map_cons, List.nodup_cons, List.mem_map, not_exists, not_and]
    exact ⟨fun a ha => (nextAccess_fresh h n k ha).1, h.numbers⟩
  · rw [hw]
    intro a ha
    rw [hlen]
    rcases (hmem a).1 ha with rfl | ha
    · simp [nextAccess]
    · exact Nat.lt_succ_of_lt (h.below a ha)
  · rw [hw]
    exact inOrder_insert h hback
  · rw [hw]
    intro a ha id hid
    rw [hlen]
    rcases (hmem a).1 ha with rfl | ha
    · exact Nat.lt_succ_of_lt (needs id hid)
    · exact Nat.lt_succ_of_lt (h.needs a ha id hid)
  · rw [hw, insertAccess_held, openWindow_held h]
    intro a ha
    rw [hlen]
    exact Nat.lt_succ_of_lt (h.heldBelow a ha)
  · rw [hw, insertAccess_held, openWindow_held h]
    exact h.places
  · rw [hw, hc, insertAccess_held, openWindow_held h]
    exact results
  · rw [WindowAgrees, hw, hc]
    exact fun _ => agrees

/-- An access that is no write, put among the others: no place has anything new. -/
theorem windowInv_insert_nonWrite {s : State} {n : RegName} {k : AccessKind} (back : Nat) (h : WindowInv s)
    (hs : Storable s.cfg s.sctlr2maskEL2) (hback : back ≤ freedom n s.window.order)
    (hk : (nextAccess n k s).isWrite = false)
    (hn : ∀ id, (nextAccess n k s).needs = some id → id < s.window.order.length) :
    WindowInv (s.setWindow (insertAccess back (nextAccess n k s) (openWindow s))) := by
  have hsame := replay_insert_nonWrite (c := s.cfg) (a := nextAccess n k s) back (openWindow s) hk
    fun b hb => (nextAccess_fresh h n k (by simpa using hb)).2
  refine windowInv_insert (s := s) (n := n) (k := k) back h hs hback rfl rfl
    hn (fun a ha => ?_) ?_
  · rw [hsame.2 a.id (Nat.ne_of_lt (h.heldBelow a ha)), openWindow_order]
    exact openWindow_results h ha
  · rw [hsame.1, openWindow_order, openWindow_agrees h.agrees]
    rfl

/-- A lock test put among the accesses. -/
theorem windowInv_testMaskAt {s : State} {n : RegName} (back : Nat) (h : WindowInv s)
    (hs : Storable s.cfg s.sctlr2maskEL2) (hback : back ≤ freedom n s.window.order) :
    WindowInv (testMaskAt back n s).2 :=
  windowInv_insert_nonWrite back h hs hback rfl fun _ hid => by cases hid

/-- An access of another location put among the accesses, if what it uses is one of their results. -/
theorem windowInv_openElsewhere {s : State} {k : AccessKind} (h : WindowInv s)
    (hs : Storable s.cfg s.sctlr2maskEL2) (hk : (nextAccess .sctlr2maskEL1 k s).isWrite = false)
    (hn : ∀ id, (nextAccess .sctlr2maskEL1 k s).needs = some id → id < s.window.order.length) :
    WindowInv (openElsewhere k s) := by
  unfold openElsewhere
  split
  · exact h
  · refine windowInv_insert_nonWrite _ h hs ?_ hk hn
    rw [List.getLastD_eq_getLast?]
    cases hl : (placesFor s.cfg (openWindow s) (nextAccess .sctlr2maskEL1 k s)).getLast? with
    | none => exact Nat.zero_le _
    | some back =>
      have := le_freedom_of_mem_placesFor (List.mem_of_getLast? hl)
      rwa [openWindow_order] at this

/-- The lock test of SCTLR2MASK_EL1 put among the accesses. -/
theorem windowInv_lockTestEL1 {s : State} (h : WindowInv s) (hs : Storable s.cfg s.sctlr2maskEL2) :
    WindowInv (lockTestEL1 s).2 := by
  refine windowInv_openElsewhere h hs rfl fun id hid => ?_
  simp only [nextAccess, Access.needs] at hid
  split at hid
  · exact (readHeldAt_some h hid).1
  · cases hid

/-! The accesses elsewhere. -/

/-- An access elsewhere moves no result. -/
theorem openElsewhere_held (k : AccessKind) (s : State) :
    (openElsewhere k s).window.held = s.window.held := by
  unfold openElsewhere
  split
  · rfl
  · next hne => simp [openWindow, hne]

/-- Where the value of a place comes from is one of the open accesses, which gives it, or the value itself. -/
theorem sourceAt_spec {s : State} {p : Place} {v : Word} (h : WindowInv s)
    (hv : ∀ w, PlaceHolds p w s → w = v) :
    (∀ id, sourceAt p v s = .ofRead id → id < s.window.order.length) ∧
      sourceValue (replay s.cfg s.window.base s.window.order) (sourceAt p v s) = v := by
  unfold sourceAt
  cases hid : readHeldAt p s with
  | none => exact ⟨fun id hid => (by cases hid), rfl⟩
  | some id =>
    obtain ⟨hl, hp⟩ := readHeldAt_some h hid
    exact ⟨fun k hk => by cases hk; exact hl, hv _ hp⟩

/-- Likewise of the operand of an MSR. -/
theorem sourceOf_spec {s : State} (h : WindowInv s) (t : RegNum) :
    (∀ id, sourceOf t s = .ofRead id → id < s.window.order.length) ∧
      sourceValue (replay s.cfg s.window.base s.window.order) (sourceOf t s) = readX s t :=
  sourceAt_spec h fun _ hp => hp.2.symm

/-- And of what a read of the cell answers. -/
theorem nvSource_spec {s : State} (h : WindowInv s) :
    (∀ id, nvSource s = .ofRead id → id < s.window.order.length) ∧
      sourceValue (replay s.cfg s.window.base s.window.order) (nvSource s) = nvValue s := by
  unfold nvSource
  split
  · next hf =>
    refine sourceAt_spec h fun w hp => ?_
    rw [nvValue, if_pos hf]
    exact (hp.2.2 _).symm
  · exact ⟨fun id hid => (by cases hid), rfl⟩

/-- What an access uses is the same before as many of the latest accesses as it may be put before. -/
theorem sourceValue_prefix {s : State} (h : WindowInv s) {k : AccessKind} {src : WriteSource} {back : Nat}
    (hk : (nextAccess .sctlr2maskEL1 k s).needs = (match src with | .word _ => none | .ofRead id => some id))
    (hb : back ∈ placesFor s.cfg s.window (nextAccess .sctlr2maskEL1 k s)) :
    sourceValue (replay s.cfg s.window.base (s.window.order.take (s.window.order.length - back))) src =
      sourceValue (replay s.cfg s.window.base s.window.order) src := by
  cases src with
  | word v => rfl
  | ofRead m =>
    simp only [placesFor, List.mem_filter, mayPutAt, Bool.and_eq_true] at hb
    have hready := hb.2.1
    simp only [sourceReady, hk, Option.all_some, List.any_eq_true, decide_eq_true_eq] at hready
    obtain ⟨b, hbm, hbid⟩ := hready
    have hn := h.numbers
    rw [← List.take_append_drop (s.window.order.length - back) s.window.order, List.map_append,
      List.nodup_append] at hn
    conv_rhs => rw [← List.take_append_drop (s.window.order.length - back) s.window.order, replay_append]
    refine (seenAt_foldl _ fun c hc e => ?_).symm
    exact hn.2.2 _ (List.mem_map_of_mem hbm) _ (List.mem_map_of_mem hc) (hbid.trans e.symm)

/-- What an access elsewhere gives, if it is among the open ones. -/
theorem openElsewhere_result {s : State} {src : WriteSource} {v : Word} (h : WindowInv s)
    (hv : sourceValue (replay s.cfg s.window.base s.window.order) src = v) (id : Nat)
    (hid : elsewhereId s = some id) :
    id < (openElsewhere (.elsewhere src) s).window.order.length ∧
      v = seenAt (replay (openElsewhere (.elsewhere src) s).cfg (openElsewhere (.elsewhere src) s).window.base
        (openElsewhere (.elsewhere src) s).window.order).seen id := by
  unfold elsewhereId at hid
  split at hid
  · cases hid
  · next hne =>
    cases hid
    have hw : openWindow s = s.window := by rw [openWindow, if_neg hne]
    rw [openElsewhere, if_neg hne, hw]
    generalize hb : (placesFor s.cfg s.window (nextAccess .sctlr2maskEL1 (.elsewhere src) s)).getLastD 0 = back
    have hpre : sourceValue (replay s.cfg s.window.base
        (s.window.order.take (s.window.order.length - back))) src = v := by
      rw [← hv]
      rw [List.getLastD_eq_getLast?] at hb
      cases hl : (placesFor s.cfg s.window (nextAccess .sctlr2maskEL1 (.elsewhere src) s)).getLast? with
      | none =>
        rw [hl] at hb
        subst hb
        simp
      | some k =>
        rw [hl] at hb
        subst hb
        exact sourceValue_prefix h (by cases src <;> rfl) (List.mem_of_getLast? hl)
    refine ⟨?_, ?_⟩
    · have hl := (insertAccess_perm back (nextAccess .sctlr2maskEL1 (.elsewhere src) s) s.window).length_eq
      show _ < (insertAccess back (nextAccess .sctlr2maskEL1 (.elsewhere src) s) s.window).order.length
      rw [hl]
      exact Nat.lt_succ_self _
    · show v = seenAt (replay s.cfg s.window.base
        (insertAccess back (nextAccess .sctlr2maskEL1 (.elsewhere src) s) s.window).order).seen _
      rw [insertAccess, replay_append, List.foldl_cons,
        seenAt_foldl (id := s.window.order.length) _ fun b hbm =>
          (nextAccess_fresh h .sctlr2maskEL1 (.elsewhere src) (List.mem_of_mem_drop hbm)).1]
      simp [performAccess, seenAt, nextAccess, hpre]

/-- An access elsewhere whose source is known: the window is well formed, and its result is there. -/
theorem windowInv_elsewhere {s : State} {src : WriteSource} {v : Word} (h : WindowInv s)
    (hs : Storable s.cfg s.sctlr2maskEL2)
    (hsrc : (∀ id, src = .ofRead id → id < s.window.order.length) ∧
      sourceValue (replay s.cfg s.window.base s.window.order) src = v) :
    WindowInv (openElsewhere (.elsewhere src) s) ∧ ∀ id, elsewhereId s = some id →
      id < (openElsewhere (.elsewhere src) s).window.order.length ∧
        v = seenAt (replay (openElsewhere (.elsewhere src) s).cfg
          (openElsewhere (.elsewhere src) s).window.base
          (openElsewhere (.elsewhere src) s).window.order).seen id := by
  refine ⟨windowInv_openElsewhere h hs rfl fun id hid => ?_, openElsewhere_result h hsrc.2⟩
  cases src with
  | word w => cases hid
  | ofRead m => exact hsrc.1 id (by simpa [nextAccess, Access.needs] using hid)

/-- `X[t] <- SCTLR2MASK_EL1` keeps the window. -/
theorem windowInv_readMaskEL1 {s : State} (h : WindowInv s) (hs : Storable s.cfg s.sctlr2maskEL2) (t : RegNum) :
    WindowInv (writeX (readMaskEL1 t s).2 t (readMaskEL1 t s).1) := by
  obtain ⟨h1, hr⟩ := windowInv_elsewhere h hs (sourceAt_spec (p := .maskEL1) h fun _ hp => hp.symm)
  simp only [readMaskEL1]
  rw [← openElsewhere_held (.elsewhere (sourceAt .maskEL1 s.sctlr2maskEL1 s)) s]
  exact windowInv_writeX h1 hr

/-- `SCTLR2MASK_EL1 <- X[t]` keeps the window. -/
theorem windowInv_writeMaskEL1 {s : State} (h : WindowInv s) (hs : Storable s.cfg s.sctlr2maskEL2)
    (t : RegNum) : WindowInv (writeMaskEL1 t s) := by
  obtain ⟨h1, hr⟩ := windowInv_elsewhere h hs (sourceOf_spec h t)
  rw [writeMaskEL1, ← openElsewhere_held (.elsewhere (sourceOf t s)) s]
  exact windowInv_setMaskEL1 h1 hr

/-- `NVMem[0x328] <- X[t]` keeps the window. -/
theorem windowInv_nvWrite {s : State} (h : WindowInv s) (hs : Storable s.cfg s.sctlr2maskEL2)
    (hn : nvCheck s = none) (t : RegNum) : WindowInv (nvWrite t s) := by
  obtain ⟨h1, hr⟩ := windowInv_elsewhere h hs (sourceOf_spec h t)
  have hh := openElsewhere_held (.elsewhere (sourceOf t s)) s
  rw [nvWrite]
  obtain ⟨w, hw⟩ := openElsewhere_shape s (.elsewhere (sourceOf t s))
  rw [hw] at h1 hr hh ⊢
  rw [← hh]
  exact windowInv_record (e := .memWrite (nvAddr s) (readX s t))
    (windowInv_writeCell (s := s.setWindow w) h1 hn hr) hr

/-- `X[t] <- NVMem[0x328]` keeps the window. -/
theorem windowInv_nvRead {s : State} (h : WindowInv s) (hs : Storable s.cfg s.sctlr2maskEL2) (t : RegNum) :
    WindowInv (writeX (nvRead t s).2 t (nvRead t s).1) := by
  obtain ⟨h1, hr⟩ := windowInv_elsewhere h hs (nvSource_spec h)
  have hh := openElsewhere_held (.elsewhere (nvSource s)) s
  simp only [nvRead]
  obtain ⟨w, hw⟩ := openElsewhere_shape s (.elsewhere (nvSource s))
  rw [hw] at h1 hr hh ⊢
  rw [← hh]
  have hd : WindowInv (setHeld (hold (.event s.nvEvents.length) (elsewhereId s) w.held)
      ((drawWord (s.setWindow w)).2.setNvEvents (s.nvEvents ++ [.memRead (nvAddr s) (nvValue s)]))) :=
    (windowInv_record (s := s.setWindow w) (e := .memRead (nvAddr s) (nvValue s)) h1 hr).congr
      rfl rfl rfl rfl rfl fun _ _ _ hp => hp
  exact windowInv_writeX hd hr

/-- A read put among the accesses, with its result written to `X[t]`. -/
theorem windowInv_readMaskAt {s : State} {n : RegName} {t : RegNum} (back : Nat) (h : WindowInv s)
    (hs : Storable s.cfg s.sctlr2maskEL2) (hback : back ≤ freedom n s.window.order) :
    WindowInv (writeX (readMaskAt back n t s).2 t (readMaskAt back n t s).1) := by
  have hi := windowInv_insert_nonWrite (n := n) (k := .read) back h hs hback rfl fun _ hid => by cases hid
  refine windowInv_writeX (r := some s.window.order.length) hi fun id hid => ?_
  cases hid
  refine ⟨?_, ?_⟩
  · have hl := (insertAccess_perm back (nextAccess n .read s) (openWindow s)).length_eq
    simp only [List.length_cons, openWindow_order] at hl
    show _ < (insertAccess back (nextAccess n .read s) (openWindow s)).order.length
    omega
  · exact (seenAt_insert_read back (openWindow s) fun b hb =>
      (nextAccess_fresh h n .read (by simpa using hb)).1).symm

/-- A write put among the accesses, the results of the reads it precedes refreshed. -/
theorem windowInv_writeMaskAt {s : State} {n : RegName} {src : WriteSource} (back : Nat) (h : WindowInv s)
    (hs : Storable s.cfg s.sctlr2maskEL2) (hback : back ≤ freedom n s.window.order)
    (hsrc : ∀ id, src = .ofRead id → id < s.window.order.length) :
    WindowInv (writeMaskAt back (nextAccess n (.write src) s) s) := by
  obtain ⟨x, m1, mem, ev, hx⟩ := refreshHeld_shape
    (replay s.cfg (openWindow s).base (openWindow s).order).seen
    (replay s.cfg (openWindow s).base
      (insertAccess back (nextAccess n (.write src) s) (openWindow s)).order).seen (openWindow s).held
    ((s.setWindow (insertAccess back (nextAccess n (.write src) s) (openWindow s))).setMaskEL2
      (replay s.cfg (openWindow s).base
        (insertAccess back (nextAccess n (.write src) s) (openWindow s)).order).mask)
  refine windowInv_insert (s := s) (n := n) (k := .write src) back h hs hback
    (by rw [writeMaskAt, hx]; rfl) (by rw [writeMaskAt, hx]; rfl) (fun id hid => ?_) (fun a ha => ?_)
    (by rw [writeMaskAt, hx]; rfl)
  · cases src with
    | word v => cases hid
    | ofRead m => exact hsrc id (by simpa [nextAccess, Access.needs] using hid)
  · rw [writeMaskAt]
    refine placeHolds_refreshHeld _ _ (by rw [openWindow_held h]; exact h.places) (fun b hb => ?_)
      (by rw [openWindow_held h]; exact ha)
    rw [openWindow_held h] at hb
    rw [openWindow_order]
    exact openWindow_results h hb

/-- It keeps memory's canonical form. -/
theorem memWf_writeMaskAt {s : State} {a : Access} (back : Nat) (h : WindowInv s) (hm : memWf s.mem = true) :
    memWf (writeMaskAt back a s).mem = true := by
  rw [writeMaskAt]
  refine memWf_refreshHeld _ _ (by rw [openWindow_held h]; exact h.places) (fun b hb => ?_) hm
  rw [openWindow_held h] at hb
  rw [openWindow_order]
  exact openWindow_results h hb

end Sys2Proof.Machine
end

