-- ==== Sys2Proof/Tests/Slice0.lean ====
section
/-! SUPPORT. The model's own tests. Expected results come from spec/95_test_vectors.md (the section and row stand
in each test's comment) or are computed by hand from the rule named. `witness_<Statement>…` shows that the
hypotheses of a statement can be met together. -/

namespace Sys2Proof.Tests

open Sys2Proof Sys2Proof.Machine Sys2Proof.Claims

/-! Small states. -/

/-- The base configuration and inputs of 95_test_vectors.md section 2.0. -/
def base (el : EL) : State := { State.reset with cfg := Config.base, pstate := ⟨el, false⟩ }

/-- Sets SCTLR2MASK_EL2 and SCTLR2MASK_EL1. -/
def masks (m2 m1 : Word) (s : State) : State := { s with sctlr2maskEL2 := m2, sctlr2maskEL1 := m1 }

/-- Sets the run-time inputs. -/
def inputs (f : Env → Env) (s : State) : State := { s with env := f s.env }

/-- Sets the configuration. -/
def config (f : Config → Config) (s : State) : State := { s with cfg := f s.cfg }

/-- Host mode at EL2: the two inputs agree. -/
def hosted : Env → Env := fun e => { e with inHostEL2 := true, e2hEffective := 1 }

/-- `nvx = '111'`: the EL1 name is redirected to memory. -/
def nested : Env → Env := fun e => { e with nvx := 0b111 }

/-- Exceptions are taken (rule R102). -/
def taken : Config → Config := fun c => { c with onEvent := .enter }

/-- Something of the next state, where there is one. -/
def after {α : Type} (f : State → α) : Host.Outcome State Fault Refusal → Option α
  | .next s => some (f s)
  | .fault _ => none
  | .refused _ => none

/-- The fault, where there is one. -/
def stop : Host.Outcome State Fault Refusal → Option Fault
  | .next _ => none
  | .fault f => some f
  | .refused _ => none

/-- The refusal, where there is one. -/
def refusal : Host.Outcome State Fault Refusal → Option Refusal
  | .next _ => none
  | .fault _ => none
  | .refused r => some r

/-! WellFormed: one ill-formed term for each check. -/

theorem test_wellFormed_row1 : SysRegTuple.WellFormed ⟨.read, 3, 4, 1, 4, 3, 0⟩ = true := by decide
theorem test_wellFormed_op0 : SysRegTuple.WellFormed ⟨.read, 2, 4, 1, 4, 3, 0⟩ = false := by decide
theorem test_wellFormed_op1 : SysRegTuple.WellFormed ⟨.read, 3, 5, 1, 4, 3, 0⟩ = false := by decide
theorem test_wellFormed_crn : SysRegTuple.WellFormed ⟨.write, 3, 0, 2, 4, 3, 0⟩ = false := by decide
theorem test_wellFormed_crm : SysRegTuple.WellFormed ⟨.read, 3, 4, 1, 5, 3, 31⟩ = false := by decide
theorem test_wellFormed_op2 : SysRegTuple.WellFormed ⟨.write, 3, 4, 1, 4, 2, 0⟩ = false := by decide
/-- A stored RES0 bit that is a real field: not a configuration (rule R113, `ConfigWF`). -/
theorem test_configWellFormed : configWellFormed { Config.base with res0Stored := 2 } = false := by decide

/-! Decoding. Words written out bit by bit from rule R55: 1101010100, L, 1, o0, op1, CRn, CRm, op2, Rt. -/

/-- 2.1: MRS X5, SCTLR2MASK_EL2. -/
theorem test_decode_mrs_el2 :
    decodeWord 0b1101010100_1_1_1_100_0001_0100_011_00101#32 = .ok (.mrsSctlr2maskEl2 5) := by rfl
/-- 2.1: MSR SCTLR2MASK_EL2, X17. -/
theorem test_decode_msr_el2 :
    decodeWord 0b1101010100_0_1_1_100_0001_0100_011_10001#32 = .ok (.msrSctlr2maskEl2 17) := by rfl
/-- 2.1: MRS XZR, SCTLR2MASK_EL1. -/
theorem test_decode_mrs_el1 :
    decodeWord 0b1101010100_1_1_1_000_0001_0100_011_11111#32 = .ok (.mrsSctlr2maskEl1 31) := by rfl
/-- 2.1: MSR SCTLR2MASK_EL1, X30. -/
theorem test_decode_msr_el1 :
    decodeWord 0b1101010100_0_1_1_000_0001_0100_011_11110#32 = .ok (.msrSctlr2maskEl1 30) := by rfl
/-- 2.1: the bytes at increasing addresses, and the bytes that follow. -/
theorem test_decode_bytes :
    decode [0x60, 0x14, 0x3C, 0xD5, 0xAA] = .ok (.mrsSctlr2maskEl2 0, [0xAA]) := by rfl
theorem test_decode_short : decode [0x60, 0x14, 0x3C] = .error .tooFewBytes := by rfl
/-- 2.1: `o0 = 0` is op0 = 0b10, another System register. -/
theorem test_refuse_op0 :
    decodeWord 0xD5341460#32 = .error (.notOneOfTheFourAccessors ⟨.read, 2, 4, 1, 4, 3, 0⟩) := by rfl
/-- 2.1: CRm = 0b0000, another register's page. -/
theorem test_refuse_crm :
    decodeWord 0xD53C1060#32 = .error (.notOneOfTheFourAccessors ⟨.read, 3, 4, 1, 0, 3, 0⟩) := by rfl
/-- 2.1: bit 20 = 0. -/
theorem test_refuse_bit20 :
    decodeWord 0xD52C1460#32 = .error (.notSystemRegisterMove 0xD52C1460#32) := by rfl
/-- 2.1: NOP is outside the spec. -/
theorem test_refuse_nop :
    decodeWord 0xD503201F#32 = .error (.notSystemRegisterMove 0xD503201F#32) := by rfl
theorem test_table_word : decodeTableWord 32 0xD51C1460 = some (.msrSctlr2maskEl2 0) := by rfl

/-! The four instructions, two tests each. -/

/-- 2.4 row 1. -/
theorem test_mrs_el2_reads :
    after (fun s => (readX s 3, s.pc)) (exec (.mrsSctlr2maskEl2 3) (masks 0x24 0x1000 (base .el2))) =
      some (0x24#64, 0x1004#64) := by decide
/-- 2.4 row 7: not a memory read. -/
theorem test_mrs_el2_traps :
    stop (exec (.mrsSctlr2maskEl2 3) (inputs nested (base .el1))) =
      some (.trap .el2 0x18 .nvTrap 0x1000 ⟨.read, .sctlr2maskEL2, 3⟩) := by decide
/-- 2.5 row 5. -/
theorem test_msr_el2_writes :
    after (·.sctlr2maskEL2) (exec (.msrSctlr2maskEl2 0) (writeX (base .el2) 0 0xFFFFFFFFFFFFFFFF)) =
      some 0x1FFE#64 := by decide
/-- 2.5 row 3: the same value is still refused. -/
theorem test_msr_el2_locked :
    stop (exec (.msrSctlr2maskEl2 0) (writeX (masks 0x24 0 (base .el2)) 0 0x24)) =
      some (.undefined .lockEL2 0x1000 ⟨.write, .sctlr2maskEL2, 0⟩) := by decide
/-- 2.6 row 29: at EL3 never SCTLR2MASK_EL2. -/
theorem test_mrs_el1_at_el3 :
    after (readX · 7) (exec (.mrsSctlr2maskEl1 7) (inputs hosted (masks 0x24 0x1000 (base .el3)))) =
      some 0x1000#64 := by decide
/-- 2.6 row 16: the EL2 trap comes before the late UNDEFINED. -/
theorem test_mrs_el1_traps :
    stop (exec (.mrsSctlr2maskEl1 7) (inputs (fun e =>
        { e with scrSRMASKEn := 0, sddUndef := true, hfgrtr2_nSCTLR2MASK_EL1 := 0 }) (base .el1))) =
      some (.trap .el2 0x18 .fgt2Trap 0x1000 ⟨.read, .sctlr2maskEL1, 7⟩) := by decide
/-- 2.7 row 15: EL2 outside host mode writes SCTLR2MASK_EL1 with no lock test. -/
theorem test_msr_el1_at_el2 :
    after (fun s => (s.sctlr2maskEL1, s.sctlr2maskEL2))
      (exec (.msrSctlr2maskEl1 2) (masks 0x24 0x1000 (base .el2))) = some (0#64, 0x24#64) := by decide
/-- 2.7 row 5: `nvx = '101'` does not redirect, and the lock is tested. -/
theorem test_msr_el1_locked :
    stop (exec (.msrSctlr2maskEl1 2)
        (inputs (fun e => { e with nvx := 0b101 }) (masks 0x24 0x1000 (base .el1)))) =
      some (.undefined .lockEL1 0x1000 ⟨.write, .sctlr2maskEL1, 2⟩) := by decide

/-! Memory. -/

/-- 2.11 N1, N3: the bytes of the cell, lowest address first; the list is in its canonical form. -/
theorem test_nv_write :
    after (fun s => (s.mem, memWf s.mem))
      (exec (.msrSctlr2maskEl1 2) (inputs nested (writeX (base .el1) 2 0x1234))) =
    some ([(0x80001328, 0x34), (0x80001329, 0x12), (0x8000132A, 0), (0x8000132B, 0),
      (0x8000132C, 0), (0x8000132D, 0), (0x8000132E, 0), (0x8000132F, 0)], true) := by decide
/-- 2.11 N4. -/
theorem test_nv_write_big_endian :
    memGet (memWrite8 true [] 0x80001328 0x1234) 0x8000132F = some 0x34#8 := by decide
/-- 2.11 N5. -/
theorem test_nv_misaligned :
    stop (exec (.mrsSctlr2maskEl1 7)
        (inputs (fun e => { e with nvx := 0b111, nvBase := 0x80001004 }) (base .el1))) =
      some (.nvStuck .baseMisaligned 0x1000 0x8000132C) := by decide
/-- 2.11 N6: the seven lower bytes are admitted, the eighth is not. -/
theorem test_nv_notAdmitted :
    nvCheck { base .el1 with regions := [⟨0x80001328, 7⟩] } = some .notAdmitted := by decide
theorem test_memWf_order : memWf [(2, 0), (1, 0)] = false := by decide

/-! The mask. -/

/-- 2.2: all but FEAT_CPA2 and FEAT_MEC. -/
theorem test_implMask :
    implMask { Config.base with featCPA2 := false, featMEC := false } = 0x1FC#64 := by decide
/-- 2.2: HaveEL2 false. -/
theorem test_implMask_without_el2 : implMask { Config.base with haveEL2 := false } = 0#64 := by decide
/-- 2.8, the worked example of rule R85. -/
theorem test_maskedWrite : maskedWrite 0x22 0x04 0x24 = 0x20#64 := by decide
/-- 2.8 W1. -/
theorem test_writeSctlr2_masked :
    after (·.sctlr2EL2.image) (applyInput (.writeSctlr2EL2 0x04)
      { masks 0x24 0 (base .el2) with sctlr2EL2 := Sctlr2.ofImage 0x22 }) = some 0x20#64 := by decide
/-- 2.8 W2. -/
theorem test_writeSctlr2_at_el3 :
    after (·.sctlr2EL2.image) (applyInput (.writeSctlr2EL2 0x04)
      { masks 0x24 0 (base .el3) with sctlr2EL2 := Sctlr2.ofImage 0x22 }) = some 0x04#64 := by decide
/-- 2.8 W6. -/
theorem test_writeSctlr2_at_el1 :
    refusal (applyInput (.writeSctlr2EL2 0x04) (base .el1)) = some .sctlr2WriteBelowEL2 := by decide

/-! Reset. -/

/-- What a launch gives after a reset. -/
def launch : Launch :=
  ⟨Env.base, Vector.replicate 31 0, 0x1000, ⟨.el2, true⟩, 0, Sctlr2.zero, ExcRegs.zero, ExcRegs.zero,
    ExcRegs.zero, []⟩

/-- 2.9 Z1. -/
theorem test_reset_el2_highest :
    after (·.sctlr2maskEL2) (applyInput (.reset launch) (masks 0x1FFE 0 State.reset)) = some 0#64 := by decide
/-- 2.9 Z3: with FEAT_MEC alone only bit 1 is drawn. -/
theorem test_reset_unknown_bits :
    resetUnknownBits { Config.base with
      featCPA2 := false
      featPAuthLR := false
      featSYSREG128 := false
      featDoubleFault2 := false
      featANERR := false
      featADERR := false } = 2#64 := by decide

/-- Rule R38: the run-time inputs and memory are the launch's, memory in its canonical form. -/
theorem test_reset_launch :
    after (fun s => (s.env.inHostEL2, s.mem, s.window.order, s.maskHist))
      (applyInput (.reset { launch with env := hosted Env.base, mem := [(9, 1), (3, 2), (9, 4)] })
        { State.reset with mem := [(5, 5)], maskHist := [6] }) =
    some (true, [(3, 2), (9, 4)], [], []) := by decide

/-! Ordering, with the order given. -/

/-- A write of `v` by the name `n`, performed before the last `back` open accesses. -/
def wrote (n : RegName) (back : Nat) (v : Word) (s : State) : State :=
  writeMaskAt back (nextAccess n (.write (.word v)) s) s

/-- A read into `X[t]` by the name `n`, performed after the open accesses. -/
def hasRead (n : RegName) (t : RegNum) (s : State) : State :=
  writeX (readMaskAt 0 n t s).2 t (readMaskAt 0 n t s).1

/-- A lock test by the name `n`, performed before the last `back` open accesses. -/
def tested (n : RegName) (back : Nat) (s : State) : State := (testMaskAt back n s).2

/-- Host mode at EL2 with the mask 0. -/
def fromZero : State := inputs hosted (config (fun c => { c with haveEL3 := false }) (base .el2))

/-- Vector O1 after its first instruction: `MSR SCTLR2MASK_EL1, X0` of 0x6, from 0. -/
def afterO1 : State := wrote .sctlr2maskEL1 0 6 fromZero

/-- 2.10 O1: the read by the other name gives 0x6 or 0x0. -/
theorem test_order_o1 :
    (freedom .sctlr2maskEL2 afterO1.window.order,
      (readMaskAt 0 .sctlr2maskEL2 1 afterO1).1, (readMaskAt 1 .sctlr2maskEL2 1 afterO1).1) =
    (1, 6#64, 0#64) := by decide
/-- 2.10 O2, O3: after `Sync`, and by the same name, nothing may be passed over. -/
theorem test_order_o2_o3 :
    (freedom .sctlr2maskEL2 (synchronize afterO1).window.order,
      freedom .sctlr2maskEL1 afterO1.window.order) = (0, 0) := by decide
/-- 2.10 O5: 0x6 by the EL1 name, then 0x8 by the EL2 name performed before or after it. -/
theorem test_order_o5 :
    ((wrote .sctlr2maskEL2 0 8 afterO1).sctlr2maskEL2,
      (wrote .sctlr2maskEL2 1 8 afterO1).sctlr2maskEL2) = (8#64, 6#64) := by decide
/-- 2.10 O8: the values the write of SCTLR2_EL2 may see. -/
theorem test_order_o8 :
    (maskSeen 0 (noteMaskWrite 6 fromZero), maskSeen 2 (noteMaskWrite 6 fromZero)) =
      (0#64, 0#64) ∧ maskSeen 0 (wrote .sctlr2maskEL1 0 6 (noteMaskWrite 6 fromZero)) = 6#64 := by decide
/-- Rule R46 item 2: a read by one name into X1, then a write of 0x8 by the other performed before it. -/
theorem test_order_read_then_write :
    readX (wrote .sctlr2maskEL1 1 8 (hasRead .sctlr2maskEL2 1 fromZero)) 1 = 8#64 := by decide

/-- `MSR SCTLR2MASK_EL2` of 0x6; `MRS X1, SCTLR2MASK_EL2` twice; the lock test, performed first, of an MSR by
the EL1 name. -/
def twiceRead : State :=
  tested .sctlr2maskEL1 4 (hasRead .sctlr2maskEL2 1 (hasRead .sctlr2maskEL2 1
    (wrote .sctlr2maskEL2 0 6 (tested .sctlr2maskEL2 0 fromZero))))

/-- Rule R46 item 3: its write of 0x8 may come before the write of 0x6, though X1 was read over in between, but
not before the lock test of that, which would have seen it. -/
theorem test_order_over_a_used_read :
    (placesFor twiceRead.cfg twiceRead.window (nextAccess .sctlr2maskEL1 (.write (.word 8)) twiceRead),
      (wrote .sctlr2maskEL1 3 8 twiceRead).sctlr2maskEL2, readX (wrote .sctlr2maskEL1 3 8 twiceRead) 1) =
    ([0, 1, 2, 3], 6#64, 6#64) := by decide
/-- A write performed after the read of its own operand: rule R46 item 2 does not reach it (log 7). -/
theorem test_order_own_operand :
    placesFor fromZero.cfg (hasRead .sctlr2maskEL2 1 fromZero).window
      (nextAccess .sctlr2maskEL1 (.write (sourceOf 1 (hasRead .sctlr2maskEL2 1 fromZero)))
        (hasRead .sctlr2maskEL2 1 fromZero)) = [0] := by decide

/-- X1 holds the result of a read by the name `n`, written on to SCTLR2MASK_EL1. -/
def storedRead (n : RegName) : State := writeMaskEL1 1 (hasRead n 1 fromZero)

/-- Rule R46 item 2: the read by the EL1 name and the write of SCTLR2MASK_EL1 by it are open; a write of 0x8 by
the EL2 name performed before them gives both 0x8. -/
theorem test_order_stored_read :
    (placesFor fromZero.cfg (storedRead .sctlr2maskEL1).window
        (nextAccess .sctlr2maskEL2 (.write (.word 8)) (storedRead .sctlr2maskEL1)),
      readX (wrote .sctlr2maskEL2 2 8 (storedRead .sctlr2maskEL1)) 1,
      (wrote .sctlr2maskEL2 2 8 (storedRead .sctlr2maskEL1)).sctlr2maskEL1) =
    ([0, 1, 2], 8#64, 8#64) := by decide
/-- Rule R47: the read by the EL2 name, the write of SCTLR2MASK_EL1 by the EL1 name after it; a later write by the
EL1 name is performed after both. -/
theorem test_order_elsewhere :
    placesFor fromZero.cfg (storedRead .sctlr2maskEL2).window
      (nextAccess .sctlr2maskEL1 (.write (.word 8)) (storedRead .sctlr2maskEL2)) = [0] := by decide
/-- With no use of the read an access elsewhere takes the earliest place, and a later write by the EL1 name may
still come before the read. -/
theorem test_order_elsewhere_free :
    (let s := writeMaskEL1 2 (hasRead .sctlr2maskEL2 1 fromZero)
     (s.window.order.map (·.id), placesFor s.cfg s.window (nextAccess .sctlr2maskEL1 (.write (.word 8)) s))) =
    ([1, 0], [0, 1]) := by decide
/-- With no access open an access elsewhere opens none. -/
theorem test_order_elsewhere_alone :
    ((writeMaskEL1 1 fromZero).window.order, (readMaskEL1 1 fromZero).2.window.held) = ([], []) := by decide
/-- X2 read by the EL1 name, then X1 by it from SCTLR2MASK_EL1: a write of X1 by the EL2 name follows both, and one
of X3 need not. -/
theorem test_order_operand_read_elsewhere :
    (let s := writeX (readMaskEL1 1 (hasRead .sctlr2maskEL1 2 fromZero)).2 1 0x10
     (placesFor s.cfg s.window (nextAccess .sctlr2maskEL2 (.write (sourceOf 1 s)) s),
      placesFor s.cfg s.window (nextAccess .sctlr2maskEL2 (.write (sourceOf 3 s)) s))) =
    ([0], [0, 1, 2]) := by decide
/-- The same of a read written to the cell: the byte there and what the history has. -/
theorem test_order_read_in_memory :
    (memGet (wrote .sctlr2maskEL2 3 8 (nvWrite 1 (storedRead .sctlr2maskEL1))).mem 0x80001328,
      (wrote .sctlr2maskEL2 3 8 (nvWrite 1 (storedRead .sctlr2maskEL1))).nvEvents) =
    (some 8#8, [.memWrite 0x80001328 8]) := by decide
/-- Another agent's write of the cell puts no read's result there. -/
theorem test_order_agent_releases_the_cell :
    after (fun s => (readHeldAt (.cell 0x80001328) s, readHeldAt (.x 1) s))
      (agentWrite 5 { base .el2 with window := ⟨0, [], [⟨.cell 0x80001328, 0⟩, ⟨.x 1, 0⟩]⟩ }) =
    some (none, some 0) := by decide
/-- An access at EL3, and one with E2H 0, is open with the others while any is; with none open it is not (log
7). -/
theorem test_order_recorded :
    (recorded { afterO1 with pstate := ⟨.el3, false⟩ }, recorded { afterO1 with env := Env.base },
      recorded (base .el3), recorded (synchronize afterO1),
      recorded { synchronize afterO1 with pstate := ⟨.el3, false⟩ }) = (true, true, false, true, false) := by
  decide
/-- Rule R47: a refused lock test by the EL2 name that saw 0x6, out of host mode; then a read by the same name
has nothing to pass over. -/
theorem test_order_after_a_refused_test :
    after (fun s => (s.window.order.length, freedom .sctlr2maskEL2 s.window.order))
      (raise (.undefined .lockEL2) ⟨.write, .sctlr2maskEL2, 3⟩
        (config taken (tested .sctlr2maskEL2 0 afterO1))) = some (2, 0) := by decide
/-- A lock test of SCTLR2MASK_EL1 that found the result of the read to be 0 (log 7): a write of 0x8 by the EL2
name may no longer come before the read, one of 0 may. -/
theorem test_order_tested_by_el1 :
    (let s := (lockTestEL1 (storedRead .sctlr2maskEL1)).2
     (placesFor s.cfg s.window (nextAccess .sctlr2maskEL2 (.write (.word 8)) s),
      placesFor s.cfg s.window (nextAccess .sctlr2maskEL2 (.write (.word 0)) s))) =
    ([0, 1, 2], [0, 1, 2, 3]) := by decide

/-! The premises of a launch. -/

/-- Rule R113, `EnvPerStep`: a reset whose launch has other inputs, and a return to another level, change them
otherwise than a claim says that admits no change. -/
theorem test_envPerStep :
    ¬EnvPerStep (fun _ _ => False)
        { base .el2 with inputs := [some (.reset { launch with env := hosted Env.base })] } ∧
      ¬EnvPerStep (fun _ _ => False)
        { config taken (base .el2) with
          excEL2 := ⟨0, 0x2000, ⟨.el1, false⟩, 0⟩
          inputs := [some .exceptionReturn] } :=
  ⟨fun h => h _ _ .here rfl (by decide), fun h => h _ _ .here rfl (by decide)⟩

/-! The history of the cell, judged afterwards. -/

/-- 2.11 N2 and rule R41: a read after another agent's write, and one that answers nothing written there. -/
theorem test_cell_history :
    cellHistoryOk 8 none [.memWrite 8 5, .agentWrite 8 7, .memRead 8 7] = true ∧
      cellHistoryOk 8 none [.memRead 8 5, .memRead 8 5] = true ∧
      cellHistoryOk 8 none [.memWrite 8 5, .memRead 8 6] = false := by decide

/-! Taking an exception. -/

/-- 2.12: MSR SCTLR2MASK_EL2, XZR. -/
theorem test_syndrome : trapEsr ⟨.write, .sctlr2maskEL2, 31⟩ = 0x623707E8#64 := by decide
/-- Rule R102: what the entry of a trap to EL3 saves. -/
theorem test_trap_entry :
    after (fun s => (s.excEL3.elr, s.excEL3.esr, s.excEL3.spsr, s.pstate))
      (exec (.mrsSctlr2maskEl2 5)
        (inputs (fun e => { e with scrSRMASKEn := 0 }) (config taken (base .el2)))) =
    some (0x1000#64, 0x623704A9#64, ⟨.el2, false⟩, ⟨.el3, true⟩) := by decide
/-- Log 28, a choice beside rule R96: an UNDEFINED raised in a handler at EL2 is taken to EL2 as rule R90 says, and
what the earlier entry saved there is overwritten. -/
theorem test_nested_entry :
    after (fun s => (s.excEL2.elr, s.excEL2.spsr, s.pstate))
      (exec (.mrsSctlr2maskEl2 5)
        { inputs (fun e => { e with scrSRMASKEn := 0, sddUndef := true }) (config taken (base .el2)) with
          pstate := ⟨.el2, true⟩
          excEL2 := ⟨0x62360409, 0x2000, ⟨.el1, false⟩, 0⟩ }) =
    some (0x1000#64, ⟨.el2, true⟩, ⟨.el2, true⟩) := by decide
/-- Rule R96: the return. -/
theorem test_return :
    after (fun s => (s.pc, s.pstate))
      (applyInput .exceptionReturn
        { config taken (base .el2) with excEL2 := ⟨0, 0x2000, ⟨.el1, false⟩, 0⟩ }) =
    some (0x2000#64, ⟨.el1, false⟩) := by decide

/-! A table word runs as the first instruction after reset. -/

theorem test_run_mrs_el2 :
    after (·.pc) (step (State.reset.withFetchWord 32 0xD53C1460)) = some 0x1004#64 := by decide
theorem test_run_msr_el2 :
    after (·.pc) (step (State.reset.withFetchWord 32 0xD51C1460)) = some 0x1004#64 := by decide
theorem test_run_mrs_el1 :
    after (·.pc) (step (State.reset.withFetchWord 32 0xD5381460)) = some 0x1004#64 := by decide
theorem test_run_msr_el1 :
    after (·.pc) (step (State.reset.withFetchWord 32 0xD5181460)) = some 0x1004#64 := by decide
/-- Another agent's write scheduled after the first instruction: it waits while that runs, and then it is done. -/
theorem test_run_agent_between :
    after (fun s => (s.pc, s.inputs, s.nvEvents))
        (step { State.reset.withFetchWord 32 0xD53C1460 with inputs := [none, some (.agentWrite 5)] }) =
      some (0x1004#64, [some (.agentWrite 5)], []) ∧
    after (fun s => (s.pc, s.inputs, s.nvEvents))
        (step { State.reset with pc := 0x1004, inputs := [some (.agentWrite 5)] }) =
      some (0x1004#64, [], [.agentWrite 0x80001328 5]) := by decide
/-- Nothing is placed in the program text: the run is over. -/
theorem test_run_nothing : refusal (step State.reset) = some (.noInstruction 0x1000) := by decide

/-! Witnesses: the hypotheses of each statement can be met together; where a statement has several clauses, one
for each, at a boundary of its range. -/

/-- A step of `exec` or of an input that answers a next state. -/
def goesOn (o : Host.Outcome State Fault Refusal) : Bool := (after (fun _ => ()) o).isSome

theorem exists_next {o : Host.Outcome State Fault Refusal} (h : goesOn o = true) :
    ∃ s', o = .next s' := by
  cases o with
  | next s' => exact ⟨s', rfl⟩
  | fault f => cases h
  | refused r => cases h

/-- `MSR SCTLR2MASK_EL2, X0` of 0x6 placed at `pc`. -/
def placed : State := (writeX (base .el2) 0 6).withFetchWord 32 0xD51C1460

/-- Host mode at EL2, the second instruction of a pair still to come. -/
def host : State := inputs hosted (writeX (writeX (base .el2) 0 6) 2 8)

theorem witness_DecodedWordIsItsEncoding :
    decodeWord 0xD518147E#32 = .ok (.msrSctlr2maskEl1 30) := by rfl

theorem witness_OtherEncodingsAreRefused :
    isSysRegMove 0xD53C1480#32 = true ∧ (tupleOfWord 0xD53C1480#32).WellFormed = false := by decide

theorem witness_StepRunsTheDecodedInstruction :
    nextInput placed = none ∧ placed.inputs = [] ∧ placed.pc.toNat % 4 = 0 ∧
      memGet placed.text placed.pc.toNat = some 0x60 ∧
      memGet placed.text (placed.pc.toNat + 1) = some 0x14 ∧
      memGet placed.text (placed.pc.toNat + 2) = some 0x1C ∧
      memGet placed.text (placed.pc.toNat + 3) = some 0xD5 ∧
      decode [0x60, 0x14, 0x1C, 0xD5] = .ok (.msrSctlr2maskEl2 0, []) :=
  ⟨rfl, rfl, rfl, rfl, rfl, rfl, rfl, rfl⟩

theorem witness_PlacedInstructionRunsNext : State.reset.pc.toNat % 4 = 0 := by decide

theorem witness_StepRefusesByName_word :
    nextInput (State.reset.withFetchWord 32 0xD503201F) = none ∧
      decode [0x1F, 0x20, 0x03, 0xD5] = .error (.notSystemRegisterMove 0xD503201F) ∧
      memGet (State.reset.withFetchWord 32 0xD503201F).text 0x1000 = some 0x1F ∧
      memGet (State.reset.withFetchWord 32 0xD503201F).text 0x1001 = some 0x20 ∧
      memGet (State.reset.withFetchWord 32 0xD503201F).text 0x1002 = some 0x03 ∧
      memGet (State.reset.withFetchWord 32 0xD503201F).text 0x1003 = some 0xD5 :=
  ⟨rfl, rfl, rfl, rfl, rfl, rfl⟩

/-- Three bytes of a word are in the text, the fourth is not. -/
theorem witness_StepRefusesByName_end :
    memGet [(0x1000, 0x60), (0x1001, 0x14), (0x1002, 0x3C)] (0x1000 + 3) = none := by decide

theorem witness_NoInstructionAtTheTopOfTheAddressSpace :
    2 ^ 64 ≤ (0xFFFFFFFFFFFFFFFC#64).toNat + 4 ∧ ¬2 ^ 64 ≤ (0xFFFFFFFFFFFFFFF8#64).toNat + 4 := by decide

/-- A state no run from reset is needed for: a read, whose result X1 and SCTLR2MASK_EL1 hold, and a write by the
other name are open, and a byte of memory is listed. -/
def openState : State :=
  { masks 6 0 host with
    window := ⟨0, [⟨0, .sctlr2maskEL2, .read⟩, ⟨1, .sctlr2maskEL1, .write (.word 6)⟩],
      [⟨.x 1, 0⟩, ⟨.maskEL1, 0⟩]⟩
    maskHist := [0, 6]
    mem := [(0x80001328, 1)] }

theorem openState_inv : openState.Inv where
  mask := by decide
  hist := by
    intro v hv
    simp only [openState, List.mem_cons, List.not_mem_nil, or_false] at hv
    rcases hv with rfl | rfl <;> decide
  window := {
    base := by decide
    numbers := by decide
    below := by decide
    inOrder := by
      intro n
      cases n <;> decide
    needs := by
      intro a ha id hid
      simp only [openState, List.mem_cons, List.not_mem_nil, or_false] at ha
      rcases ha with rfl | rfl <;> cases hid
    heldBelow := by decide
    places := by decide
    results := by
      intro h hh
      simp only [openState, List.mem_cons, List.not_mem_nil, or_false] at hh
      rcases hh with rfl | rfl
      · exact ⟨by decide, by decide⟩
      · show openState.sctlr2maskEL1 = _
        decide
    agrees := by decide }
  mem := by decide

theorem witness_MrsByEL2NameReadsTheMask :
    (Runs (base .el3) ∧ (base .el3).pstate.el = .el3) ∧
      (Runs (base .el2) ∧ (base .el2).pstate.el = .el2 ∧ El3Allows (base .el2) ∧
        Settled (base .el2)) ∧
      Runs host ∧ host.pstate.el = .el2 ∧ El3Allows host ∧ recorded host = true ∧ ¬Settled openState := by
  decide

theorem witness_MsrByEL2NameWritesTheMask :
    (Runs (base .el3) ∧ (base .el3).pstate.el = .el3) ∧
      Runs (base .el2) ∧ (base .el2).pstate.el = .el2 ∧ El3Allows (base .el2) ∧
        Settled (base .el2) ∧ effMaskEL2 (base .el2) = 0#64 := by decide

theorem witness_MrsByEL1NameReadsItsLocation_memory :
    Runs (inputs nested (base .el1)) ∧ (inputs nested (base .el1)).pstate.el = .el1 ∧
      El3Allows (inputs nested (base .el1)) ∧ El2Allows 1 (inputs nested (base .el1)) ∧
      (inputs nested (base .el1)).env.nvx = 0b111#3 ∧ nvCheck (inputs nested (base .el1)) = none := by
  decide

theorem witness_MrsByEL1NameReadsItsLocation_register :
    (Runs (base .el3) ∧ (base .el3).pstate.el = .el3) ∧
      (Runs (base .el2) ∧ (base .el2).pstate.el = .el2 ∧ El3Allows (base .el2) ∧
        (base .el2).env.inHostEL2 = false) ∧
      Runs (base .el1) ∧ (base .el1).pstate.el = .el1 ∧ El3Allows (base .el1) ∧
        El2Allows 1 (base .el1) ∧ (base .el1).env.nvx ≠ 0b111#3 := by decide

theorem witness_MrsByEL1NameReadsItsLocation_host :
    Runs host ∧ host.pstate.el = .el2 ∧ El3Allows host ∧ host.env.inHostEL2 = true ∧
      host.window.order = [] := by decide

theorem witness_MsrByEL1NameWritesItsLocation_register :
    effMaskEL1 (base .el1) = 0#64 ∧ (base .el1).env.nvx ≠ 0b111#3 ∧ Runs (base .el1) ∧
      El3Allows (base .el1) ∧ El2Allows (base .el1).env.hfgwtr2_nSCTLR2MASK_EL1 (base .el1) := by decide

theorem witness_MsrByEL1NameWritesItsLocation_memory :
    Runs (inputs nested (base .el1)) ∧ El3Allows (inputs nested (base .el1)) ∧
      El2Allows (inputs nested (base .el1)).env.hfgwtr2_nSCTLR2MASK_EL1 (inputs nested (base .el1)) ∧
      nvCheck (inputs nested (base .el1)) = none := by decide

theorem witness_MsrByEL1NameWritesItsLocation_host :
    Runs host ∧ El3Allows host ∧ host.env.inHostEL2 = true ∧ host.window.order = [] ∧
      effMaskEL2 host = 0#64 := by decide

/-- Bits [63] and [0] of SCTLR2MASK_EL2 are stored RES0 bits (2.5 rows 21 to 24). -/
def storedRes0 (m : Word) (el : EL) : State :=
  masks m m (config (fun c => { c with res0Stored := 0x8000000000000001 }) (base el))

/-- Both stored RES0 bits are set and no other. -/
def res0Alone (el : EL) : State := storedRes0 0x8000000000000001 el

/-- A real field is set too. -/
def res0AndReal (el : EL) : State := storedRes0 0x8000000000001001 el

/-- At EL2: with the stored RES0 bit alone the MSR completes, with a real field it is refused; and in host mode. -/
theorem witness_OnlyRealFieldsLock_el2 :
    (Runs (res0Alone .el2) ∧ (res0Alone .el2).cfg.onEvent = .stop ∧
      El3Allows (res0Alone .el2) ∧ (res0Alone .el2).env.effMaskEL2 = none ∧
      Settled (res0Alone .el2)) ∧
    (res0Alone .el2).sctlr2maskEL2 &&& implMask (res0Alone .el2).cfg = 0#64 ∧
    (res0AndReal .el2).sctlr2maskEL2 &&& implMask (res0AndReal .el2).cfg ≠ 0#64 ∧
    InHost host ∧ host.env.effMaskEL2 = none ∧ Settled host := by decide

/-- At EL1, likewise by SCTLR2MASK_EL1 (2.7 row 3). -/
theorem witness_OnlyRealFieldsLock_el1 :
    (Runs (res0Alone .el1) ∧ El3Allows (res0Alone .el1) ∧
      (res0Alone .el1).env.effMaskEL1 = none ∧ El2Allows 1 (res0Alone .el1) ∧
      (res0Alone .el1).env.nvx ≠ 0b111#3) ∧
    (res0Alone .el1).sctlr2maskEL1 &&& (res0Alone .el1).cfg.implMaskEL1 = 0#64 ∧
    (res0AndReal .el1).sctlr2maskEL1 &&& (res0AndReal .el1).cfg.implMaskEL1 ≠ 0#64 := by decide

theorem witness_EventsFollowThePriority_event :
    (base .el0).cfg.onEvent = .stop ∧ (base .el0).pc.toNat + 4 < 2 ^ 64 ∧
      firstCause (.msrSctlr2maskEl1 2) (base .el0) = some (.undefined .atEL0) := by decide

theorem witness_EventsFollowThePriority_lock :
    firstCause (.msrSctlr2maskEl2 0) (masks 2 0 (base .el2)) = none ∧
      writesMaskAtEL2 (masks 2 0 (base .el2)) (.msrSctlr2maskEl2 0) = true ∧
      Settled (masks 2 0 (base .el2)) ∧ effMaskEL2 (masks 2 0 (base .el2)) ≠ 0#64 := by decide

/-- The cell's eight bytes would end one byte above the admitted memory. -/
theorem witness_EventsFollowThePriority_stuck :
    firstCause (.mrsSctlr2maskEl1 7)
        { inputs nested (base .el1) with regions := [⟨0x80001328, 7⟩] } = none ∧
      stop (exec (.mrsSctlr2maskEl1 7)
        { inputs nested (base .el1) with regions := [⟨0x80001328, 7⟩] }) =
      some (.nvStuck .notAdmitted 0x1000 0x80001328) := by decide

theorem witness_AbsentRegisterIsUndefined :
    (config (fun c => { c with featAA64 := false }) (base .el3)).cfg.featAA64 = false ∧
      (config (fun c => { c with featAA64 := false }) (base .el3)).cfg.onEvent = .stop ∧
      (base .el3).pc.toNat + 4 < 2 ^ 64 := by decide

theorem witness_ControlsActAlikeOnBothNames :
    (base .el2).cfg.onEvent = .stop ∧
      (Runs (inputs (fun e => { e with scrSRMASKEn := 0 }) (base .el2)) ∧
        (base .el2).cfg.haveEL3 = true) ∧
      (Runs (base .el1) ∧ (base .el1).pstate.el = .el1) ∧
      Runs (base .el3) ∧ (base .el3).pstate.el = .el3 := by decide

theorem witness_ControlsAreReadOnlyWhereTheyCount :
    State.reset.cfg.haveEL3 = false ∧
      (inputs (fun e => { e with el2Enabled := false }) (base .el1)).env.el2Enabled = false ∧
      (inputs (fun e => { e with hcrxEnabled := false }) (base .el1)).env.hcrxEnabled = false ∧
      (config (fun c => { c with featFGT2 := false }) (base .el1)).cfg.featFGT2 = false ∧
      isMsr (.mrsSctlr2maskEl1 7) = false ∧ isMsr (.msrSctlr2maskEl1 7) = true ∧
      goesOn (exec (.msrSctlr2maskEl1 7) (base .el1)) = true := by decide

theorem witness_TrapIsTakenToItsTarget :
    (config taken (base .el1)).cfg.onEvent = .enter ∧
      (config taken (base .el1)).pc.toNat + 4 < 2 ^ 64 ∧
      firstCause (.msrSctlr2maskEl2 31) (inputs nested (config taken (base .el1))) =
        some (.trap .el2 .nvTrap) := by decide

theorem witness_UndefinedIsTakenToItsLevel :
    (config taken (base .el1)).cfg.onEvent = .enter ∧
      firstCause (.mrsSctlr2maskEl2 0) (config taken (base .el1)) =
        some (.undefined .el2NameFromEL1) ∧
      RefusedByEL2Lock (.msrSctlr2maskEl2 0) (masks 2 0 (config taken (base .el2))) ∧
      recorded (masks 2 0 (config taken (base .el2))) = false := by decide

/-- The EL2 lock under an open order, and the EL1 lock with accesses open and with none. -/
theorem witness_UndefinedIsTakenToItsLevel_open :
    (RefusedByEL2Lock (.msrSctlr2maskEl1 2) (config taken openState) ∧
      recorded (config taken openState) = true) ∧
    firstCause (.msrSctlr2maskEl1 2) (masks 0 2 (config taken (base .el1))) = some (.undefined .lockEL1) ∧
    firstCause (.msrSctlr2maskEl1 2) { masks 6 2 (config taken openState) with pstate := ⟨.el1, false⟩ } =
      some (.undefined .lockEL1) := by decide

theorem witness_ReturnUndoesTheTrapEntry :
    firstCause (.msrSctlr2maskEl2 31) (inputs nested (config taken (base .el1))) =
        some (.trap .el2 .nvTrap) ∧
      ∃ s', exec (.msrSctlr2maskEl2 31) (inputs nested (config taken (base .el1))) = .next s' :=
  ⟨by decide, exists_next (by decide)⟩

theorem witness_MrsFrame :
    (firstCause (.mrsSctlr2maskEl2 3) (base .el2) = none ∧
      ∃ s', exec (.mrsSctlr2maskEl2 3) (base .el2) = .next s') ∧
    firstCause (.mrsSctlr2maskEl1 3) (inputs nested (base .el1)) = none ∧
      ∃ s', exec (.mrsSctlr2maskEl1 3) (inputs nested (base .el1)) = .next s' :=
  ⟨⟨by decide, exists_next (by decide)⟩, by decide, exists_next (by decide)⟩

theorem witness_MsrByEL1NameFrame_memory :
    firstCause (.msrSctlr2maskEl1 2) (inputs nested (base .el1)) = none ∧
      ∃ s', exec (.msrSctlr2maskEl1 2) (inputs nested (base .el1)) = .next s' :=
  ⟨by decide, exists_next (by decide)⟩

theorem witness_MsrByEL1NameFrame_register :
    (base .el2).env.inHostEL2 = false ∧ firstCause (.msrSctlr2maskEl1 2) (base .el2) = none ∧
      ∃ s', exec (.msrSctlr2maskEl1 2) (base .el2) = .next s' :=
  ⟨by decide, by decide, exists_next (by decide)⟩

theorem witness_EveryStepKeepsTheInvariant :
    openState.Inv ∧ ∃ s', step (openState.withFetchWord 32 0xD5381461) = .next s' :=
  ⟨openState_inv, exists_next (by rfl)⟩

theorem witness_MsrOfTheMaskFrame :
    (host.Inv ∧ (∃ s', exec (.msrSctlr2maskEl2 0) host = .next s') ∧
      ∃ s', exec (.msrSctlr2maskEl1 2) host = .next s') ∧
    openState.Inv ∧ OpenAt .sctlr2maskEL1 openState (.x 1) ∧ OpenAt .sctlr2maskEL1 openState .maskEL1 ∧
      openState.env.inHostEL2 = true :=
  ⟨⟨⟨by decide, (fun _ h => nomatch h), windowInv_of_empty rfl rfl, rfl⟩, exists_next (by decide),
    exists_next (by decide)⟩, openState_inv,
    ⟨⟨0, .sctlr2maskEL2, .read⟩, by decide, by decide, by decide⟩,
    ⟨⟨0, .sctlr2maskEL2, .read⟩, by decide, by decide, by decide⟩, rfl⟩

theorem witness_ConfigurationAndTextAreFixed : ∃ s', step placed = .next s' :=
  exists_next (by decide)

theorem witness_InstructionsKeepThePcAligned :
    nextInput placed = none ∧ placed.pc.toNat % 4 = 0 ∧ ∃ s', step placed = .next s' :=
  ⟨rfl, rfl, exists_next (by decide)⟩

/-- A locked machine with a program, in a run in which the level changes and EL3's control is cleared. -/
def locked : State :=
  { masks 0x24 0 placed with inputs := [some (.env .el1 { Env.base with scrSRMASKEn := 0 })] }

theorem witness_LockedMaskNeverChanges :
    locked.Locked ∧ ∃ s', LowRun locked s' ∧ s'.pstate.el ≠ locked.pstate.el :=
  ⟨⟨by decide, by decide, by decide⟩, _,
    .next .here (fun inp h => by cases h; decide) (fun h => by cases h) rfl, by decide⟩

theorem witness_OnlyResetAndMsrAboveEL1ChangeTheMask :
    after (fun s => decide (s.sctlr2maskEL2 ≠ placed.sctlr2maskEL2)) (step placed) = some true ∧
      after (fun s => decide (s.sctlr2maskEL2 ≠ 6#64))
        (step { masks 6 0 State.reset with inputs := [some (.reset launch)] }) = some true := by decide

theorem witness_OnlyItsWriteAndResetChangeSctlr2 :
    after (fun s => decide (s.sctlr2EL2 ≠ Sctlr2.zero))
        (step { base .el2 with inputs := [some (.writeSctlr2EL2 2)] }) = some true ∧
      after (fun s => decide (s.sctlr2EL2 ≠ Sctlr2.ofImage 2))
        (step { base .el2 with sctlr2EL2 := Sctlr2.ofImage 2, inputs := [some (.reset launch)] }) =
      some true := by decide

theorem witness_ImplementedFieldsMakeUpImplMask :
    (implMask Config.base).getLsbD 12 = true ∧ (implMask Config.base).getLsbD 13 = false ∧
      (implMask Config.base).getLsbD 0 = false := by decide

theorem witness_MaskedWriteIsFieldByField :
    maskBit 0x1000 .cptm0 = 1#1 ∧ maskBit 0x1000 .emec = 0#1 := by decide

theorem witness_WriteOfSctlr2IsMasked :
    ((base .el2).env.el2Enabled = true ∧ (base .el2).pstate.el = .el2) ∧
      (config (fun c => { c with maskAtEL3 := true }) (base .el3)).cfg.maskAtEL3 = true ∧
      (base .el3).pstate.el = .el3 := by decide

theorem witness_NoEffectWhenEL2IsNotEnabled :
    (inputs (fun e => { e with el2Enabled := false }) (base .el3)).env.el2Enabled = false ∧
      (base .el3).pstate.el = .el3 ∧
      Runs (inputs (fun e => { e with el2Enabled := false }) (base .el3)) ∧ Settled (base .el3) := by decide

theorem witness_WriteOfSctlr2OutsideTheMask :
    ((base .el3).pstate.el = .el3 ∧ (base .el3).cfg.maskAtEL3 = false) ∧
      (base .el0).pstate.el = .el0 ∧ (base .el1).pstate.el = .el1 := by decide

theorem witness_WarmResetOfTheMask :
    (State.reset.cfg.haveEL3 = false ∧ State.reset.cfg.haveEL2 = true) ∧
      (base .el2).cfg.haveEL3 = true ∧ resetUnknownBits (base .el2).cfg = 0x1FFE#64 ∧
      memWf launch.mem = true ∧
      memWf [(9, 1), (3, 2), (2 ^ 64, 7), (9, 4)] = false ∧
      latestAt [(9, 1), (3, 2), (2 ^ 64, 7), (9, 4)] 9 = some 4#8 ∧
      latestAt [(9, 1), (3, 2), (2 ^ 64, 7), (9, 4)] 4 = none := by decide

/-- The last `NV_BASE` whose eight bytes fit below 2^64, and the next. -/
theorem witness_NvMemReadReturnsWhatWasWritten :
    nvCheck (inputs (fun e => { e with nvx := 7, nvBase := 0xFFFFFFFFFFFFFCD0 }) (base .el1)) = none ∧
      nvCheck (inputs (fun e => { e with nvx := 7, nvBase := 0xFFFFFFFFFFFFFCD8 }) (base .el1)) =
        some .outsideAddressSpace ∧
      (base .el1).pc.toNat + 8 < 2 ^ 64 ∧ El2Allows 1 (inputs nested (base .el1)) ∧
      El3Allows (inputs nested (base .el1)) ∧ Runs (inputs nested (base .el1)) := by decide

theorem witness_AgentWritesTheCellAlone : nvCheck (base .el1) = none := by decide

/-- Each condition at its edge: the alignment, the end of the address space, the last byte of the admitted
memory, the first and the last byte of the cell in the program text, and the bytes beside it. -/
theorem witness_UnadmittedCellIsStuck :
    (Runs (inputs nested (base .el1)) ∧ El3Allows (inputs nested (base .el1)) ∧
      El2Allows 1 (inputs nested (base .el1))) ∧
    nvCheck (inputs (fun e => { e with nvBase := 4 }) (base .el1)) = some .baseMisaligned ∧
    nvCheck (inputs (fun e => { e with nvBase := 0xFFFFFFFFFFFFFCD0 }) (base .el1)) = none ∧
    nvCheck (inputs (fun e => { e with nvBase := 0xFFFFFFFFFFFFFCD8 }) (base .el1)) =
      some .outsideAddressSpace ∧
    nvCheck { base .el1 with regions := [⟨0x80001328, 8⟩] } = none ∧
    nvCheck { base .el1 with regions := [⟨0x80001328, 7⟩] } = some .notAdmitted ∧
    nvCheck { base .el1 with text := [(0x80001328, 0)] } = some .overlapsText ∧
    nvCheck { base .el1 with text := [(0x8000132F, 0)] } = some .overlapsText ∧
    nvCheck { base .el1 with text := [(0x80001327, 0), (0x80001330, 0)] } = none := by decide

theorem witness_OtherNameReadMayMissTheWrite :
    RegName.sctlr2maskEL2 ≠ .sctlr2maskEL1 ∧ InHost host ∧ host.pc.toNat + 8 < 2 ^ 64 ∧
      host.window.order = [] ∧ effMaskEL2 host = 0#64 := by decide

theorem witness_SameNameReadSeesTheWrite :
    (Runs (base .el2) ∧ (base .el2).pstate.el = .el2 ∧ El3Allows (base .el2) ∧
      (base .el2).window.order = [] ∧ effMaskEL2 (base .el2) = 0#64) ∧
      (base .el2).pc.toNat + 12 < 2 ^ 64 ∧ InHost host ∧ effMaskEL2 host = 0#64 := by decide

theorem witness_EarlierReadMaySeeTheLaterWrite :
    InHost host ∧ host.pc.toNat + 8 < 2 ^ 64 ∧ host.window.order = [] ∧ effMaskEL2 host = 0#64 := by decide

/-- The values drawn are free: no proof can tell that they are these or that they are not. -/
theorem witness_AUsedReadStaysOpen :
    (InHost host ∧ host.pc.toNat + 12 < 2 ^ 64 ∧ (2 : RegNum) ≠ 1 ∧ (1 : RegNum) ≠ 31 ∧
      host.window.order = [] ∧ effMaskEL2 host = 0#64) ∧
    effectiveEL2 host.cfg host.env (storedFrom host 5) = 0#64 := by decide

theorem witness_TwoWritesEndWithOneOfThem :
    InHost host ∧ host.pc.toNat + 8 < 2 ^ 64 ∧ host.cfg.onEvent = .stop ∧ host.window.order = [] ∧
      effMaskEL2 host = 0#64 := by decide

theorem witness_MsrUnderAnOpenOrder :
    (InHost openState ∧ openState.cfg.onEvent = .stop ∧ ¬Settled openState ∧
      RefusedByEL2Lock (.msrSctlr2maskEl1 2) openState) ∧ openState.Inv ∧
      (Runs (base .el3) ∧ (base .el3).pstate.el = .el3) ∧ (base .el3).Inv ∧
      effectiveEL2 host.cfg host.env (maskSeenBy .sctlr2maskEL2 host) = 0#64 :=
  ⟨by decide, openState_inv, by decide, ⟨by decide, (fun _ h => nomatch h), windowInv_of_empty rfl rfl, rfl⟩,
    by decide⟩

theorem witness_AStoredReadStaysOpen :
    InHost host ∧ host.env.e2hEffective = 1#1 ∧ host.pc.toNat + 12 < 2 ^ 64 ∧ (2 : RegNum) ≠ 1 ∧
      (1 : RegNum) ≠ 31 ∧ host.window.order = [] ∧ effMaskEL2 host = 0#64 := by decide

theorem witness_AReadStoredInMemoryStaysOpen :
    InHost host ∧ host.pc.toNat + 12 < 2 ^ 64 ∧ host.window.order = [] ∧ effMaskEL2 host = 0#64 ∧
      El2Allows host.env.hfgwtr2_nSCTLR2MASK_EL1 host ∧ nvCheck host = none := by decide

theorem witness_TheEL1NameKeepsItsOrderElsewhere :
    InHost host ∧ host.pc.toNat + 12 < 2 ^ 64 ∧ (2 : RegNum) ≠ 1 ∧ (1 : RegNum) ≠ 31 ∧
      host.window.order = [] ∧ effMaskEL2 host = 0#64 := by decide

theorem witness_AnOperandReadElsewhereKeepsItsOrder :
    InHost host ∧ host.pc.toNat + 12 < 2 ^ 64 ∧ (2 : RegNum) ≠ 1 ∧ (2 : RegNum) ≠ 31 ∧ (1 : RegNum) ≠ 31 ∧
      host.window.order = [] ∧ effMaskEL2 host = 0#64 := by decide

theorem witness_AnAccessAtEL3LeavesTheOrderOpen :
    InHost host ∧ host.pc.toNat + 12 < 2 ^ 64 ∧ host.window.order = [] ∧ effMaskEL2 host = 0#64 := by decide

/-- X0 is 0x6, which locks. -/
theorem witness_ARefusedLockTestKeepsItsPlace :
    InHost (config taken host) ∧ (config taken host).cfg.onEvent = .enter ∧ host.pc.toNat + 8 < 2 ^ 64 ∧
      host.window.order = [] ∧ effMaskEL2 (config taken host) = 0#64 ∧
      effectiveEL2 (config taken host).cfg host.env (storedFrom (config taken host) 0) ≠ 0#64 := by decide

theorem witness_NewMaskBindsAfterSynchronization :
    Runs (base .el2) ∧ El3Allows (base .el2) ∧ (base .el2).env.el2Enabled = true ∧
      (base .el2).window.order = [] ∧ effMaskEL2 (base .el2) = 0#64 ∧ (base .el2).maskHist = [] ∧
      InHost host ∧ host.env.el2Enabled = true ∧ host.maskHist = [] := by decide

theorem witness_GeneralRegistersAndTheZeroRegister :
    readX (writeX (base .el2) 30 5) 30 = 5#64 ∧ readX (writeX (base .el2) 30 5) 29 = 0#64 ∧
      readX (writeX (base .el2) 31 5) 31 = 0#64 := by decide

end Sys2Proof.Tests
end

section
/-! PROOFS. The tuple level of the encoding (30_encoding.md rules R51, R52, R54): the decoder selects a row
exactly when the tuple is the tuple of the row's instruction, and the tuple of an accessor name is the tuple of
its MRS and of its MSR. -/

namespace Sys2Proof.Proofs.Encoding

open Sys2Proof Sys2Proof.Machine Sys2Proof.Claims

/-- The tuple of an instruction selects the instruction. -/
@[simp] theorem instrOfTuple_tuple (i : Instr) : instrOfTuple i.tuple = some i := by
  cases i <;> rfl

/-- No tuple but its own selects an instruction. -/
theorem tuple_eq_of_instrOfTuple {u : SysRegTuple} {i : Instr} (h : instrOfTuple u = some i) :
    i.tuple = u := by
  obtain ⟨d, op0, op1, crn, crm, op2, t⟩ := u
  unfold instrOfTuple at h
  split_ifs at h with hfields hop1 hop1'
  · obtain ⟨rfl, rfl, rfl, rfl⟩ := hfields
    obtain rfl := hop1
    cases d <;> cases h <;> rfl
  · obtain ⟨rfl, rfl, rfl, rfl⟩ := hfields
    obtain rfl := hop1'
    cases d <;> cases h <;> rfl

/-- The decoder of tuples inverts `Instr.tuple` and is defined on no other tuple. -/
theorem instrOfTuple_eq_some_iff {u : SysRegTuple} {i : Instr} :
    instrOfTuple u = some i ↔ i.tuple = u :=
  ⟨tuple_eq_of_instrOfTuple, fun h => h ▸ instrOfTuple_tuple i⟩

/-- Settles O4: the tuple selects the instruction whose tuple it is, and the table of rule R54 lists the tuples
of the four instructions. -/
theorem tupleSelectsItsRow : Obligations.TupleSelectsItsRow := by
  intro u i
  rw [instrOfTuple_eq_some_iff]
  constructor
  · rintro rfl
    cases i <;> simp [Instr.tuple]
  · obtain ⟨d, op0, op1, crn, crm, op2, t⟩ := u
    rintro ⟨⟨rfl, rfl, rfl, rfl⟩,
      ⟨rfl, rfl, rfl⟩ | ⟨rfl, rfl, rfl⟩ | ⟨rfl, rfl, rfl⟩ | ⟨rfl, rfl, rfl⟩⟩ <;> rfl

/-- The tuple of a name, read, is that of the MRS by the name. -/
theorem tuple_mrsBy (n : RegName) (t : RegNum) : (mrsBy n t).tuple = accessorTuple ⟨.read, n, t⟩ := by
  cases n <;> rfl

/-- The tuple of a name, written, is that of the MSR by the name. -/
theorem tuple_msrBy (n : RegName) (t : RegNum) : (msrBy n t).tuple = accessorTuple ⟨.write, n, t⟩ := by
  cases n <;> rfl

/-- Settles O5: the fields are those `accessorTuple` writes out, and each name's tuple is its instruction's. -/
theorem accessorNamesAreTheirTuples : Obligations.AccessorNamesAreTheirTuples := by
  intro d t
  refine ⟨rfl, rfl, rfl, fun n => ⟨?_, ?_⟩⟩
  · exact instrOfTuple_eq_some_iff.mpr (tuple_mrsBy n t)
  · exact instrOfTuple_eq_some_iff.mpr (tuple_msrBy n t)

end Sys2Proof.Proofs.Encoding
end

section
/-! PROOFS. The decoder and the encoder of 32-bit words (30_encoding.md rules R54 to R56): a word decodes to an
instruction exactly when it is the encoding of it. -/

namespace Sys2Proof.Proofs.Decoding

open Sys2Proof Sys2Proof.Machine Sys2Proof.Claims Sys2Proof.Laws Sys2Proof.Proofs.Encoding

/-- The word of an instruction is a System register move with the instruction's own fields. -/
theorem encoding_statement (i : Instr) : Encoding.Statement i := by
  cases i with
  | mrsSctlr2maskEl2 t => exact Encoding.mrsSctlr2maskEl2 t
  | msrSctlr2maskEl2 t => exact Encoding.msrSctlr2maskEl2 t
  | mrsSctlr2maskEl1 t => exact Encoding.mrsSctlr2maskEl1 t
  | msrSctlr2maskEl1 t => exact Encoding.msrSctlr2maskEl1 t

/-- What a word decodes to, by its fixed bits and its tuple. -/
theorem decodeWord_eq_ok_iff {w : BitVec 32} {i : Instr} :
    decodeWord w = .ok i ↔ isSysRegMove w = true ∧ i.tuple = tupleOfWord w := by
  rw [← instrOfTuple_eq_some_iff]
  unfold decodeWord
  by_cases hmove : isSysRegMove w = true
  · cases hrow : instrOfTuple (tupleOfWord w) <;> simp [hmove]
  · simp [hmove]

theorem decodeWord_encode (i : Instr) : decodeWord (encode i) = .ok i := by
  obtain ⟨-, hmove, htuple⟩ := encoding_statement i
  exact decodeWord_eq_ok_iff.2 ⟨hmove, htuple.symm⟩

theorem bitL_directionOfL (l : Bit) : (directionOfL l).bitL = l := by
  revert l; decide

/-- A System register move is put together again from its fields (rule R55). -/
theorem word_tupleOfWord {w : BitVec 32} (h : isSysRegMove w = true) : (tupleOfWord w).word = w := by
  simp only [isSysRegMove, Bool.and_eq_true, beq_iff_eq] at h
  obtain ⟨hfixed, hbit20⟩ := h
  have hop0 : (1#1 ++ w.extractLsb' 19 1 : BitVec 2).extractLsb' 0 1 = w.extractLsb' 19 1 :=
    BitVec.extractLsb'_append_eq_right
  simp only [SysRegTuple.word, tupleOfWord, bitL_directionOfL, hop0]
  rw [← hfixed, ← hbit20]
  apply BitVec.eq_of_getLsbD_eq
  intro i hi
  simp only [BitVec.getLsbD_append, BitVec.getLsbD_extractLsb']
  split_ifs <;> (rw [decide_eq_true (by omega), Bool.true_and]; congr 1; omega)

/-- Settles O1: the bytes of the encoder are the word's, and the word decodes to its instruction. -/
theorem decodeInvertsEncode : Obligations.DecodeInvertsEncode := by
  intro i rest
  rw [encodeBytes, decode_bytesOfWord, decodeWord_encode]

/-- Settles O2: a word is put together again from its fields, and only an instruction's own tuple selects it. -/
theorem decodedWordIsItsEncoding : Obligations.DecodedWordIsItsEncoding := by
  intro w i h
  obtain ⟨hmove, htuple⟩ := decodeWord_eq_ok_iff.1 h
  rw [encode, htuple, word_tupleOfWord hmove]

/-- A word decodes to an instruction exactly when it is the encoding of it. -/
theorem decodeWord_eq_ok_iff_encode {w : BitVec 32} {i : Instr} : decodeWord w = .ok i ↔ encode i = w :=
  ⟨decodedWordIsItsEncoding w i, fun h => h ▸ decodeWord_encode i⟩

/-- A word is a row's bits above the operand `t` exactly when it has the row's match under the mask. -/
theorem append_eq_iff_match (row : BitVec 27) (t : RegNum) (w : BitVec 32) :
    row ++ t = w ↔ w &&& 0xFFFFFFE0#32 = row ++ 0#5 ∧ t = w.extractLsb' 0 5 := by
  obtain ⟨hi, lo, rfl⟩ : ∃ (hi : BitVec 27) (lo : RegNum), w = hi ++ lo :=
    ⟨w.extractLsb' 5 27, w.extractLsb' 0 5,
      (BitVec.extractLsb'_eq_self.symm.trans
        (BitVec.extractLsb'_append_extractLsb'_eq_extractLsb' (len₁ := 5) (len₂ := 27) rfl).symm)⟩
  have hmask : 0xFFFFFFE0#32 = BitVec.allOnes 27 ++ 0#5 := by decide
  rw [hmask, BitVec.and_append, BitVec.and_allOnes, BitVec.and_zero, BitVec.append_left_inj,
    BitVec.extractLsb'_append_eq_right]
  constructor
  · intro h
    have hrow := congrArg (BitVec.extractLsb' 5 27) h
    have ht := congrArg (BitVec.extractLsb' 0 5) h
    rw [BitVec.extractLsb'_append_eq_left, BitVec.extractLsb'_append_eq_left] at hrow
    rw [BitVec.extractLsb'_append_eq_right, BitVec.extractLsb'_append_eq_right] at ht
    exact ⟨hrow.symm, ht⟩
  · rintro ⟨rfl, rfl⟩
    rfl

/-- The match of each row (rules R54, R55). -/
def rowMatch : Instr → BitVec 32
  | .mrsSctlr2maskEl2 _ => 0xD53C1460#32
  | .msrSctlr2maskEl2 _ => 0xD51C1460#32
  | .mrsSctlr2maskEl1 _ => 0xD5381460#32
  | .msrSctlr2maskEl1 _ => 0xD5181460#32

/-- An encoding is its row's match with the operand in the five low bits, which are 0 in the match. -/
theorem encode_eq_rowMatch_append (i : Instr) :
    encode i = (rowMatch i).extractLsb' 5 27 ++ i.tuple.t ∧
      rowMatch i = (rowMatch i).extractLsb' 5 27 ++ 0#5 := by
  cases i with
  | mrsSctlr2maskEl2 t => revert t; decide
  | msrSctlr2maskEl2 t => revert t; decide
  | mrsSctlr2maskEl1 t => revert t; decide
  | msrSctlr2maskEl1 t => revert t; decide

/-- A word decodes to an instruction exactly when it has its row's match and its operand. -/
theorem decodeWord_eq_ok_iff_match (w : BitVec 32) (i : Instr) :
    decodeWord w = .ok i ↔ w &&& 0xFFFFFFE0#32 = rowMatch i ∧ i.tuple.t = w.extractLsb' 0 5 := by
  obtain ⟨hencode, hmatch⟩ := encode_eq_rowMatch_append i
  rw [decodeWord_eq_ok_iff_encode, hencode, append_eq_iff_match, ← hmatch]

/-- Settles O3: a word decodes to an instruction exactly when it is its encoding, and each encoding is the row's
match with the operand in the five low bits. -/
theorem matchAndMaskOfTheFourRows : Obligations.MatchAndMaskOfTheFourRows := by
  intro w t
  exact ⟨decodeWord_eq_ok_iff_match w (.mrsSctlr2maskEl2 t), decodeWord_eq_ok_iff_match w (.msrSctlr2maskEl2 t),
    decodeWord_eq_ok_iff_match w (.mrsSctlr2maskEl1 t), decodeWord_eq_ok_iff_match w (.msrSctlr2maskEl1 t)⟩

/-- Settles O6: each word is evaluated. -/
theorem writtenOutWordsDecode : Obligations.WrittenOutWordsDecode :=
  ⟨rfl, rfl, rfl, rfl⟩

/-- A tuple is well formed exactly when it is the tuple of an instruction (rule R54). -/
theorem wellFormed_iff_tuple {u : SysRegTuple} : u.WellFormed = true ↔ ∃ i : Instr, i.tuple = u := by
  constructor
  · intro h
    obtain ⟨d, op0, op1, crn, crm, op2, t⟩ := u
    simp only [SysRegTuple.WellFormed, SysRegTuple.op0Ok, SysRegTuple.op1Ok, SysRegTuple.crnOk,
      SysRegTuple.crmOk, SysRegTuple.op2Ok, Bool.and_eq_true, Bool.or_eq_true, beq_iff_eq] at h
    obtain ⟨⟨⟨⟨rfl, hop1⟩, rfl⟩, rfl⟩, rfl⟩ := h
    rcases hop1 with rfl | rfl <;> cases d
    · exact ⟨.mrsSctlr2maskEl2 t, rfl⟩
    · exact ⟨.msrSctlr2maskEl2 t, rfl⟩
    · exact ⟨.mrsSctlr2maskEl1 t, rfl⟩
    · exact ⟨.msrSctlr2maskEl1 t, rfl⟩
  · rintro ⟨i, rfl⟩
    exact instr_wellFormed i

/-- The words that decode are the System register moves whose tuple is well formed. -/
theorem exists_decodeWord_ok_iff {w : BitVec 32} :
    (∃ i, decodeWord w = .ok i) ↔ isSysRegMove w = true ∧ (tupleOfWord w).WellFormed = true := by
  simp only [decodeWord_eq_ok_iff, wellFormed_iff_tuple, exists_and_left]

/-- Settles O7: a word is refused exactly when it does not decode, and the refusal of a System register move has
its tuple. -/
theorem otherEncodingsAreRefused : Obligations.OtherEncodingsAreRefused := by
  intro w
  rw [← exists_decodeWord_ok_iff]
  refine ⟨?_, fun hmove hwf => ?_⟩
  · cases decodeWord w <;> simp
  · have hrow : instrOfTuple (tupleOfWord w) = none := by
      rw [Option.eq_none_iff_forall_ne_some]
      intro i hi
      have := wellFormed_iff_tuple.2 ⟨i, instrOfTuple_eq_some_iff.1 hi⟩
      simp [hwf] at this
    rw [decodeWord, if_pos hmove, hrow]

end Sys2Proof.Proofs.Decoding
end

section
/-! PROOFS. The step (20_memory.md rules R45, R48; 10_state.md rule R36): what the fetch finds in the program text
is what runs, or is refused by name. -/

namespace Sys2Proof.Proofs.Steps

open Sys2Proof Sys2Proof.Machine Sys2Proof.Claims Sys2Proof.Laws Sys2Proof.Proofs.Decoding

section
variable {s : State} (haligned : s.pc.toNat % 4 = 0)
include haligned

theorem fetch_of_decode_ok {bytes rest : List Byte} {i : Instr} (hbytes : fetchBytes s = some bytes)
    (hdecode : decode bytes = .ok (i, rest)) : fetch s = .instr i := by
  simp [fetch, haligned, hbytes, hdecode]

theorem fetch_of_decode_error {bytes : List Byte} {why : DecodeReject} (hbytes : fetchBytes s = some bytes)
    (hdecode : decode bytes = .error why) : fetch s = .refused (.notDecoded why) := by
  simp [fetch, haligned, hbytes, hdecode]

theorem fetch_of_no_bytes (hbytes : fetchBytes s = none) : fetch s = .refused (.noInstruction s.pc) := by
  simp [fetch, haligned, hbytes]

end

theorem fetchBytes_of_bytes {s : State} {b0 b1 b2 b3 : Byte} (h0 : textByte s 0 = some b0)
    (h1 : textByte s 1 = some b1) (h2 : textByte s 2 = some b2) (h3 : textByte s 3 = some b3) :
    fetchBytes s = some [b0, b1, b2, b3] := by
  simp [fetchBytes, h0, h1, h2, h3]

/-- Where one of the four bytes is missing there is no instruction. -/
theorem fetchBytes_eq_none {s : State} {k : Nat} (hk : k < 4) (h : textByte s k = none) : fetchBytes s = none := by
  unfold fetchBytes
  split
  · next h0 h1 h2 h3 =>
    rcases (by omega : k = 0 ∨ k = 1 ∨ k = 2 ∨ k = 3) with rfl | rfl | rfl | rfl <;> simp_all
  · rfl

theorem setInputs_self {s : State} (h : s.inputs = []) : s.setInputs s.inputs.tail = s := by
  obtain ⟨⟩ := s
  cases h
  rfl

theorem step_of_fetch {s : State} (hin : nextInput s = none) :
    step s = match fetch s with
      | .instr i => exec i (s.setInputs s.inputs.tail)
      | .fault f => .fault f
      | .refused r => .refused r := by
  unfold step
  rw [hin]
  rfl

/-- Settles O8: the four bytes are what the fetch finds. -/
theorem stepRunsTheDecodedInstruction : Obligations.StepRunsTheDecodedInstruction := by
  intro s b0 b1 b2 b3 i hin haligned h0 h1 h2 h3 hdecode
  have hstep : step s = exec i (s.setInputs s.inputs.tail) := by
    rw [step_of_fetch hin, fetch_of_decode_ok haligned (fetchBytes_of_bytes h0 h1 h2 h3) hdecode]
  exact ⟨hstep, fun hinputs => by rw [hstep, setInputs_self hinputs]⟩

/-- The four bytes placed at `pc` are those the fetch finds. -/
theorem fetchBytes_withFetchWord (s : State) (w : BitVec 32) :
    fetchBytes (s.withFetchWord 32 w.toNat) = some (bytesOfWord w) := by
  have hword : BitVec.ofNat 32 (w.toNat % 2 ^ 32) = w := by
    rw [Nat.mod_eq_of_lt w.isLt, BitVec.ofNat_toNat, BitVec.setWidth_eq]
  have hbyte (k : Nat) (hk : k < (bytesOfWord w).length) :
      textByte (s.withFetchWord 32 w.toNat) k = some (bytesOfWord w)[k] := by
    rw [textByte, State.withFetchWord, placeWord, hword]
    exact memGet_memWriteBytes_inside hk
  exact fetchBytes_of_bytes (hbyte 0 (by simp [bytesOfWord])) (hbyte 1 (by simp [bytesOfWord]))
    (hbyte 2 (by simp [bytesOfWord])) (hbyte 3 (by simp [bytesOfWord]))

/-- Settles O9: the bytes placed at `pc` decode to the instruction, and no input is to come. -/
theorem placedInstructionRunsNext : Obligations.PlacedInstructionRunsNext := by
  intro s i haligned
  have hdecode : decode (bytesOfWord (encode i)) = .ok (i, []) := by
    simpa only [encodeBytes, List.append_nil] using decodeInvertsEncode i []
  have hfetch : fetch (s.withFetchWord 32 (encode i).toNat) = .instr i :=
    fetch_of_decode_ok (by exact haligned) (fetchBytes_withFetchWord s (encode i)) hdecode
  rw [step_of_fetch rfl, hfetch]
  rfl

/-- Settles O10: a word that does not decode and a missing byte are refused by the fetch. -/
theorem stepRefusesByName : Obligations.StepRefusesByName := by
  intro s hin haligned
  constructor
  · intro b0 b1 b2 b3 why h0 h1 h2 h3 hdecode
    rw [step_of_fetch hin, fetch_of_decode_error haligned (fetchBytes_of_bytes h0 h1 h2 h3) hdecode]
  · rintro ⟨k, hk, hnone⟩
    rw [step_of_fetch hin, fetch_of_no_bytes haligned (fetchBytes_eq_none hk hnone)]

/-- Each instruction is run behind the guard on `pc`. -/
theorem exec_of_not_pcFits {s : State} (h : ¬pcFits s = true) (i : Instr) :
    exec i s = .refused (.pcOverflow s.pc) := by
  cases i <;> exact if_neg h

/-- Settles O11: the guard on `pc` comes first in every instruction. -/
theorem noInstructionAtTheTopOfTheAddressSpace : Obligations.NoInstructionAtTheTopOfTheAddressSpace := by
  intro i s htop
  refine exec_of_not_pcFits ?_ i
  simp only [pcFits, decide_eq_true_eq]
  omega

end Sys2Proof.Proofs.Steps
end

section
/-! PROOFS. The causes of an event (60_exceptions.md rules R93, R94): the tests of the four instructions are the
lists of causes in the order of rule R94, and an instruction is its first cause raised or, with none, its access. -/

namespace Sys2Proof.Proofs.Causes

open Sys2Proof Sys2Proof.Machine Sys2Proof.Claims

/-! The tests are the causes. -/

theorem disabledByEL3_eq (s : State) : disabledByEL3 s = el3Disables s := by
  simp only [disabledByEL3, el3Disables, beq_eq_decide]

theorem nvx_bit_zero_iff (v : BitVec 3) : v.extractLsb' 0 1 = 1#1 ↔ v.getLsbD 0 = true := by
  revert v; decide

/-- The first cause of some causes, highest priority first. -/
def firstOf (l : List (Bool × Event)) : Option Event := (l.find? (·.1)).map (·.2)

@[simp] theorem firstOf_nil : firstOf [] = none := rfl

@[simp] theorem firstOf_cons (b : Bool) (ev : Event) (l : List (Bool × Event)) :
    firstOf ((b, ev) :: l) = if b = true then some ev else firstOf l := by
  cases b <;> rfl

theorem firstOf_append (l l' : List (Bool × Event)) : firstOf (l ++ l') = (firstOf l).or (firstOf l') := by
  simp only [firstOf, List.find?_append]
  cases l.find? (·.1) <;> rfl

theorem present_eq (s : State) : (s.cfg.featSRMASK && s.cfg.featAA64) = present s := rfl

theorem firstOf_causesEL2Name (s : State) : firstOf (causesEL2Name s) = checkEL2Name s := by
  simp only [causesEL2Name, checkEL2Name, checkAtEL2, el3Event, sddPriorityHolds, firstOf_cons, firstOf_nil,
    disabledByEL3_eq, nvx_bit_zero_iff, present_eq]
  cases hel : s.pstate.el with
  | el0 => simp
  | el1 => simp
  | el2 => by_cases hd : el3Disables s = true <;> by_cases hu : s.env.sddUndef = true <;> simp [hd, hu]
  | el3 => simp

theorem firstOf_causesEL1Name (control : Bit) (s : State) :
    firstOf (causesEL1Name control s) = checkEL1Name control s := by
  have hfgt : (s.env.el2Enabled && s.cfg.featFGT2 &&
      ((s.cfg.haveEL3 && s.env.scrFGTEn2 == 0#1) || control == 0#1)) = fgt2Traps control s := by
    simp only [fgt2Traps, beq_eq_decide]
  have hhcrx : (s.env.el2Enabled && (!s.env.hcrxEnabled || s.env.hcrxSRMASKEn == 0#1)) = hcrxTraps s := by
    simp only [hcrxTraps, beq_eq_decide]
  simp only [causesEL1Name, checkEL1Name, checkAtEL1, checkAtEL2, el3Event, sddPriorityHolds, firstOf_cons,
    firstOf_nil, disabledByEL3_eq, hfgt, hhcrx, present_eq]
  cases hel : s.pstate.el with
  | el0 => simp
  | el1 => by_cases hd : el3Disables s = true <;> by_cases hu : s.env.sddUndef = true <;> simp [hd, hu]
  | el2 => by_cases hd : el3Disables s = true <;> by_cases hu : s.env.sddUndef = true <;> simp [hd, hu]
  | el3 => simp

/-- SCTLR2MASK_EL1 is locked against an MSR by its name that reaches it at EL1 (rule R71 row 9). -/
def lockedEL1 (s : State) : Bool := s.pstate.el == .el1 && s.env.nvx != 0b111#3 && effMaskEL1 s != 0#64

section
variable (t : RegNum) (s : State)

@[simp] theorem firstCause_mrsEL2 : firstCause (.mrsSctlr2maskEl2 t) s = checkEL2Name s :=
  firstOf_causesEL2Name s

@[simp] theorem firstCause_msrEL2 : firstCause (.msrSctlr2maskEl2 t) s = checkEL2Name s :=
  firstOf_causesEL2Name s

@[simp] theorem firstCause_mrsEL1 :
    firstCause (.mrsSctlr2maskEl1 t) s = checkEL1Name s.env.hfgrtr2_nSCTLR2MASK_EL1 s :=
  firstOf_causesEL1Name _ s

@[simp] theorem firstCause_msrEL1 :
    firstCause (.msrSctlr2maskEl1 t) s = (checkEL1Name s.env.hfgwtr2_nSCTLR2MASK_EL1 s).or
      (if lockedEL1 s = true then some (.undefined .lockEL1) else none) := by
  have h := firstOf_append (causesEL1Name s.env.hfgwtr2_nSCTLR2MASK_EL1 s)
    [(lockedEL1 s, .undefined .lockEL1)]
  rwa [firstOf_causesEL1Name, firstOf_cons, firstOf_nil] at h

end

/-! An instruction is its first cause raised or, with none, its access. -/

/-- The state an event is raised at: after the lock test of SCTLR2MASK_EL1 where that is the cause (log 7). -/
def stateAtCause (ev : Event) (s : State) : State :=
  if ev = .undefined .lockEL1 then (lockTestEL1 s).2 else s

theorem stateAtCause_of_ne {ev : Event} {s : State} (h : ev ≠ .undefined .lockEL1) : stateAtCause ev s = s :=
  if_neg h

theorem stateAtCause_shape (ev : Event) (s : State) : ∃ w, stateAtCause ev s = s.setWindow w := by
  unfold stateAtCause
  split
  · exact lockTestEL1_shape s
  · exact ⟨s.window, rfl⟩

/-- What an instruction with no cause does: its access of the location it reaches (rules R60, R61, R70 to R72). -/
def access : Instr → State → Host.Outcome State Fault Refusal
  | .mrsSctlr2maskEl2 t, s => readMaskInto .sctlr2maskEL2 t s
  | .msrSctlr2maskEl2 t, s => lockedWrite .sctlr2maskEL2 t s
  | .mrsSctlr2maskEl1 t, s =>
    match el1NameLocation s with
    | .nvMem => readNvInto t s
    | .sctlr2maskEL1 => readMaskEL1Into t s
    | .sctlr2maskEL2 => readMaskInto .sctlr2maskEL1 t s
  | .msrSctlr2maskEl1 t, s =>
    match el1NameLocation s with
    | .nvMem => writeNvFrom t s
    | .sctlr2maskEL1 => writeMaskEL1From t s
    | .sctlr2maskEL2 => lockedWrite .sctlr2maskEL1 t s

/-- The tests of the EL1 name raise no lock. -/
theorem checkEL1Name_ne_lockEL1 (control : Bit) (s : State) :
    checkEL1Name control s ≠ some (.undefined .lockEL1) := by
  unfold checkEL1Name checkAtEL1 checkAtEL2 el3Event
  split
  · simp
  · split <;> (try split_ifs) <;> simp

theorem checkEL2Name_ne_lockEL1 (s : State) : checkEL2Name s ≠ some (.undefined .lockEL1) := by
  unfold checkEL2Name checkAtEL2 el3Event
  split
  · simp
  · split <;> (try split_ifs) <;> simp

/-- The location of the EL1 name where SCTLR2MASK_EL1 is locked is that register (rule R72). -/
theorem el1NameLocation_of_lockedEL1 {s : State} (h : lockedEL1 s = true) :
    el1NameLocation s = .sctlr2maskEL1 ∧ s.pstate.el = .el1 ∧ effMaskEL1 s ≠ 0#64 := by
  simp only [lockedEL1, Bool.and_eq_true, beq_iff_eq, bne_iff_ne] at h
  obtain ⟨⟨hel, hnvx⟩, heff⟩ := h
  exact ⟨by simp [el1NameLocation, hel, hnvx], hel, heff⟩

/-- An instruction whose first cause is `ev` raises that event. -/
theorem exec_of_firstCause {i : Instr} {s : State} {ev : Event} (hpc : pcFits s = true)
    (h : firstCause i s = some ev) : exec i s = raise ev (accessorOf i) (stateAtCause ev s) := by
  cases i with
  | mrsSctlr2maskEl2 t =>
    rw [firstCause_mrsEL2] at h
    rw [stateAtCause_of_ne fun e => checkEL2Name_ne_lockEL1 s (e ▸ h)]
    simp only [exec, execMrsSctlr2maskEl2, guardPc, hpc, h, if_true, accessorOf]
  | msrSctlr2maskEl2 t =>
    rw [firstCause_msrEL2] at h
    rw [stateAtCause_of_ne fun e => checkEL2Name_ne_lockEL1 s (e ▸ h)]
    simp only [exec, execMsrSctlr2maskEl2, guardPc, hpc, h, if_true, accessorOf]
  | mrsSctlr2maskEl1 t =>
    rw [firstCause_mrsEL1] at h
    rw [stateAtCause_of_ne fun e => checkEL1Name_ne_lockEL1 _ s (e ▸ h)]
    simp only [exec, execMrsSctlr2maskEl1, guardPc, hpc, h, if_true, accessorOf]
  | msrSctlr2maskEl1 t =>
    rw [firstCause_msrEL1] at h
    cases hcheck : checkEL1Name s.env.hfgwtr2_nSCTLR2MASK_EL1 s with
    | some ev' =>
      obtain rfl : ev' = ev := by simpa [hcheck] using h
      rw [stateAtCause_of_ne fun e => checkEL1Name_ne_lockEL1 _ s (e ▸ hcheck)]
      simp only [exec, execMsrSctlr2maskEl1, guardPc, hpc, hcheck, if_true, accessorOf]
    | none =>
      rw [hcheck, Option.none_or] at h
      split at h
      · next hlock =>
        cases h
        obtain ⟨hloc, hel, heff⟩ := el1NameLocation_of_lockedEL1 hlock
        have htest : (lockTestEL1 s).1 = true := by simpa [lockTestEL1] using heff
        simp only [exec, execMsrSctlr2maskEl1, guardPc, hpc, hcheck, if_true, accessorOf, hloc, writeMaskEL1From,
          hel, htest, stateAtCause]
      · cases h

/-- An instruction with no cause makes its access. -/
theorem exec_of_no_cause {i : Instr} {s : State} (hpc : pcFits s = true) (h : firstCause i s = none) :
    exec i s = access i s := by
  cases i with
  | mrsSctlr2maskEl2 t =>
    rw [firstCause_mrsEL2] at h
    simp only [exec, execMrsSctlr2maskEl2, guardPc, hpc, h, if_true, access]
  | msrSctlr2maskEl2 t =>
    rw [firstCause_msrEL2] at h
    simp only [exec, execMsrSctlr2maskEl2, guardPc, hpc, h, if_true, access]
  | mrsSctlr2maskEl1 t =>
    rw [firstCause_mrsEL1] at h
    cases hloc : el1NameLocation s <;> simp only [exec, execMrsSctlr2maskEl1, guardPc, hpc, h, if_true, access, hloc]
  | msrSctlr2maskEl1 t =>
    rw [firstCause_msrEL1, Option.or_eq_none_iff] at h
    cases hloc : el1NameLocation s <;> simp only [exec, execMsrSctlr2maskEl1, guardPc, hpc, h.1, if_true, access, hloc]

/-- With no cause SCTLR2MASK_EL1 is not locked against the instruction. -/
theorem lockedEL1_of_no_cause {t : RegNum} {s : State} (h : firstCause (.msrSctlr2maskEl1 t) s = none) :
    lockedEL1 s = false := by
  rw [firstCause_msrEL1, Option.or_eq_none_iff] at h
  simpa using h.2

/-- An MSR that reaches SCTLR2MASK_EL1 unlocked writes it, at EL1 after its lock test (rule R71). -/
theorem writeMaskEL1From_of_unlocked {t : RegNum} {s : State} (h : s.pstate.el = .el1 → effMaskEL1 s = 0#64) :
    writeMaskEL1From t s =
      finishWrite (writeMaskEL1 t (if s.pstate.el = .el1 then (lockTestEL1 s).2 else s)) := by
  unfold writeMaskEL1From
  split
  · next hel => simp [lockTestEL1, h hel]
  · rfl

theorem unlocked_of_not_lockedEL1 {s : State} (hlock : lockedEL1 s = false)
    (hloc : el1NameLocation s = .sctlr2maskEL1) (hel : s.pstate.el = .el1) : effMaskEL1 s = 0#64 := by
  have hnvx : s.env.nvx ≠ 0b111#3 := by
    intro e
    simp [el1NameLocation, hel, e] at hloc
  simpa [lockedEL1, hel, hnvx] using hlock

/-- A step of an instruction that answers a next state raised its first cause or made its access. -/
theorem exec_next {i : Instr} {s s' : State} (h : exec i s = .next s') : pcFits s = true ∧
    ((∃ ev, firstCause i s = some ev ∧ raise ev (accessorOf i) (stateAtCause ev s) = .next s') ∨
      (firstCause i s = none ∧ access i s = .next s')) := by
  have hpc : pcFits s = true := by
    by_contra hpc
    rw [Steps.exec_of_not_pcFits hpc] at h
    cases h
  refine ⟨hpc, ?_⟩
  cases hc : firstCause i s with
  | some ev => exact .inl ⟨ev, rfl, by rwa [← exec_of_firstCause hpc hc]⟩
  | none => exact .inr ⟨rfl, by rwa [← exec_of_no_cause hpc hc]⟩

/-! Where there is no cause. -/

theorem present_of_runs {s : State} (h : Runs s) : present s = true := by
  simp [present, h.1, h.2.1]

theorem pcFits_of_runs {s : State} (h : Runs s) : pcFits s = true := by
  simpa [pcFits] using h.2.2

theorem el3Disables_of_allows {s : State} (h : El3Allows s) : el3Disables s = false := by
  simp only [el3Disables, Bool.and_eq_false_iff, decide_eq_false_iff_not]
  cases h3 : s.cfg.haveEL3 with
  | false => exact .inl rfl
  | true => exact .inr (by rw [h h3]; decide)

theorem fgt2Traps_of_allows {control : Bit} {s : State} (h : El2Allows control s) :
    fgt2Traps control s = false := by
  cases h2 : s.env.el2Enabled with
  | false => simp [fgt2Traps, h2]
  | true =>
    cases hf : s.cfg.featFGT2 with
    | false => simp [fgt2Traps, hf]
    | true =>
      obtain ⟨rfl, h3⟩ := (h h2).1 hf
      cases hh : s.cfg.haveEL3 with
      | false => simp [fgt2Traps, hh]
      | true => simp [fgt2Traps, h3 hh]

theorem hcrxTraps_of_allows {control : Bit} {s : State} (h : El2Allows control s) : hcrxTraps s = false := by
  cases h2 : s.env.el2Enabled with
  | false => simp [hcrxTraps, h2]
  | true => simp [hcrxTraps, (h h2).2.1, (h h2).2.2]

theorem checkAtEL2_of_allows {s : State} (h : El3Allows s) : checkAtEL2 s = none := by
  simp [checkAtEL2, sddPriorityHolds, el3Disables_of_allows h]

theorem checkAtEL1_of_allows {control : Bit} {s : State} (h : El3Allows s) (h2 : El2Allows control s) :
    checkAtEL1 control s = none := by
  simp [checkAtEL1, sddPriorityHolds, el3Disables_of_allows h, fgt2Traps_of_allows h2, hcrxTraps_of_allows h2]

/-- At EL3, and at EL2 where EL3 allows it, the EL2 name has no cause (rule R60 rows 8 and 9). -/
theorem checkEL2Name_eq_none {s : State} (hr : Runs s)
    (hel : s.pstate.el = .el3 ∨ (s.pstate.el = .el2 ∧ El3Allows s)) : checkEL2Name s = none := by
  rcases hel with hel | ⟨hel, h3⟩
  · simp [checkEL2Name, present_of_runs hr, hel]
  · simp [checkEL2Name, present_of_runs hr, hel, checkAtEL2_of_allows h3]

/-- Where EL3 and EL2 allow it, the EL1 name has no cause (rule R70 rows 8, 9, 13, 14, 15). -/
theorem checkEL1Name_eq_none {control : Bit} {s : State} (hr : Runs s)
    (hel : s.pstate.el = .el3 ∨ (s.pstate.el = .el2 ∧ El3Allows s) ∨
      (s.pstate.el = .el1 ∧ El3Allows s ∧ El2Allows control s)) : checkEL1Name control s = none := by
  rcases hel with hel | ⟨hel, h3⟩ | ⟨hel, h3, h2⟩
  · simp [checkEL1Name, present_of_runs hr, hel]
  · simp [checkEL1Name, present_of_runs hr, hel, checkAtEL2_of_allows h3]
  · simp [checkEL1Name, present_of_runs hr, hel, checkAtEL1_of_allows h3 h2]

end Sys2Proof.Proofs.Causes
end

section
/-! PROOFS. The events of the four instructions (60_exceptions.md): their order (rules R93, R94), the verdict they are
with `onEvent = stop` (rule R95), the exception they are with `onEvent = enter` (rules R90, R102), the return (R96). -/

namespace Sys2Proof.Proofs.Events

open Sys2Proof Sys2Proof.Machine Sys2Proof.Claims Sys2Proof.Proofs.Causes

/-! The lock test of SCTLR2MASK_EL2. -/

theorem order_nil_of_not_recorded {s : State} (h : ¬recorded s = true) : s.window.order = [] := by
  simp only [recorded, Bool.or_eq_true, not_or, Bool.not_eq_true', Bool.not_eq_false] at h
  exact List.isEmpty_iff.1 h.2

theorem openWindow_of_settled {s : State} (h : Settled s) : openWindow s = ⟨s.sctlr2maskEL2, [], []⟩ := by
  rw [openWindow, if_pos h]
  rfl

/-- With no order open a read or a lock test meets the stored value. -/
theorem maskSeenBy_of_settled {s : State} (h : Settled s) (n : RegName) : maskSeenBy n s = s.sctlr2maskEL2 := by
  simp only [maskSeenBy, openWindow_of_settled h, valueBefore, List.take_nil, replay_nil]

/-- The lock test meets the value `maskSeenBy` says. -/
theorem lockTest_fst (n : RegName) (s : State) :
    (lockTest n s).1 = decide (effectiveEL2 s.cfg s.env (maskSeenBy n s) ≠ 0#64) := by
  unfold lockTest
  split
  · obtain ⟨d, hd⟩ := drawUpTo_shape s (freedom n s.window.order)
    rw [hd]
    rfl
  · next hr => rw [maskSeenBy_of_settled (order_nil_of_not_recorded hr)]; rfl

/-- What the lock test leaves of the window, and how many values it draws. -/
theorem lockTest_snd (n : RegName) (s : State) :
    (lockTest n s).2 = (s.setDraws (drawUpTo (freedom n s.window.order) s).2.draws).setWindow
      (if recorded s then insertAccess (drawUpTo (freedom n s.window.order) s).1
        ⟨s.window.order.length, n, .test s.env.effMaskEL2⟩ (openWindow s) else s.window) := by
  unfold lockTest
  split
  · obtain ⟨d, hd⟩ := drawUpTo_shape s (freedom n s.window.order)
    rw [hd]
    rfl
  · next hr => rw [order_nil_of_not_recorded hr]; rfl

/-! Events as verdicts. -/

/-- With terminal verdicts an event stops the machine. -/
theorem raise_of_stop {s : State} (h : s.cfg.onEvent = .stop) (ev : Event) (i : Instr) :
    raise ev (accessorOf i) s = .fault (faultOf ev i s) := by
  cases ev <;> simp only [raise, h] <;> rfl

theorem faultOf_setWindow (ev : Event) (i : Instr) (s : State) (w : Window) :
    faultOf ev i (s.setWindow w) = faultOf ev i s := by
  cases ev <;> rfl

/-- With terminal verdicts an instruction stops with its first cause. -/
theorem exec_eq_fault_of_firstCause {i : Instr} {s : State} {ev : Event} (hstop : s.cfg.onEvent = .stop)
    (hpc : pcFits s = true) (h : firstCause i s = some ev) : exec i s = .fault (faultOf ev i s) := by
  obtain ⟨w, hw⟩ := stateAtCause_shape ev s
  rw [exec_of_firstCause hpc h, hw, raise_of_stop (by exact hstop), faultOf_setWindow]

/-- The access of an MSR that reaches SCTLR2MASK_EL2 at EL2. -/
theorem access_of_writesMaskAtEL2 {i : Instr} {s : State} (h : writesMaskAtEL2 s i = true) :
    s.pstate.el = .el2 ∧ ∃ n t, accessorOf i = ⟨.write, n, t⟩ ∧ access i s = lockedWrite n t s := by
  cases i with
  | mrsSctlr2maskEl2 t => cases h
  | msrSctlr2maskEl2 t => exact ⟨by simpa [writesMaskAtEL2] using h, _, t, rfl, rfl⟩
  | mrsSctlr2maskEl1 t => cases h
  | msrSctlr2maskEl1 t =>
    simp only [writesMaskAtEL2, Bool.and_eq_true, beq_iff_eq] at h
    exact ⟨h.1, _, t, rfl, by simp [access, el1NameLocation, h.1, h.2]⟩

/-- The lock test of an MSR at EL2 refuses it. -/
theorem lockedWrite_of_locked {n : RegName} {t : RegNum} {s : State} (hel : s.pstate.el = .el2)
    (h : effectiveEL2 s.cfg s.env (maskSeenBy n s) ≠ 0#64) :
    lockedWrite n t s = raise (.undefined .lockEL2) ⟨.write, n, t⟩ (lockTest n s).2 := by
  rw [lockedWrite, if_pos hel, if_pos (by rw [lockTest_fst]; exact decide_eq_true h)]

/-- The lock test of an MSR at EL2 lets it write. -/
theorem lockedWrite_of_unlocked {n : RegName} {t : RegNum} {s : State} (hel : s.pstate.el = .el2)
    (h : effectiveEL2 s.cfg s.env (maskSeenBy n s) = 0#64) :
    lockedWrite n t s = finishWrite (writeMaskEL2 n t (lockTest n s).2) := by
  rw [lockedWrite, if_pos hel, if_neg (by rw [lockTest_fst]; simpa using h)]

/-- An MSR that the EL2 lock refuses raises its event after the lock test. -/
theorem exec_of_refusedByEL2Lock {i : Instr} {s : State} (hpc : pcFits s = true) (h : RefusedByEL2Lock i s) :
    exec i s = raise (.undefined .lockEL2) (accessorOf i) (lockTest (accessorOf i).name s).2 := by
  obtain ⟨hnone, hwrites, hlock⟩ := h
  obtain ⟨hel, n, t, hacc, haccess⟩ := access_of_writesMaskAtEL2 hwrites
  rw [hacc] at hlock ⊢
  rw [exec_of_no_cause hpc hnone, haccess, lockedWrite_of_locked hel hlock]

theorem exec_eq_fault_of_refusedByEL2Lock {i : Instr} {s : State} (hstop : s.cfg.onEvent = .stop)
    (hpc : pcFits s = true) (h : RefusedByEL2Lock i s) :
    exec i s = .fault (faultOf (.undefined .lockEL2) i s) := by
  rw [exec_of_refusedByEL2Lock hpc h, lockTest_snd, raise_of_stop (by exact hstop)]
  rfl

/-- A fault of an MSR of SCTLR2MASK_EL2 is its lock's, at EL2. -/
theorem lockedWrite_fault {n : RegName} {t : RegNum} {s : State} {f : Fault} (h : lockedWrite n t s = .fault f) :
    s.pstate.el = .el2 ∧ effectiveEL2 s.cfg s.env (maskSeenBy n s) ≠ 0#64 := by
  by_cases hel : s.pstate.el = .el2
  · refine ⟨hel, fun hunlocked => ?_⟩
    rw [lockedWrite_of_unlocked hel hunlocked] at h
    cases h
  · rw [lockedWrite, if_neg hel] at h
    cases h

/-- A fault of an access is the EL2 lock's or the memory path's. -/
theorem access_fault {i : Instr} {s : State} {f : Fault} (hnone : firstCause i s = none)
    (h : access i s = .fault f) :
    RefusedByEL2Lock i s ∨ ∃ why, nvCheck s = some why ∧ s.pstate.el = .el1 ∧ s.env.nvx = 0b111#3 ∧
      f = .nvStuck why s.pc (nvAddr s) := by
  cases i with
  | mrsSctlr2maskEl2 t => cases h
  | msrSctlr2maskEl2 t =>
    obtain ⟨hel, hlock⟩ := lockedWrite_fault h
    exact .inl ⟨hnone, by simp [writesMaskAtEL2, hel], hlock⟩
  | mrsSctlr2maskEl1 t =>
    cases hloc : el1NameLocation s with
    | nvMem =>
      obtain ⟨hel, hnvx⟩ := el1NameLocation_nvMem hloc
      simp only [access, hloc, readNvInto] at h
      cases hn : nvCheck s with
      | none => rw [hn] at h; cases h
      | some why => rw [hn] at h; cases h; exact .inr ⟨why, rfl, hel, hnvx, rfl⟩
    | sctlr2maskEL1 => simp only [access, hloc] at h; cases h
    | sctlr2maskEL2 => simp only [access, hloc] at h; cases h
  | msrSctlr2maskEl1 t =>
    cases hloc : el1NameLocation s with
    | nvMem =>
      obtain ⟨hel, hnvx⟩ := el1NameLocation_nvMem hloc
      simp only [access, hloc, writeNvFrom] at h
      cases hn : nvCheck s with
      | none => rw [hn] at h; cases h
      | some why => rw [hn] at h; cases h; exact .inr ⟨why, rfl, hel, hnvx, rfl⟩
    | sctlr2maskEL1 =>
      have hunlocked := unlocked_of_not_lockedEL1 (lockedEL1_of_no_cause hnone) hloc
      simp only [access, hloc, writeMaskEL1From_of_unlocked hunlocked] at h
      cases h
    | sctlr2maskEL2 =>
      simp only [access, hloc] at h
      obtain ⟨hel, hlock⟩ := lockedWrite_fault h
      exact .inl ⟨hnone, by simp [writesMaskAtEL2, hel, (el1NameLocation_maskEL2 hloc).2], hlock⟩

/-- Settles O17: the first cause is raised, and with none a fault is the access's. -/
theorem eventsFollowThePriority : Obligations.EventsFollowThePriority := by
  intro i s hstop hpc
  have hfits : pcFits s = true := decide_eq_true hpc
  refine ⟨fun ev h => exec_eq_fault_of_firstCause hstop hfits h, fun hnone hwrites hsettled heff => ?_,
    fun hnone f hf => ?_⟩
  · refine exec_eq_fault_of_refusedByEL2Lock hstop hfits ⟨hnone, hwrites, ?_⟩
    rwa [maskSeenBy_of_settled hsettled]
  · have haccess := exec_of_no_cause hfits hnone ▸ hf
    rcases access_fault hnone haccess with hlock | hcell
    · have hexec := exec_eq_fault_of_refusedByEL2Lock hstop hfits hlock
      obtain ⟨-, hwrites, heff⟩ := hlock
      rw [hexec] at hf
      cases hf
      refine .inl ⟨rfl, hwrites, fun hsettled => ?_⟩
      rwa [maskSeenBy_of_settled hsettled] at heff
    · exact .inr hcell

/-- Settles O18: the presence of the register is the first test of all four. -/
theorem absentRegisterIsUndefined : Obligations.AbsentRegisterIsUndefined := by
  intro i s hstop hpc habsent
  have hpresent : present s = false := by
    rcases habsent with h | h <;> simp [present, h]
  have hcause : firstCause i s = some (.undefined .notPresent) := by
    cases i <;> simp [checkEL2Name, checkEL1Name, hpresent]
  exact exec_eq_fault_of_firstCause hstop (decide_eq_true hpc) hcause

/-- At EL2 the tests of EL3 come first in all four instructions (rule R73). -/
theorem firstCause_at_el2 {s : State} {ev : Event} (hp : present s = true) (hel : s.pstate.el = .el2)
    (h : checkAtEL2 s = some ev) (i : Instr) : firstCause i s = some ev := by
  cases i <;> simp [checkEL2Name, checkEL1Name, hp, hel, h]

/-- At EL3 no instruction has a cause (rule R73). -/
theorem firstCause_at_el3 {s : State} (hp : present s = true) (hel : s.pstate.el = .el3) (i : Instr) :
    firstCause i s = none := by
  cases i <;> simp [checkEL2Name, checkEL1Name, lockedEL1, hp, hel]

/-- At EL3 every access completes. -/
theorem access_at_el3 {s : State} (hel : s.pstate.el = .el3) (i : Instr) : ∃ s', access i s = .next s' := by
  have hloc : el1NameLocation s = .sctlr2maskEL1 := by simp only [el1NameLocation, hel]
  have hne1 : s.pstate.el ≠ .el1 := by simp [hel]
  have hne2 : s.pstate.el ≠ .el2 := by simp [hel]
  cases i with
  | mrsSctlr2maskEl2 t => exact ⟨_, rfl⟩
  | msrSctlr2maskEl2 t => exact ⟨_, if_neg hne2⟩
  | mrsSctlr2maskEl1 t => exact ⟨_, by simp only [access, hloc]; rfl⟩
  | msrSctlr2maskEl1 t => exact ⟨_, by simp only [access, hloc]; exact if_neg hne1⟩

theorem checkEL2Name_at_el1 {s : State} (hp : present s = true) (hel : s.pstate.el = .el1) :
    checkEL2Name s =
      some (if s.env.nvx.getLsbD 0 then .trap .el2 .nvTrap else .undefined .el2NameFromEL1) := by
  simp [checkEL2Name, hp, hel, nvx_bit_zero_iff, apply_ite some]

/-- Settles O19: at EL2 the tests of EL3 are the first cause of all four, at EL1 `nvx[0]` decides the EL2 name, at
EL3 there is no cause and every access completes. -/
theorem controlsActAlikeOnBothNames : Obligations.ControlsActAlikeOnBothNames := by
  intro i j s hstop hr
  have hp := present_of_runs hr
  have hpc := pcFits_of_runs hr
  refine ⟨fun hel h3 hscr => ?_, fun hel t => ?_, fun hel => ?_⟩
  · have hd : el3Disables s = true := by simp [el3Disables, h3, hscr]
    obtain ⟨ev, hev⟩ : ∃ ev, checkAtEL2 s = some ev := by
      unfold checkAtEL2
      split
      · exact ⟨_, rfl⟩
      · exact ⟨_, rfl⟩
    exact ⟨ev, exec_eq_fault_of_firstCause hstop hpc (firstCause_at_el2 hp hel hev i),
      exec_eq_fault_of_firstCause hstop hpc (firstCause_at_el2 hp hel hev j)⟩
  · have hcheck := checkEL2Name_at_el1 hp hel
    rw [exec_eq_fault_of_firstCause hstop hpc ((firstCause_mrsEL2 t s).trans hcheck),
      exec_eq_fault_of_firstCause hstop hpc ((firstCause_msrEL2 t s).trans hcheck)]
    split <;> exact ⟨rfl, rfl⟩
  · obtain ⟨s', hs'⟩ := access_at_el3 hel i
    exact ⟨s', by rw [exec_of_no_cause hpc (firstCause_at_el3 hp hel i), hs']⟩

/-! Events taken as exceptions. -/

section
variable (h : HandlerEL) (esr : Word) (s : State)

/-- What an entry leaves in the exception registers of its level (rule R102). -/
theorem enterException_exc_self : (enterException h esr s).exc h =
    { s.exc h with esr := esr, elr := s.pc, spsr := s.pstate } := by
  cases h <;> rfl

/-- An entry leaves the exception registers of the other levels. -/
theorem enterException_exc_of_ne {k : HandlerEL} (hk : k ≠ h) : (enterException h esr s).exc k = s.exc k := by
  cases h <;> cases k <;> simp at hk <;> rfl

theorem enterException_architectureKept : ArchitectureKept s (enterException h esr s) := by
  cases h <;> exact ⟨rfl, rfl, rfl, rfl, rfl, rfl, rfl, rfl, rfl, rfl, rfl, rfl⟩

@[simp] theorem enterException_window : (enterException h esr s).window = s.window := by
  cases h <;> rfl

end

/-- An instruction whose first cause is a trap enters the trap's handler (rules R91, R102). -/
theorem exec_of_trap {i : Instr} {s : State} {target : TrapTarget} {why : TrapReason}
    (henter : s.cfg.onEvent = .enter) (hpc : pcFits s = true) (h : firstCause i s = some (.trap target why)) :
    exec i s = .next (enterException target.handler (trapEsr (accessorOf i)) s) := by
  rw [exec_of_firstCause hpc h, stateAtCause_of_ne (by simp)]
  simp only [raise, henter]

/-- Settles O21: the fields of the entry are read off. -/
theorem trapIsTakenToItsTarget : Obligations.TrapIsTakenToItsTarget := by
  intro i s target why henter hpc h
  exact ⟨_, exec_of_trap henter (decide_eq_true hpc) h, enterException_exc_self _ _ _, rfl, rfl,
    fun _ hk => enterException_exc_of_ne _ _ _ hk, enterException_architectureKept _ _ _,
    enterException_window _ _ _⟩

/-- Settles O24: the return reads back what the entry saved at the same level. -/
theorem returnUndoesTheTrapEntry : Obligations.ReturnUndoesTheTrapEntry := by
  intro i s s' target why henter hpc h hexec
  rw [exec_of_trap henter (decide_eq_true hpc) h] at hexec
  cases hexec
  have hsaved := enterException_exc_self target.handler (trapEsr (accessorOf i)) s
  have hcfg := (enterException_architectureKept target.handler (trapEsr (accessorOf i)) s).cfg
  refine ⟨returnFrom target.handler (enterException target.handler (trapEsr (accessorOf i)) s), ?_, ?_, ?_⟩
  · simp only [applyInput, exceptionReturn, hcfg, henter]
    cases target <;> rfl
  · show ((enterException target.handler (trapEsr (accessorOf i)) s).exc target.handler).spsr = s.pstate
    rw [hsaved]
  · show ((enterException target.handler (trapEsr (accessorOf i)) s).exc target.handler).elr = s.pc
    rw [hsaved]

/-- The state after an `UNDEFINED` is taken: the low bits of the syndrome and the offset are drawn (log 6). -/
def undefEntered (s : State) : State :=
  enterException (undefTarget s) (undefEsr (drawWord s).1) (drawWord s).2

theorem raise_undefined_of_enter {s : State} (henter : s.cfg.onEvent = .enter) (why : UndefReason) (a : Accessor) :
    raise (.undefined why) a s = .next (undefEntered s) := by
  simp only [raise, henter, undefEntered]

/-- The level an `UNDEFINED` is taken to (rule R90). -/
theorem undefTarget_toEL (s : State) : (undefTarget s).toEL =
    if s.pstate.el = .el0 then (if s.env.undefEL0ToEL2 then EL.el2 else EL.el1) else s.pstate.el := by
  cases hel : s.pstate.el <;> simp only [undefTarget, hel]
  · cases s.env.undefEL0ToEL2 <;> rfl
  · rfl
  · rfl
  · rfl

/-- The syndrome of an `UNDEFINED`: class 0x00 and nothing above it, and the low bits drawn. -/
theorem undefEsr_bits (free : Word) :
    (undefEsr free).extractLsb' 26 38 = 0#38 ∧ (undefEsr free).extractLsb' 0 26 = free.extractLsb' 0 26 := by
  constructor
  · rw [undefEsr, BitVec.extractLsb'_append_eq_left]
    rfl
  · exact BitVec.extractLsb'_append_eq_right

/-- What the entry of an `UNDEFINED` raised at `s₁` leaves, where `s₁` differs from `s` in the window and in the
draws made. -/
structure UndefTaken (s s' : State) (d : Nat) : Prop where
  pstate : s'.pstate = ⟨(undefTarget s).toEL, true⟩
  elr : (s'.exc (undefTarget s)).elr = s.pc
  spsr : (s'.exc (undefTarget s)).spsr = s.pstate
  vbar : (s'.exc (undefTarget s)).vbar = (s.exc (undefTarget s)).vbar
  esrHigh : (s'.exc (undefTarget s)).esr.extractLsb' 26 38 = 0#38
  esrLow : (s'.exc (undefTarget s)).esr.extractLsb' 0 26 = (Config.freeWord d).extractLsb' 0 26
  pc : s'.pc = vectorAddress (s.exc (undefTarget s)).vbar (Config.freeWord (d + 1))
  others : ∀ k, k ≠ undefTarget s → s'.exc k = s.exc k
  kept : ArchitectureKept s s'

theorem undefEntered_taken (s : State) (d : Nat) (w : Window) :
    UndefTaken s (undefEntered ((s.setDraws d).setWindow w)) d := by
  have hexc : (undefEntered ((s.setDraws d).setWindow w)).exc (undefTarget s) =
      { s.exc (undefTarget s) with esr := undefEsr (Config.freeWord d), elr := s.pc, spsr := s.pstate } :=
    enterException_exc_self _ _ _
  exact {
    pstate := rfl
    elr := by rw [hexc]
    spsr := by rw [hexc]
    vbar := by rw [hexc]
    esrHigh := by rw [hexc]; exact (undefEsr_bits _).1
    esrLow := by rw [hexc]; exact (undefEsr_bits _).2
    pc := rfl
    others := fun k hk => enterException_exc_of_ne _ _ _ hk
    kept := by
      obtain ⟨h1, h2, h3, h4, h5, h6, h7, h8, h9, h10, h11, h12⟩ := enterException_architectureKept
        (undefTarget s) (undefEsr (Config.freeWord d)) (drawWord ((s.setDraws d).setWindow w)).2
      exact ⟨h1, h2, h3, h4, h5, h6, h7, h8, h9, h10, h11, h12⟩ }

/-- Where the lock test of SCTLR2MASK_EL1 is put among the open accesses (log 7). -/
theorem lockTestEL1_window (s : State) :
    if s.window.order = [] then (lockTestEL1 s).2 = s
    else ∃ back ≤ freedom .sctlr2maskEL1 s.window.order, (lockTestEL1 s).2 = s.setWindow (insertAccess back
      ⟨s.window.order.length, .sctlr2maskEL1,
        .testEL1 (if s.env.effMaskEL1 = none then readHeldAt .maskEL1 s else none)⟩ s.window) := by
  split
  · next hnil => simp only [lockTestEL1, openElsewhere, if_pos hnil]
  · next hne =>
    have hopen : openWindow s = s.window := if_neg hne
    simp only [lockTestEL1, openElsewhere, if_neg hne, hopen, List.getLastD_eq_getLast?]
    refine ⟨_, ?_, rfl⟩
    cases hl : (placesFor s.cfg s.window (nextAccess .sctlr2maskEL1
        (.testEL1 (if s.env.effMaskEL1 = none then readHeldAt .maskEL1 s else none)) s)).getLast? with
    | none => exact Nat.zero_le _
    | some back => exact le_freedom_of_mem_placesFor (List.mem_of_getLast? hl)

/-- An `UNDEFINED` that is the first cause leaves of the window what `LockTestKept` says. -/
theorem lockTestKept_of_firstCause {i : Instr} {s : State} {why : UndefReason}
    (h : firstCause i s = some (.undefined why)) :
    LockTestKept i s (undefEntered (stateAtCause (.undefined why) s)) ∧
      (why ≠ .lockEL1 → (undefEntered (stateAtCause (.undefined why) s)).window = s.window) := by
  refine ⟨⟨fun hnone => by simp [hnone] at h, fun hlock => ?_⟩, fun hne => ?_⟩
  · obtain rfl : why = .lockEL1 := by simpa [h] using hlock
    have hw := lockTestEL1_window s
    simp only [stateAtCause, if_true]
    split
    · next hnil =>
      rw [if_pos hnil] at hw
      rw [hw]
      exact enterException_window _ _ _
    · next hnil =>
      rw [if_neg hnil] at hw
      obtain ⟨back, hback, hw⟩ := hw
      rw [hw]
      exact ⟨back, hback, enterException_window _ _ _⟩
  · rw [stateAtCause_of_ne (by simpa using hne)]
    exact enterException_window _ _ _

/-- Settles O22: the event is raised after the lock test where that is its cause, and the fields of the entry are
read off. -/
theorem undefinedIsTakenToItsLevel : Obligations.UndefinedIsTakenToItsLevel := by
  intro i s why henter hpc h
  have hfits : pcFits s = true := decide_eq_true hpc
  rcases h with h | h
  · obtain ⟨w, hw⟩ := stateAtCause_shape (.undefined why) s
    obtain ⟨hkept, hwindow⟩ := lockTestKept_of_firstCause h
    have hexec := exec_of_firstCause hfits h
    rw [raise_undefined_of_enter (by rw [hw]; exact henter)] at hexec
    have t : UndefTaken s (undefEntered (stateAtCause (.undefined why) s)) s.draws := by
      rw [hw]
      exact undefEntered_taken s s.draws w
    refine ⟨_, undefTarget s, s.draws, hexec, by simp [h], undefTarget_toEL s, t.pstate, t.elr, t.spsr, t.vbar,
      t.esrHigh, t.esrLow, t.pc, t.others, t.kept, hkept, fun _ => hwindow⟩
  · have hexec := exec_of_refusedByEL2Lock hfits h
    rw [lockTest_snd, raise_undefined_of_enter (by exact henter)] at hexec
    have t := undefEntered_taken s (drawUpTo (freedom (accessorOf i).name s.window.order) s).2.draws
      (if recorded s then insertAccess (drawUpTo (freedom (accessorOf i).name s.window.order) s).1
        ⟨s.window.order.length, (accessorOf i).name, .test s.env.effMaskEL2⟩ (openWindow s) else s.window)
    have hnone := h.1
    refine ⟨_, undefTarget s, _, hexec, by rw [if_pos hnone], undefTarget_toEL s, t.pstate, t.elr, t.spsr, t.vbar,
      t.esrHigh, t.esrLow, t.pc, t.others, t.kept,
      ⟨fun _ => enterException_window _ _ _, fun hlock => by simp [hnone] at hlock⟩,
      fun hcause => by simp [hnone] at hcause⟩

end Sys2Proof.Proofs.Events
end

section
/-! PROOFS. Frames: what each operation of the meanings leaves alone, and so what an instruction does (rules R33, R60,
R61, R70, R71, R102). -/

namespace Sys2Proof.Proofs.Frames

open Sys2Proof Sys2Proof.Machine Sys2Proof.Claims Sys2Proof.Proofs.Causes Sys2Proof.Proofs.Events

/-! The accesses elsewhere, by the fields they change. -/

section
variable (t : RegNum) (s : State)

theorem readMaskEL1_shape : ∃ w, (readMaskEL1 t s).2 = s.setWindow w := by
  obtain ⟨w, hw⟩ := openElsewhere_shape s (.elsewhere (sourceAt .maskEL1 s.sctlr2maskEL1 s))
  exact ⟨_, by rw [readMaskEL1, hw]; rfl⟩

theorem writeMaskEL1_shape : ∃ w, writeMaskEL1 t s = (s.setMaskEL1 (readX s t)).setWindow w := by
  obtain ⟨w, hw⟩ := openElsewhere_shape s (.elsewhere (sourceOf t s))
  exact ⟨_, by rw [writeMaskEL1, hw]; rfl⟩

theorem nvRead_shape : ∃ w, (nvRead t s).2 = ((s.setDraws (s.draws + 1)).setNvEvents
    (s.nvEvents ++ [.memRead (nvAddr s) (nvValue s)])).setWindow w := by
  obtain ⟨w, hw⟩ := openElsewhere_shape s (.elsewhere (nvSource s))
  exact ⟨_, by rw [nvRead, hw]; rfl⟩

theorem nvWrite_shape : ∃ w, nvWrite t s = ((s.setMem (memWrite8 s.cfg.nvBigEndian s.mem (nvAddr s)
    (readX s t))).setNvEvents (s.nvEvents ++ [.memWrite (nvAddr s) (readX s t)])).setWindow w := by
  obtain ⟨w, hw⟩ := openElsewhere_shape s (.elsewhere (sourceOf t s))
  exact ⟨_, by rw [nvWrite, hw]; rfl⟩

end

/-! What no operation of a meaning changes. -/

/-- What none of the operations of an accessor that completes changes: what `SystemKept` says, and `pc`. -/
structure Untouched (s s' : State) : Prop where
  system : SystemKept s s'
  pc : s'.pc = s.pc

theorem Untouched.trans {s s' s'' : State} (h : Untouched s s') (h' : Untouched s' s'') : Untouched s s'' where
  system := {
    cfg := h'.system.cfg.trans h.system.cfg
    env := h'.system.env.trans h.system.env
    pstate := h'.system.pstate.trans h.system.pstate
    sctlr2 := h'.system.sctlr2.trans h.system.sctlr2
    excEL1 := h'.system.excEL1.trans h.system.excEL1
    excEL2 := h'.system.excEL2.trans h.system.excEL2
    excEL3 := h'.system.excEL3.trans h.system.excEL3
    regions := h'.system.regions.trans h.system.regions
    text := h'.system.text.trans h.system.text
    inputs := h'.system.inputs.trans h.system.inputs }
  pc := h'.pc.trans h.pc

section
variable (s : State)

theorem untouched_setX (v : Vector Word 31) : Untouched s (s.setX v) :=
  ⟨⟨rfl, rfl, rfl, rfl, rfl, rfl, rfl, rfl, rfl, rfl⟩, rfl⟩

theorem untouched_setMaskEL2 (v : Word) : Untouched s (s.setMaskEL2 v) :=
  ⟨⟨rfl, rfl, rfl, rfl, rfl, rfl, rfl, rfl, rfl, rfl⟩, rfl⟩

theorem untouched_setMaskEL1 (v : Word) : Untouched s (s.setMaskEL1 v) :=
  ⟨⟨rfl, rfl, rfl, rfl, rfl, rfl, rfl, rfl, rfl, rfl⟩, rfl⟩

theorem untouched_setMem (v : Memory) : Untouched s (s.setMem v) :=
  ⟨⟨rfl, rfl, rfl, rfl, rfl, rfl, rfl, rfl, rfl, rfl⟩, rfl⟩

theorem untouched_setWindow (v : Window) : Untouched s (s.setWindow v) :=
  ⟨⟨rfl, rfl, rfl, rfl, rfl, rfl, rfl, rfl, rfl, rfl⟩, rfl⟩

theorem untouched_setMaskHist (v : List Word) : Untouched s (s.setMaskHist v) :=
  ⟨⟨rfl, rfl, rfl, rfl, rfl, rfl, rfl, rfl, rfl, rfl⟩, rfl⟩

theorem untouched_setNvEvents (v : List NvEvent) : Untouched s (s.setNvEvents v) :=
  ⟨⟨rfl, rfl, rfl, rfl, rfl, rfl, rfl, rfl, rfl, rfl⟩, rfl⟩

theorem untouched_setDraws (v : Nat) : Untouched s (s.setDraws v) :=
  ⟨⟨rfl, rfl, rfl, rfl, rfl, rfl, rfl, rfl, rfl, rfl⟩, rfl⟩

variable (t : RegNum) (n : RegName)

theorem untouched_writeX (v : Word) : Untouched s (writeX s t v) := by
  obtain ⟨x, h⟩ := writeX_shape s t v
  rw [h]
  exact untouched_setX s x

theorem untouched_readMaskEL2 : Untouched s (readMaskEL2 n t s).2 := by
  obtain ⟨w, d, h⟩ := readMaskEL2_shape s n t
  rw [h]
  exact (untouched_setDraws s d).trans (untouched_setWindow _ w)

theorem untouched_lockTest : Untouched s (lockTest n s).2 := by
  obtain ⟨w, d, h⟩ := lockTest_shape s n
  rw [h]
  exact (untouched_setDraws s d).trans (untouched_setWindow _ w)

theorem untouched_lockTestEL1 : Untouched s (lockTestEL1 s).2 := by
  obtain ⟨w, h⟩ := lockTestEL1_shape s
  rw [h]
  exact untouched_setWindow s w

theorem untouched_writeMaskEL2 : Untouched s (writeMaskEL2 n t s) := by
  obtain ⟨x, m1, mem, ev, m2, w, d, hist, h⟩ := writeMaskEL2_shape s n t
  rw [h]
  exact (untouched_setMaskHist s hist).trans <| (untouched_setDraws _ d).trans <| (untouched_setWindow _ w).trans <|
    (untouched_setMaskEL2 _ m2).trans <| (untouched_setX _ x).trans <| (untouched_setMaskEL1 _ m1).trans <|
    (untouched_setMem _ mem).trans <| untouched_setNvEvents _ ev

theorem untouched_readMaskEL1 : Untouched s (readMaskEL1 t s).2 := by
  obtain ⟨w, h⟩ := readMaskEL1_shape t s
  rw [h]
  exact untouched_setWindow s w

theorem untouched_writeMaskEL1 : Untouched s (writeMaskEL1 t s) := by
  obtain ⟨w, h⟩ := writeMaskEL1_shape t s
  rw [h]
  exact (untouched_setMaskEL1 s _).trans (untouched_setWindow _ w)

theorem untouched_nvRead : Untouched s (nvRead t s).2 := by
  obtain ⟨w, h⟩ := nvRead_shape t s
  rw [h]
  exact (untouched_setDraws s _).trans ((untouched_setNvEvents _ _).trans (untouched_setWindow _ w))

theorem untouched_nvWrite : Untouched s (nvWrite t s) := by
  obtain ⟨w, h⟩ := nvWrite_shape t s
  rw [h]
  exact (untouched_setMem s _).trans ((untouched_setNvEvents _ _).trans (untouched_setWindow _ w))

end

/-- An accessor that answers a next state took its event as an exception or completed: then it left what no operation
changes, and `pc` is the next instruction's. -/
theorem ended_taken_or_completed {s s' : State} (h : Ended s s') :
    (s.cfg.onEvent = .enter ∧ ∃ l esr w d, s' = enterException l esr ((s.setWindow w).setDraws d)) ∨
      ∃ s₁, Untouched s s₁ ∧ s' = advance s₁ := by
  cases h with
  | taken l esr d henter => exact .inl ⟨henter, l, esr, s.window, d, rfl⟩
  | locked n l esr d henter _ _ =>
    exact .inl ⟨henter, l, esr, _, d, by rw [lockTest_snd]; rfl⟩
  | lockedEL1 l esr d henter _ =>
    obtain ⟨w, hw⟩ := lockTestEL1_shape s
    exact .inl ⟨henter, l, esr, w, d, by rw [hw]⟩
  | readMaskEL2 n t _ => exact .inr ⟨_, (untouched_readMaskEL2 s t n).trans (untouched_writeX _ t _), rfl⟩
  | writeMaskAtEL2 n t _ _ => exact .inr ⟨_, (untouched_lockTest s n).trans (untouched_writeMaskEL2 _ t n), rfl⟩
  | writeMaskAtEL3 n t _ => exact .inr ⟨_, untouched_writeMaskEL2 s t n, rfl⟩
  | readMaskEL1 t => exact .inr ⟨_, (untouched_readMaskEL1 s t).trans (untouched_writeX _ t _), rfl⟩
  | writeMaskEL1AtEL1 t _ _ => exact .inr ⟨_, (untouched_lockTestEL1 s).trans (untouched_writeMaskEL1 _ t), rfl⟩
  | writeMaskEL1Above t _ => exact .inr ⟨_, untouched_writeMaskEL1 s t, rfl⟩
  | readNv t _ _ => exact .inr ⟨_, (untouched_nvRead s t).trans (untouched_writeX _ t _), rfl⟩
  | writeNv t _ _ => exact .inr ⟨_, untouched_nvWrite s t, rfl⟩

/-- What an instruction leaves alone, whether it completes or its event is taken. -/
structure InstrKept (s s' : State) : Prop where
  cfg : s'.cfg = s.cfg
  env : s'.env = s.env
  sctlr2 : s'.sctlr2EL2 = s.sctlr2EL2
  regions : s'.regions = s.regions
  text : s'.text = s.text
  inputs : s'.inputs = s.inputs

theorem exec_instrKept {i : Instr} {s s' : State} (h : exec i s = .next s') : InstrKept s s' := by
  rcases ended_taken_or_completed (exec_ended h) with ⟨-, l, esr, w, d, rfl⟩ | ⟨s₁, hs₁, rfl⟩
  · have k := enterException_architectureKept l esr ((s.setWindow w).setDraws d)
    exact ⟨k.cfg, k.env, k.sctlr2, k.regions, k.text, k.inputs⟩
  · have k := hs₁.system
    exact ⟨k.cfg, k.env, k.sctlr2, k.regions, k.text, k.inputs⟩

/-! What an input leaves alone. -/

theorem writeSctlr2EL2_next {v : Word} {s s' : State} (h : writeSctlr2EL2 v s = .next s') :
    (s.pstate.el = .el2 ∨ s.pstate.el = .el3) ∧ ∃ r d, s' = (s.setDraws d).setSctlr2 r := by
  unfold writeSctlr2EL2 at h
  split at h
  · next hbinds =>
    obtain ⟨d, hd⟩ := drawUpTo_shape s s.maskHist.length
    refine ⟨?_, _, d, by rw [hd] at h; cases h; rfl⟩
    simp only [maskBinds, Bool.and_eq_true, Bool.or_eq_true, decide_eq_true_eq] at hbinds
    tauto
  · split at h
    · next hel => exact ⟨hel, _, s.draws, by cases h; rfl⟩
    · cases h

theorem agentWrite_next {v : Word} {s s' : State} (h : agentWrite v s = .next s') :
    nvCheck s = none ∧ s' = setHeld (hold (.cell (nvAddr s)) none s.window.held)
      ((s.setMem (memWrite8 s.cfg.nvBigEndian s.mem (nvAddr s) v)).setNvEvents
        (s.nvEvents ++ [.agentWrite (nvAddr s) v])) := by
  unfold agentWrite at h
  split at h
  · cases h
  · next hn => exact ⟨hn, by cases h; rfl⟩

theorem exceptionReturn_next {s s' : State} (h : exceptionReturn s = .next s') : ∃ l, s' = returnFrom l s := by
  unfold exceptionReturn at h
  split at h
  · cases h
  · split at h
    · cases h
    · exact ⟨.el1, by cases h; rfl⟩
    · exact ⟨.el2, by cases h; rfl⟩
    · exact ⟨.el3, by cases h; rfl⟩

/-- Each input that answers a next state, and the state it answers. -/
inductive Applied (s : State) : Input → State → Prop where
  | env (el : EL) (e : Env) : Applied s (.env el e) ((s.setEnv e).setPState { s.pstate with el := el })
  | sync : Applied s .sync (synchronize s)
  | agentWrite (v : Word) (cell : nvCheck s = none) : Applied s (.agentWrite v)
      (setHeld (hold (.cell (nvAddr s)) none s.window.held)
        ((s.setMem (memWrite8 s.cfg.nvBigEndian s.mem (nvAddr s) v)).setNvEvents
          (s.nvEvents ++ [.agentWrite (nvAddr s) v])))
  | writeSctlr2EL2 (v : Word) (r : Sctlr2) (d : Nat) (el : s.pstate.el = .el2 ∨ s.pstate.el = .el3) :
      Applied s (.writeSctlr2EL2 v) ((s.setDraws d).setSctlr2 r)
  | reset (l : Launch) : Applied s (.reset l) (warmReset l s)
  | exceptionReturn (l : HandlerEL) : Applied s .exceptionReturn (returnFrom l s)

/-- An input that answers a next state did so as `Applied` says. -/
theorem applyInput_applied {inp : Input} {s s' : State} (h : applyInput inp s = .next s') : Applied s inp s' := by
  cases inp with
  | env el e => cases h; exact .env el e
  | sync => cases h; exact .sync
  | agentWrite v =>
    obtain ⟨hn, rfl⟩ := agentWrite_next h
    exact .agentWrite v hn
  | writeSctlr2EL2 v =>
    obtain ⟨hel, r, d, rfl⟩ := writeSctlr2EL2_next h
    exact .writeSctlr2EL2 v r d hel
  | reset l => cases h; exact .reset l
  | exceptionReturn =>
    obtain ⟨l, rfl⟩ := exceptionReturn_next h
    exact .exceptionReturn l

/-- No input changes the configuration, the admitted memory or the program text. -/
theorem applied_fixed {inp : Input} {s s' : State} (h : Applied s inp s') :
    s'.cfg = s.cfg ∧ s'.regions = s.regions ∧ s'.text = s.text := by
  cases h <;> simp [setHeld, synchronize, returnFrom, warmReset, drawWord]

/-- Settles O30: neither an input nor an instruction changes them. -/
theorem configurationAndTextAreFixed : Obligations.ConfigurationAndTextAreFixed := by
  intro s s' h
  rcases step_next h with ⟨inp, -, happly⟩ | ⟨-, i, -, hexec⟩
  · have k := applied_fixed (applyInput_applied happly)
    exact k
  · have k := exec_instrKept hexec
    exact ⟨k.cfg, k.regions, k.text⟩

/-! The alignment of `pc`. -/

theorem vectorAddress_aligned (vbar offset : Word) : (vectorAddress vbar offset).toNat % 4 = 0 := by
  have hbits : (vectorAddress vbar offset) &&& 3#64 = 0#64 := by
    rw [vectorAddress, BitVec.and_assoc, show ~~~3#64 &&& 3#64 = 0#64 by decide, BitVec.and_zero]
  have hnat := congrArg BitVec.toNat hbits
  rw [BitVec.toNat_and] at hnat
  simpa [Nat.and_two_pow_sub_one_eq_mod _ 2] using hnat

theorem add_four_aligned {pc : Word} (h : pc.toNat % 4 = 0) : (pc + 4#64).toNat % 4 = 0 := by
  rw [BitVec.toNat_add]
  simp only [BitVec.toNat_ofNat]
  omega

/-- Settles O31: an instruction that completes adds 4, and a vector is aligned. -/
theorem instructionsKeepThePcAligned : Obligations.InstructionsKeepThePcAligned := by
  intro s s' hin haligned h
  rcases step_next h with ⟨inp, hinp, -⟩ | ⟨-, i, -, hexec⟩
  · rw [hin] at hinp
    cases hinp
  · rcases ended_taken_or_completed (exec_ended hexec) with ⟨-, l, esr, w, d, rfl⟩ | ⟨s₁, hs₁, rfl⟩
    · exact vectorAddress_aligned _ _
    · refine add_four_aligned ?_
      rw [hs₁.pc]
      exact haligned

/-- Settles O34: an instruction keeps SCTLR2_EL2, and of the inputs all but its write and the reset do. -/
theorem onlyItsWriteAndResetChangeSctlr2 : Obligations.OnlyItsWriteAndResetChangeSctlr2 := by
  intro s s' h hne
  rcases step_next h with ⟨inp, hinp, happly⟩ | ⟨-, i, -, hexec⟩
  · have happlied := applyInput_applied happly
    rw [popInput_eq] at happlied
    generalize hs₁ : s.setInputs s.inputs.tail = s₁ at happlied
    have hsctlr2 : s₁.sctlr2EL2 = s.sctlr2EL2 := by rw [← hs₁]; rfl
    have hpstate : s₁.pstate = s.pstate := by rw [← hs₁]; rfl
    rw [← hsctlr2] at hne
    cases happlied with
    | writeSctlr2EL2 v r d hel => exact .inr ⟨v, hinp, hpstate ▸ hel⟩
    | reset l => exact .inl ⟨l, hinp⟩
    | env el e => exact absurd rfl hne
    | sync => exact absurd rfl hne
    | agentWrite v cell => exact absurd (by simp [setHeld]) hne
    | exceptionReturn l => exact absurd rfl hne
  · exact absurd (exec_instrKept hexec).sctlr2 hne

end Sys2Proof.Proofs.Frames
end

section
/-! PROOFS. The frames of the MRS and of the MSR by the EL1 name outside host mode (rules R60, R70, R71), and which
events change SCTLR2MASK_EL2 (rule R110). -/

namespace Sys2Proof.Proofs.Frames

open Sys2Proof Sys2Proof.Machine Sys2Proof.Claims Sys2Proof.Proofs.Causes Sys2Proof.Proofs.Events

/-! The MRS. -/

/-- The state after an MRS into `X[t]` of the value `v` that completes: beside `X[t]` and `pc`, of the model's own the
draws, the record of the cell and the window. -/
def afterRead (t : RegNum) (v : Word) (d : Nat) (ev : List NvEvent) (w : Window) (s : State) : State :=
  advance (writeX (((s.setDraws d).setNvEvents ev).setWindow w) t v)

/-- The MRS by either name completes so. -/
theorem access_mrs_next {t : RegNum} {i : Instr} {s s' : State}
    (hi : i = .mrsSctlr2maskEl2 t ∨ i = .mrsSctlr2maskEl1 t) (h : access i s = .next s') :
    ∃ v d ev w, s' = afterRead t v d ev w s := by
  have hmask (n : RegName) (hr : readMaskInto n t s = .next s') : ∃ v d ev w, s' = afterRead t v d ev w s := by
    obtain ⟨w, d, hshape⟩ := readMaskEL2_shape s n t
    simp only [readMaskInto, finishRead, hshape] at hr
    cases hr
    exact ⟨_, d, s.nvEvents, w, rfl⟩
  rcases hi with rfl | rfl
  · exact hmask _ h
  · cases hloc : el1NameLocation s with
    | nvMem =>
      obtain ⟨w, hshape⟩ := nvRead_shape t s
      simp only [access, hloc, readNvInto, finishRead, hshape] at h
      split at h
      · cases h
      · cases h
        exact ⟨_, s.draws + 1, _, w, rfl⟩
    | sctlr2maskEL1 =>
      obtain ⟨w, hshape⟩ := readMaskEL1_shape t s
      simp only [access, hloc, readMaskEL1Into, finishRead, hshape] at h
      cases h
      exact ⟨_, s.draws, s.nvEvents, w, rfl⟩
    | sctlr2maskEL2 =>
      simp only [access, hloc] at h
      exact hmask _ h

section
variable (t : RegNum) (v : Word) (d : Nat) (ev : List NvEvent) (w : Window) (s : State)

theorem afterRead_shape : ∃ x, afterRead t v d ev w s =
    ((((s.setDraws d).setNvEvents ev).setWindow w).setX x).setPc (s.pc + 4#64) := by
  obtain ⟨x, hx⟩ := writeX_shape (((s.setDraws d).setNvEvents ev).setWindow w) t v
  exact ⟨x, by rw [afterRead, hx]; rfl⟩

theorem readX_afterRead_of_ne {u : RegNum} (h : u ≠ t) : readX (afterRead t v d ev w s) u = readX s u := by
  have hw := readX_writeX (((s.setDraws d).setNvEvents ev).setWindow w) t u v
  rw [if_neg fun e => h e.1] at hw
  exact hw

end

/-- Settles O25: an MRS that completes writes `X[t]`, `pc` and the model's own. -/
theorem mrsFrame : Obligations.MrsFrame := by
  intro t i s s' hi hnone hexec
  obtain ⟨hpc, ⟨ev, hev, -⟩ | ⟨-, haccess⟩⟩ := exec_next hexec
  · rw [hnone] at hev
    cases hev
  · obtain ⟨v, d, ev, w, rfl⟩ := access_mrs_next hi haccess
    have hregs : ∀ u, u ≠ t → readX (afterRead t v d ev w s) u = readX s u :=
      fun u hu => readX_afterRead_of_ne t v d ev w s hu
    obtain ⟨x, hx⟩ := afterRead_shape t v d ev w s
    refine ⟨?_, fun a => ?_, ?_, ?_, ?_, hregs⟩
    · rw [hx]
      constructor <;> simp
    all_goals simp [hx]

/-! The MSR by the EL1 name outside host mode. -/

/-- Where the EL1 name reaches memory, rule R72. -/
theorem el1NameLocation_eq_nvMem_iff {s : State} :
    el1NameLocation s = .nvMem ↔ s.pstate.el = .el1 ∧ s.env.nvx = 0b111#3 := by
  refine ⟨el1NameLocation_nvMem, ?_⟩
  rintro ⟨hel, hnvx⟩
  simp [el1NameLocation, hel, hnvx]

/-- The MSR by the EL1 name writes the cell, SCTLR2MASK_EL1 or, in host mode, SCTLR2MASK_EL2. -/
theorem access_msrEL1_next {t : RegNum} {s s' : State} (hhost : s.pstate.el = .el2 → s.env.inHostEL2 = false)
    (hnone : firstCause (.msrSctlr2maskEl1 t) s = none) (h : access (.msrSctlr2maskEl1 t) s = .next s') :
    (el1NameLocation s = .nvMem ∧ s' = advance (nvWrite t s)) ∨
      (el1NameLocation s ≠ .nvMem ∧ ∃ w, s' = advance ((s.setMaskEL1 (readX s t)).setWindow w)) := by
  cases hloc : el1NameLocation s with
  | nvMem =>
    simp only [access, hloc, writeNvFrom] at h
    split at h
    · cases h
    · cases h
      exact .inl ⟨rfl, rfl⟩
  | sctlr2maskEL1 =>
    have hunlocked := unlocked_of_not_lockedEL1 (lockedEL1_of_no_cause hnone) hloc
    simp only [access, hloc, writeMaskEL1From_of_unlocked hunlocked, finishWrite, Host.Outcome.next.injEq] at h
    refine .inr ⟨by simp, ?_⟩
    split at h
    · obtain ⟨w, hw⟩ := lockTestEL1_shape s
      obtain ⟨w', hw'⟩ := writeMaskEL1_shape t (s.setWindow w)
      rw [hw, hw'] at h
      exact ⟨w', h.symm⟩
    · obtain ⟨w', hw'⟩ := writeMaskEL1_shape t s
      rw [hw'] at h
      exact ⟨w', h.symm⟩
  | sctlr2maskEL2 =>
    obtain ⟨hel, hin⟩ := el1NameLocation_maskEL2 hloc
    rw [hhost hel] at hin
    cases hin

/-- Settles O27: it writes the cell's eight bytes, or SCTLR2MASK_EL1. -/
theorem msrByEL1NameFrame : Obligations.MsrByEL1NameFrame := by
  intro t s s' hhost hnone hexec
  obtain ⟨hpc, ⟨ev, hev, -⟩ | ⟨-, haccess⟩⟩ := exec_next hexec
  · rw [hnone] at hev
    cases hev
  · rcases access_msrEL1_next hhost hnone haccess with ⟨hloc, rfl⟩ | ⟨hloc, w, rfl⟩
    · obtain ⟨w, hw⟩ := nvWrite_shape t s
      rw [hw]
      refine ⟨by constructor <;> simp [advance], by simp [advance], by simp [advance], by simp [advance],
        fun _ _ => ⟨by simp [advance], fun a ha => ?_⟩, fun hout => ?_⟩
      · simp only [advance, State.setPc_mem, State.setWindow_mem, State.setNvEvents_mem, State.setMem_mem]
        exact memGet_memWrite8_outside _ _ ha
      · obtain ⟨hel, hnvx⟩ := el1NameLocation_nvMem hloc
        simp [hel, hnvx] at hout
    · refine ⟨by constructor <;> simp [advance], by simp [advance], by simp [advance], by simp [advance],
        fun hel hnvx => absurd (el1NameLocation_eq_nvMem_iff.2 ⟨hel, hnvx⟩) hloc, fun _ a => by simp [advance]⟩

/-! Which events change SCTLR2MASK_EL2. -/

/-- An MRS never changes SCTLR2MASK_EL2, also where its event is taken. -/
theorem exec_mrs_keeps_mask {i : Instr} {s s' : State} (hi : isMsr i = false) (h : exec i s = .next s') :
    s'.sctlr2maskEL2 = s.sctlr2maskEL2 := by
  obtain ⟨t, ht⟩ : ∃ t, i = .mrsSctlr2maskEl2 t ∨ i = .mrsSctlr2maskEl1 t := by
    cases i with
    | mrsSctlr2maskEl2 t => exact ⟨t, .inl rfl⟩
    | msrSctlr2maskEl2 t => cases hi
    | mrsSctlr2maskEl1 t => exact ⟨t, .inr rfl⟩
    | msrSctlr2maskEl1 t => cases hi
  obtain ⟨-, ⟨ev, -, hraise⟩ | ⟨-, haccess⟩⟩ := exec_next h
  · obtain ⟨w, hw⟩ := stateAtCause_shape ev s
    rw [hw] at hraise
    obtain ⟨-, l, esr, d, rfl⟩ := raise_next hraise
    exact (enterException_architectureKept l esr ((s.setWindow w).setDraws d)).maskEL2
  · obtain ⟨v, d, ev, w, rfl⟩ := access_mrs_next ht haccess
    obtain ⟨x, hx⟩ := afterRead_shape t v d ev w s
    simp [hx]

/-- Below EL2 no instruction changes SCTLR2MASK_EL2. -/
theorem exec_keeps_mask_below_el2 {i : Instr} {s s' : State} (h2 : s.pstate.el ≠ .el2) (h3 : s.pstate.el ≠ .el3)
    (h : exec i s = .next s') : s'.sctlr2maskEL2 = s.sctlr2maskEL2 := by
  cases exec_ended h with
  | taken l esr d _ => exact (enterException_architectureKept l esr (s.setDraws d)).maskEL2
  | locked n l esr d _ hel _ => exact absurd hel h2
  | lockedEL1 l esr d _ _ =>
    obtain ⟨w, hw⟩ := lockTestEL1_shape s
    rw [hw]
    exact (enterException_architectureKept l esr ((s.setWindow w).setDraws d)).maskEL2
  | readMaskEL2 n t hel => exact absurd hel (by simp [h2, h3])
  | writeMaskAtEL2 n t hel _ => exact absurd hel h2
  | writeMaskAtEL3 n t hel => exact absurd hel h3
  | readMaskEL1 t =>
    obtain ⟨w, hw⟩ := readMaskEL1_shape t s
    obtain ⟨x, hx⟩ := writeX_shape (readMaskEL1 t s).2 t (readMaskEL1 t s).1
    rw [hx, hw]
    simp [advance]
  | writeMaskEL1AtEL1 t _ _ =>
    obtain ⟨w, hw⟩ := lockTestEL1_shape s
    obtain ⟨w', hw'⟩ := writeMaskEL1_shape t (lockTestEL1 s).2
    rw [hw', hw]
    simp [advance]
  | writeMaskEL1Above t _ =>
    obtain ⟨w', hw'⟩ := writeMaskEL1_shape t s
    rw [hw']
    simp [advance]
  | readNv t _ _ =>
    obtain ⟨w, hw⟩ := nvRead_shape t s
    obtain ⟨x, hx⟩ := writeX_shape (nvRead t s).2 t (nvRead t s).1
    rw [hx, hw]
    simp [advance]
  | writeNv t _ _ =>
    obtain ⟨w, hw⟩ := nvWrite_shape t s
    rw [hw]
    simp [advance]

/-- Of the inputs the reset alone changes SCTLR2MASK_EL2. -/
theorem applied_keeps_mask {inp : Input} {s s' : State} (hreset : inp.isReset = false) (h : Applied s inp s') :
    s'.sctlr2maskEL2 = s.sctlr2maskEL2 := by
  cases h with
  | env el e => rfl
  | sync => rfl
  | agentWrite v cell => simp [setHeld]
  | writeSctlr2EL2 v r d el => rfl
  | reset l => cases hreset
  | exceptionReturn l => rfl

/-- Settles O33: an MRS and an instruction below EL2 keep the register, and of the inputs all but the reset do. -/
theorem onlyResetAndMsrAboveEL1ChangeTheMask : Obligations.OnlyResetAndMsrAboveEL1ChangeTheMask := by
  intro s s' h hne
  have hpop : (popInput s).sctlr2maskEL2 = s.sctlr2maskEL2 := rfl
  rcases step_next h with ⟨inp, hinp, happly⟩ | ⟨hin, i, hfetch, hexec⟩
  · refine .inl ?_
    by_contra hreset
    refine hne ((applied_keeps_mask ?_ (applyInput_applied happly)).trans hpop)
    cases inp with
    | reset l => exact absurd ⟨l, hinp⟩ hreset
    | env el e => rfl
    | sync => rfl
    | agentWrite v => rfl
    | writeSctlr2EL2 v => rfl
    | exceptionReturn => rfl
  · refine .inr ⟨hin, ?_, i, hfetch, ?_⟩
    · by_contra hel
      rw [not_or] at hel
      exact hne ((exec_keeps_mask_below_el2 (s := popInput s) hel.1 hel.2 hexec).trans hpop)
    · by_contra hmsr
      exact hne ((exec_mrs_keeps_mask (by simpa using hmsr) hexec).trans hpop)

end Sys2Proof.Proofs.Frames
end

section
/-! PROOFS. The invariant of the machine (10_state.md rule R24, 20_memory.md rule R47): every operation keeps it, and
so every step. -/

namespace Sys2Proof.Proofs.Invariant

open Sys2Proof Sys2Proof.Machine Sys2Proof.Claims Sys2Proof.Proofs.Causes Sys2Proof.Proofs.Events
  Sys2Proof.Proofs.Frames

/-- The invariant is of the configuration, the registers, memory, its record and the window. -/
theorem inv_congr {s s' : State} (h : s.Inv) (hcfg : s'.cfg = s.cfg) (hmask : s'.sctlr2maskEL2 = s.sctlr2maskEL2)
    (hhist : s'.maskHist = s.maskHist) (hwindow : s'.window = s.window) (hx : s'.x = s.x)
    (hm1 : s'.sctlr2maskEL1 = s.sctlr2maskEL1) (hmem : s'.mem = s.mem) (hev : s'.nvEvents = s.nvEvents) :
    s'.Inv where
  mask := by rw [hcfg, hmask]; exact h.mask
  hist := by rw [hcfg, hhist]; exact h.hist
  window := h.window.congr hcfg hmask (by rw [hwindow]) (by rw [hwindow]) (by rw [hwindow])
    fun _ _ _ hp => hp.congr hcfg (fun t _ => readX_congr hx t) hm1 hmem hev
  mem := by rw [hmem]; exact h.mem

theorem inv_setDraws {s : State} (h : s.Inv) (d : Nat) : (s.setDraws d).Inv :=
  inv_congr h rfl rfl rfl rfl rfl rfl rfl rfl

theorem inv_drawUpTo {s : State} (h : s.Inv) (k : Nat) : (drawUpTo k s).2.Inv := by
  obtain ⟨d, hd⟩ := drawUpTo_shape s k
  rw [hd]
  exact inv_setDraws h d

theorem inv_advance {s : State} (h : s.Inv) : (advance s).Inv :=
  inv_congr h rfl rfl rfl rfl rfl rfl rfl rfl

theorem inv_enterException {s : State} (h : s.Inv) (l : HandlerEL) (esr : Word) : (enterException l esr s).Inv := by
  have k := enterException_architectureKept l esr s
  exact inv_congr h k.cfg k.maskEL2 k.maskHist (enterException_window l esr s) k.x k.maskEL1 k.mem k.nvEvents

/-- An operation that changes the window, the general registers, SCTLR2MASK_EL1 and the record keeps the invariant
where it keeps the window well formed. -/
theorem inv_of_windowInv {s s' : State} (h : s.Inv) (hcfg : s'.cfg = s.cfg)
    (hmask : s'.sctlr2maskEL2 = s.sctlr2maskEL2) (hhist : s'.maskHist = s.maskHist) (hmem : memWf s'.mem = true)
    (hwindow : WindowInv s') : s'.Inv where
  mask := by rw [hcfg, hmask]; exact h.mask
  hist := by rw [hcfg, hhist]; exact h.hist
  window := hwindow
  mem := hmem

/-- A write of a general register keeps the configuration, the masks and memory. -/
theorem inv_writeX_of_windowInv {s s₁ : State} {t : RegNum} {v : Word} (h : s.Inv) (hcfg : s₁.cfg = s.cfg)
    (hmask : s₁.sctlr2maskEL2 = s.sctlr2maskEL2) (hhist : s₁.maskHist = s.maskHist) (hmem : s₁.mem = s.mem)
    (hwindow : WindowInv (writeX s₁ t v)) : (writeX s₁ t v).Inv := by
  obtain ⟨x, hx⟩ := writeX_shape s₁ t v
  refine inv_of_windowInv h ?_ ?_ ?_ ?_ hwindow
  · rw [hx]; exact hcfg
  · rw [hx]; exact hmask
  · rw [hx]; exact hhist
  · rw [hx]
    exact (congrArg memWf hmem).trans h.mem

/-! The accesses of SCTLR2MASK_EL2. -/

theorem inv_readMaskEL2 {s : State} (h : s.Inv) (n : RegName) (t : RegNum) :
    (writeX (readMaskEL2 n t s).2 t (readMaskEL2 n t s).1).Inv := by
  have hshape := readMaskEL2_shape s n t
  have hwindow : WindowInv (writeX (readMaskEL2 n t s).2 t (readMaskEL2 n t s).1) := by
    unfold readMaskEL2
    split
    · have hd := inv_drawUpTo h (freedom n s.window.order)
      have hback := drawUpTo_le s (freedom n s.window.order)
      obtain ⟨d, hshape⟩ := drawUpTo_shape s (freedom n s.window.order)
      refine windowInv_readMaskAt _ hd.window hd.mask ?_
      rw [hshape] at *
      exact hback
    · next hr =>
      have hnil := order_nil_of_not_recorded hr
      have hheld := held_of_order_nil h.window hnil
      obtain ⟨x, hx⟩ := writeX_shape s t s.sctlr2maskEL2
      rw [hx]
      exact windowInv_of_empty hnil hheld
  obtain ⟨w, d, hshape⟩ := hshape
  exact inv_writeX_of_windowInv h (by rw [hshape]; rfl) (by rw [hshape]; rfl) (by rw [hshape]; rfl)
    (by rw [hshape]; rfl) hwindow

theorem inv_lockTest {s : State} (h : s.Inv) (n : RegName) : (lockTest n s).2.Inv := by
  unfold lockTest
  split
  · have hd := inv_drawUpTo h (freedom n s.window.order)
    have hback := drawUpTo_le s (freedom n s.window.order)
    obtain ⟨d, hshape⟩ := drawUpTo_shape s (freedom n s.window.order)
    rw [hshape] at hd ⊢
    exact inv_of_windowInv hd rfl rfl rfl hd.mem (windowInv_testMaskAt _ hd.window hd.mask hback)
  · exact h

theorem inv_lockTestEL1 {s : State} (h : s.Inv) : (lockTestEL1 s).2.Inv := by
  have hwindow := windowInv_lockTestEL1 h.window h.mask
  obtain ⟨w, hw⟩ := lockTestEL1_shape s
  rw [hw] at hwindow ⊢
  exact inv_of_windowInv h rfl rfl rfl h.mem hwindow

/-- What a write records is what the register can have held. -/
theorem inv_noteMaskWrite {s : State} (h : s.Inv) (v : Word) : (noteMaskWrite (storedMask s.cfg v) s).Inv where
  mask := h.mask
  hist := by
    intro w hw
    simp only [noteMaskWrite, State.setMaskHist_maskHist, List.mem_append, List.mem_cons, List.not_mem_nil,
      or_false] at hw
    rcases hw with hw | rfl | rfl
    · exact h.hist w hw
    · exact h.mask
    · exact storable_storedMask s.cfg v
  window := h.window.congr rfl rfl rfl rfl rfl fun _ _ _ hp => hp
  mem := h.mem

/-- The place drawn for an access is one it may take, or the last. -/
theorem drawFrom_placesFor_le (s : State) (w : Window) (a : Access) :
    (drawFrom (placesFor s.cfg w a) s).1 ≤ freedom a.name w.order := by
  by_cases hnil : placesFor s.cfg w a = []
  · simp [drawFrom, hnil]
  · exact le_freedom_of_mem_placesFor (drawFrom_mem s hnil)

theorem inv_writeMaskAt {s : State} {n : RegName} {src : WriteSource} {back : Nat} (h : s.Inv)
    (hback : back ≤ freedom n s.window.order) (hsrc : ∀ id, src = .ofRead id → id < s.window.order.length) :
    (writeMaskAt back (nextAccess n (.write src) s) s).Inv := by
  have hwindow := windowInv_writeMaskAt back h.window h.mask hback hsrc
  have hmem := memWf_writeMaskAt (a := nextAccess n (.write src) s) back h.window h.mem
  have hmask : Storable s.cfg (writeMaskAt back (nextAccess n (.write src) s) s).sctlr2maskEL2 := by
    have hb := openWindow_base_storable h.mask h.window
    obtain ⟨x, m1, mem, ev, hshape⟩ := refreshHeld_shape (replay s.cfg (openWindow s).base (openWindow s).order).seen
      (replay s.cfg (openWindow s).base (insertAccess back (nextAccess n (.write src) s) (openWindow s)).order).seen
      (openWindow s).held
      ((s.setWindow (insertAccess back (nextAccess n (.write src) s) (openWindow s))).setMaskEL2
        (replay s.cfg (openWindow s).base
          (insertAccess back (nextAccess n (.write src) s) (openWindow s)).order).mask)
    rw [writeMaskAt, hshape]
    exact replay_storable _ hb
  obtain ⟨x, m1, mem, ev, m2, hshape⟩ := writeMaskAt_shape s back (nextAccess n (.write src) s)
  rw [hshape] at hmask hwindow hmem ⊢
  refine ⟨?_, ?_, hwindow, hmem⟩
  · simpa using hmask
  · simpa using h.hist

theorem inv_writeMaskEL2 {s : State} (h : s.Inv) (n : RegName) (t : RegNum) : (writeMaskEL2 n t s).Inv := by
  have hnote := inv_noteMaskWrite h (readX s t)
  unfold writeMaskEL2
  split
  · generalize hs₁ : noteMaskWrite (storedMask s.cfg (readX s t)) s = s₁ at hnote
    have hnext : nextAccess n (.write (sourceOf t s)) s = nextAccess n (.write (sourceOf t s)) s₁ := by
      rw [← hs₁]; rfl
    have hsrc : ∀ id, sourceOf t s = .ofRead id → id < s₁.window.order.length := by
      rw [← hs₁]
      exact (sourceOf_spec h.window t).1
    rw [hnext]
    generalize ha : nextAccess n (.write (sourceOf t s)) s₁ = a
    have hback := drawFrom_placesFor_le s₁ (openWindow s₁) a
    rw [openWindow_order, ← ha] at hback
    obtain ⟨d, hd⟩ := drawFrom_shape s₁ (placesFor s₁.cfg (openWindow s₁) a)
    unfold writeMaskUnordered
    rw [hd, ← ha]
    rw [← ha] at hd
    exact inv_writeMaskAt (inv_setDraws hnote d) hback hsrc
  · next hr =>
    have hnil := order_nil_of_not_recorded hr
    have hheld := held_of_order_nil h.window hnil
    exact ⟨storable_storedMask s.cfg _, hnote.hist, windowInv_of_empty hnil hheld, h.mem⟩

/-! The accesses elsewhere. -/

theorem inv_readMaskEL1 {s : State} (h : s.Inv) (t : RegNum) :
    (writeX (readMaskEL1 t s).2 t (readMaskEL1 t s).1).Inv := by
  obtain ⟨w, hw⟩ := readMaskEL1_shape t s
  exact inv_writeX_of_windowInv h (by rw [hw]; rfl) (by rw [hw]; rfl) (by rw [hw]; rfl) (by rw [hw]; rfl)
    (windowInv_readMaskEL1 h.window h.mask t)

theorem inv_writeMaskEL1 {s : State} (h : s.Inv) (t : RegNum) : (writeMaskEL1 t s).Inv := by
  have hwindow := windowInv_writeMaskEL1 h.window h.mask t
  obtain ⟨w, hw⟩ := writeMaskEL1_shape t s
  rw [hw] at hwindow ⊢
  exact inv_of_windowInv h rfl rfl rfl h.mem hwindow

theorem inv_nvRead {s : State} (h : s.Inv) (t : RegNum) : (writeX (nvRead t s).2 t (nvRead t s).1).Inv := by
  obtain ⟨w, hw⟩ := nvRead_shape t s
  exact inv_writeX_of_windowInv h (by rw [hw]; rfl) (by rw [hw]; rfl) (by rw [hw]; rfl) (by rw [hw]; rfl)
    (windowInv_nvRead h.window h.mask t)

theorem inv_nvWrite {s : State} (h : s.Inv) (hn : nvCheck s = none) (t : RegNum) : (nvWrite t s).Inv := by
  have hwindow := windowInv_nvWrite h.window h.mask hn t
  have hmem := memWf_memWrite8 s.cfg.nvBigEndian (readX s t) h.mem (nvAddr_fits hn)
  obtain ⟨w, hw⟩ := nvWrite_shape t s
  rw [hw] at hwindow ⊢
  exact inv_of_windowInv h (by simp) (by simp) (by simp) (by simpa using hmem) hwindow

/-! The step. -/

/-- Every instruction keeps the invariant. -/
theorem inv_ended {s s' : State} (h : s.Inv) (he : Ended s s') : s'.Inv := by
  cases he with
  | taken l esr d _ => exact inv_enterException (inv_setDraws h d) l esr
  | locked n l esr d _ _ _ => exact inv_enterException (inv_setDraws (inv_lockTest h n) d) l esr
  | lockedEL1 l esr d _ _ => exact inv_enterException (inv_setDraws (inv_lockTestEL1 h) d) l esr
  | readMaskEL2 n t _ => exact inv_advance (inv_readMaskEL2 h n t)
  | writeMaskAtEL2 n t _ _ => exact inv_advance (inv_writeMaskEL2 (inv_lockTest h n) n t)
  | writeMaskAtEL3 n t _ => exact inv_advance (inv_writeMaskEL2 h n t)
  | readMaskEL1 t => exact inv_advance (inv_readMaskEL1 h t)
  | writeMaskEL1AtEL1 t _ _ => exact inv_advance (inv_writeMaskEL1 (inv_lockTestEL1 h) t)
  | writeMaskEL1Above t _ => exact inv_advance (inv_writeMaskEL1 h t)
  | readNv t _ _ => exact inv_advance (inv_nvRead h t)
  | writeNv t _ hn => exact inv_advance (inv_nvWrite h hn t)

/-- What a reset leaves in SCTLR2MASK_EL2 can be stored (rules R24, R37). -/
theorem storable_resetMask (c : Config) (unknown : Word) : Storable c (resetMask c unknown) := by
  unfold resetMask
  split
  · exact storable_zero c
  · refine storable_and_of_subset c unknown _ ?_
    unfold Storable resetUnknownBits storableMask
    ext i hi
    simp only [BitVec.getElem_and, BitVec.getElem_or, BitVec.getElem_not, BitVec.getElem_zero]
    split <;> cases (implMask c)[i] <;> cases c.res0Stored[i] <;> simp

/-- Every input keeps the invariant. -/
theorem inv_applied {inp : Input} {s s' : State} (h : s.Inv) (ha : Applied s inp s') : s'.Inv := by
  cases ha with
  | env el e => exact inv_congr h rfl rfl rfl rfl rfl rfl rfl rfl
  | sync => exact ⟨h.mask, by simp [synchronize], windowInv_of_empty rfl rfl, h.mem⟩
  | agentWrite v hn =>
    have hwindow := windowInv_agentWrite (v := v) h.window hn
    have hmem := memWf_memWrite8 s.cfg.nvBigEndian v h.mem (nvAddr_fits hn)
    simp only [setHeld] at hwindow ⊢
    exact inv_of_windowInv h (by simp) (by simp) (by simp) (by simpa using hmem) hwindow
  | writeSctlr2EL2 v r d _ => exact inv_congr h rfl rfl rfl rfl rfl rfl rfl rfl
  | reset l => exact ⟨storable_resetMask s.cfg _, by simp [warmReset], windowInv_of_empty rfl rfl, memWf_memOf _⟩
  | exceptionReturn l => exact inv_congr h rfl rfl rfl rfl rfl rfl rfl rfl

/-- Settles O29: every way an instruction or an input can end keeps the invariant. -/
theorem everyStepKeepsTheInvariant : Obligations.EveryStepKeepsTheInvariant := by
  intro s s' h hstep
  have hpop : (popInput s).Inv := inv_congr h rfl rfl rfl rfl rfl rfl rfl rfl
  rcases step_next hstep with ⟨inp, -, happly⟩ | ⟨-, i, -, hexec⟩
  · exact inv_applied hpop (applyInput_applied happly)
  · exact inv_ended hpop (exec_ended hexec)

/-- Settles O28: at reset the mask is 0, nothing is open and memory lists nothing. -/
theorem resetStateMeetsTheInvariant : Obligations.ResetStateMeetsTheInvariant where
  mask := by decide
  hist := by simp [State.reset]
  window := windowInv_of_empty rfl rfl
  mem := rfl

end Sys2Proof.Proofs.Invariant
end

section
/-! PROOFS. The write-once property (40_access_sctlr2mask_el2.md rule R63): while the mask is locked and no write of
it is open, every step below EL3 but a reset keeps it locked and keeps its value. -/

namespace Sys2Proof.Proofs.WriteOnce

open Sys2Proof Sys2Proof.Machine Sys2Proof.Claims Sys2Proof.Proofs.Causes Sys2Proof.Proofs.Events
  Sys2Proof.Proofs.Frames

/-- No write is among the open accesses, so that before each of them the register has its stored value. -/
structure NoWriteOpen (s : State) : Prop where
  settled : ∀ a ∈ s.window.order, a.isWrite = false
  base : s.window.order ≠ [] → s.window.base = s.sctlr2maskEL2

theorem foldl_performAccess_mask_of_no_write {c : Config} (l : List Access) :
    ∀ {r : Replay}, (∀ a ∈ l, a.isWrite = false) → (l.foldl (performAccess c) r).mask = r.mask := by
  induction l with
  | nil => exact fun _ => rfl
  | cons a rest ih =>
    intro r h
    rw [List.foldl_cons, ih fun b hb => h b (by simp [hb])]
    exact (performAccess_nonWrite (h a (by simp))).1

/-- Accesses that are no writes leave the register as it was before them. -/
theorem replay_mask_of_no_write {c : Config} {b : Word} {l : List Access} (h : ∀ a ∈ l, a.isWrite = false) :
    (replay c b l).mask = b := foldl_performAccess_mask_of_no_write l h

/-- With no write open the window agrees with the register exactly when its base is the stored value. -/
theorem locked_iff {s : State} : s.Locked ↔ effMaskEL2 s ≠ 0#64 ∧ NoWriteOpen s := by
  constructor
  · rintro ⟨heff, hsettled, hagrees⟩
    exact ⟨heff, hsettled, fun hne => by rw [← hagrees hne, replay_mask_of_no_write hsettled]⟩
  · rintro ⟨heff, hsettled, hbase⟩
    exact ⟨heff, hsettled, fun hne => by rw [replay_mask_of_no_write hsettled, hbase hne]⟩

/-- It is of the register, the base and the order of the window. -/
theorem noWriteOpen_congr {s s' : State} (h : NoWriteOpen s) (hmask : s'.sctlr2maskEL2 = s.sctlr2maskEL2)
    (hbase : s'.window.base = s.window.base) (horder : s'.window.order = s.window.order) : NoWriteOpen s' where
  settled := by rw [horder]; exact h.settled
  base := by rw [horder, hbase, hmask]; exact h.base

theorem noWriteOpen_of_empty {s : State} (h : s.window.order = []) : NoWriteOpen s where
  settled := by simp [h]
  base hne := absurd h hne

theorem openWindow_base_of_noWriteOpen {s : State} (h : NoWriteOpen s) :
    (openWindow s).base = s.sctlr2maskEL2 := by
  unfold openWindow
  split
  · rfl
  · next hne => exact h.base hne

/-- An access that is no write is put among the others. -/
theorem noWriteOpen_insert {s s' : State} {a : Access} {back : Nat} (h : NoWriteOpen s) (ha : a.isWrite = false)
    (hmask : s'.sctlr2maskEL2 = s.sctlr2maskEL2) (hbase : s'.window.base = (openWindow s).base)
    (horder : s'.window.order = (insertAccess back a (openWindow s)).order) : NoWriteOpen s' where
  settled := by
    rw [horder]
    intro b hb
    rw [(insertAccess_perm back a (openWindow s)).mem_iff, List.mem_cons, openWindow_order] at hb
    rcases hb with rfl | hb
    · exact ha
    · exact h.settled b hb
  base _ := by rw [hbase, hmask, openWindow_base_of_noWriteOpen h]

/-- With no write open every read and every lock test meets the stored value. -/
theorem maskSeenBy_of_noWriteOpen {s : State} (h : NoWriteOpen s) (n : RegName) :
    maskSeenBy n s = s.sctlr2maskEL2 := by
  unfold maskSeenBy valueBefore
  rw [replay_mask_of_no_write, openWindow_base_of_noWriteOpen h]
  intro a ha
  have := List.mem_of_mem_take ha
  rw [openWindow_order] at this
  exact h.settled a this

/-- What a step that keeps the mask locked has: no write is open and the register has its value. -/
structure KeepsMask (s s' : State) : Prop where
  mask : s'.sctlr2maskEL2 = s.sctlr2maskEL2
  open' : NoWriteOpen s'

theorem KeepsMask.trans {s s' s'' : State} (h : KeepsMask s s') (h' : KeepsMask s' s'') : KeepsMask s s'' :=
  ⟨h'.mask.trans h.mask, h'.open'⟩

theorem keepsMask_congr {s s' : State} (h : NoWriteOpen s) (hmask : s'.sctlr2maskEL2 = s.sctlr2maskEL2)
    (hbase : s'.window.base = s.window.base) (horder : s'.window.order = s.window.order) : KeepsMask s s' :=
  ⟨hmask, noWriteOpen_congr h hmask hbase horder⟩

theorem keepsMask_writeX {s : State} (h : NoWriteOpen s) (t : RegNum) (v : Word) : KeepsMask s (writeX s t v) := by
  obtain ⟨x, hx⟩ := writeX_shape s t v
  rw [hx]
  exact keepsMask_congr h rfl rfl rfl

theorem keepsMask_readMaskEL2 {s : State} (h : NoWriteOpen s) (n : RegName) (t : RegNum) :
    KeepsMask s (readMaskEL2 n t s).2 := by
  unfold readMaskEL2
  split
  · obtain ⟨d, hd⟩ := drawUpTo_shape s (freedom n s.window.order)
    rw [hd]
    exact ⟨rfl, noWriteOpen_insert (a := nextAccess n .read s) h rfl rfl rfl rfl⟩
  · exact ⟨rfl, h⟩

theorem keepsMask_lockTest {s : State} (h : NoWriteOpen s) (n : RegName) : KeepsMask s (lockTest n s).2 := by
  unfold lockTest
  split
  · obtain ⟨d, hd⟩ := drawUpTo_shape s (freedom n s.window.order)
    rw [hd]
    exact ⟨rfl, noWriteOpen_insert (a := nextAccess n (.test s.env.effMaskEL2) s) h rfl rfl rfl rfl⟩
  · exact ⟨rfl, h⟩

theorem keepsMask_openElsewhere {s : State} (h : NoWriteOpen s) {k : AccessKind}
    (hk : (nextAccess .sctlr2maskEL1 k s).isWrite = false) : KeepsMask s (openElsewhere k s) := by
  unfold openElsewhere
  split
  · exact ⟨rfl, h⟩
  · exact ⟨rfl, noWriteOpen_insert h hk rfl rfl rfl⟩

theorem keepsMask_setHeld {s : State} (h : NoWriteOpen s) (l : List Held) : KeepsMask s (setHeld l s) :=
  keepsMask_congr h rfl rfl rfl

theorem keepsMask_readMaskEL1 {s : State} (h : NoWriteOpen s) (t : RegNum) : KeepsMask s (readMaskEL1 t s).2 := by
  have hopen := keepsMask_openElsewhere h (k := .elsewhere (sourceAt .maskEL1 s.sctlr2maskEL1 s)) rfl
  exact hopen.trans (keepsMask_setHeld hopen.open' _)

theorem keepsMask_writeMaskEL1 {s : State} (h : NoWriteOpen s) (t : RegNum) : KeepsMask s (writeMaskEL1 t s) := by
  have hopen := keepsMask_openElsewhere h (k := .elsewhere (sourceOf t s)) rfl
  have hset : KeepsMask s ((openElsewhere (.elsewhere (sourceOf t s)) s).setMaskEL1 (readX s t)) :=
    hopen.trans (keepsMask_congr hopen.open' rfl rfl rfl)
  exact hset.trans (keepsMask_setHeld hset.open' _)

theorem keepsMask_nvRead {s : State} (h : NoWriteOpen s) (t : RegNum) : KeepsMask s (nvRead t s).2 := by
  have hopen := keepsMask_openElsewhere h (k := .elsewhere (nvSource s)) rfl
  have hset : KeepsMask s ((drawWord (openElsewhere (.elsewhere (nvSource s)) s)).2.setNvEvents
      (s.nvEvents ++ [.memRead (nvAddr s) (nvValue s)])) :=
    hopen.trans (keepsMask_congr hopen.open' rfl rfl rfl)
  exact hset.trans (keepsMask_setHeld hset.open' _)

theorem keepsMask_nvWrite {s : State} (h : NoWriteOpen s) (t : RegNum) : KeepsMask s (nvWrite t s) := by
  have hopen := keepsMask_openElsewhere h (k := .elsewhere (sourceOf t s)) rfl
  have hset : KeepsMask s (((openElsewhere (.elsewhere (sourceOf t s)) s).setMem
      (memWrite8 s.cfg.nvBigEndian s.mem (nvAddr s) (readX s t))).setNvEvents
        (s.nvEvents ++ [.memWrite (nvAddr s) (readX s t)])) :=
    hopen.trans (keepsMask_congr hopen.open' rfl rfl rfl)
  exact hset.trans (keepsMask_setHeld hset.open' _)

theorem keepsMask_enterException {s : State} (h : NoWriteOpen s) (l : HandlerEL) (esr : Word) (d : Nat) :
    KeepsMask s (enterException l esr (s.setDraws d)) := by
  have hw := enterException_window l esr (s.setDraws d)
  exact keepsMask_congr h (enterException_architectureKept l esr (s.setDraws d)).maskEL2
    (congrArg Window.base hw) (congrArg Window.order hw)

theorem keepsMask_advance {s : State} (h : NoWriteOpen s) : KeepsMask s (advance s) :=
  keepsMask_congr h rfl rfl rfl

/-- Below EL3 an instruction keeps a locked mask: its lock refuses every write. -/
theorem keepsMask_ended {s s' : State} (h : NoWriteOpen s) (hlocked : effMaskEL2 s ≠ 0#64)
    (hlow : s.pstate.el ≠ .el3) (he : Ended s s') : KeepsMask s s' := by
  have htest (n : RegName) : (lockTest n s).1 = true := by
    rw [lockTest_fst, maskSeenBy_of_noWriteOpen h]
    exact decide_eq_true hlocked
  have hdone {s₁ : State} (hk : KeepsMask s s₁) : KeepsMask s (advance s₁) := hk.trans (keepsMask_advance hk.open')
  have hread {s₁ : State} (hk : KeepsMask s s₁) (t : RegNum) (v : Word) : KeepsMask s (advance (writeX s₁ t v)) :=
    hdone (hk.trans (keepsMask_writeX hk.open' t v))
  cases he with
  | taken l esr d _ => exact keepsMask_enterException h l esr d
  | locked n l esr d _ _ _ =>
    have hk := keepsMask_lockTest h n
    exact hk.trans (keepsMask_enterException hk.open' l esr d)
  | lockedEL1 l esr d _ _ =>
    have hk := keepsMask_openElsewhere h
      (k := .testEL1 (if s.env.effMaskEL1 = none then readHeldAt .maskEL1 s else none)) rfl
    exact hk.trans (keepsMask_enterException hk.open' l esr d)
  | readMaskEL2 n t _ => exact hread (keepsMask_readMaskEL2 h n t) t _
  | writeMaskAtEL2 n t _ lock => rw [htest n] at lock; cases lock
  | writeMaskAtEL3 n t hel => exact absurd hel hlow
  | readMaskEL1 t => exact hread (keepsMask_readMaskEL1 h t) t _
  | writeMaskEL1AtEL1 t _ _ =>
    have hk := keepsMask_openElsewhere h
      (k := .testEL1 (if s.env.effMaskEL1 = none then readHeldAt .maskEL1 s else none)) rfl
    exact hdone (hk.trans (keepsMask_writeMaskEL1 hk.open' t))
  | writeMaskEL1Above t _ => exact hdone (keepsMask_writeMaskEL1 h t)
  | readNv t _ _ => exact hread (keepsMask_nvRead h t) t _
  | writeNv t _ _ => exact hdone (keepsMask_nvWrite h t)

/-- An input that is quiet keeps the mask, and the body of its Effective function. -/
theorem keepsMask_applied {inp : Input} {s s' : State} (h : NoWriteOpen s) (hquiet : inp.isQuiet s.env = true)
    (ha : Applied s inp s') : KeepsMask s s' ∧ s'.env.effMaskEL2 = s.env.effMaskEL2 := by
  cases ha with
  | env el e => exact ⟨keepsMask_congr h rfl rfl rfl, by simpa [Input.isQuiet] using hquiet⟩
  | sync => exact ⟨⟨rfl, noWriteOpen_of_empty rfl⟩, rfl⟩
  | agentWrite v cell =>
    have hset : KeepsMask s ((s.setMem (memWrite8 s.cfg.nvBigEndian s.mem (nvAddr s) v)).setNvEvents
        (s.nvEvents ++ [.agentWrite (nvAddr s) v])) := keepsMask_congr h rfl rfl rfl
    exact ⟨hset.trans (keepsMask_setHeld hset.open' _), by simp [setHeld]⟩
  | writeSctlr2EL2 v r d el => exact ⟨keepsMask_congr h rfl rfl rfl, rfl⟩
  | reset l => cases hquiet
  | exceptionReturn l => exact ⟨keepsMask_congr h rfl rfl rfl, rfl⟩

/-- The Effective value is of the configuration, the body of its function and the register. -/
theorem effMaskEL2_congr {s s' : State} (hcfg : s'.cfg = s.cfg) (henv : s'.env.effMaskEL2 = s.env.effMaskEL2)
    (hmask : s'.sctlr2maskEL2 = s.sctlr2maskEL2) : effMaskEL2 s' = effMaskEL2 s := by
  rw [effMaskEL2, effMaskEL2, effectiveEL2, effectiveEL2, hcfg, henv, hmask]

/-- A quiet step below EL3 keeps a locked mask locked, with its value. -/
theorem locked_step {s s' : State} (h : s.Locked)
    (hquiet : ∀ inp, nextInput s = some inp → inp.isQuiet s.env = true)
    (hlow : nextInput s = none → s.pstate.el ≠ .el3) (hstep : step s = .next s') :
    s'.Locked ∧ s'.sctlr2maskEL2 = s.sctlr2maskEL2 ∧ effMaskEL2 s' = effMaskEL2 s := by
  obtain ⟨hlocked, hopen⟩ := locked_iff.1 h
  have hpop : NoWriteOpen (popInput s) := noWriteOpen_congr hopen rfl rfl rfl
  have hkept : KeepsMask (popInput s) s' ∧ s'.env.effMaskEL2 = s.env.effMaskEL2 := by
    rcases step_next hstep with ⟨inp, hinp, happly⟩ | ⟨hin, i, -, hexec⟩
    · exact keepsMask_applied hpop (hquiet inp hinp) (applyInput_applied happly)
    · exact ⟨keepsMask_ended hpop hlocked (hlow hin) (exec_ended hexec),
        congrArg Env.effMaskEL2 (exec_instrKept hexec).env⟩
  obtain ⟨⟨hmask, hopen'⟩, henv⟩ := hkept
  have heff := effMaskEL2_congr (configurationAndTextAreFixed s s' hstep).1 henv hmask
  exact ⟨locked_iff.2 ⟨heff ▸ hlocked, hopen'⟩, hmask, heff⟩

/-- Settles O32, by induction on the run: each of its steps keeps the mask locked. -/
theorem lockedMaskNeverChanges : Obligations.LockedMaskNeverChanges := by
  intro s s' h hrun
  suffices hall : s'.Locked ∧ s'.sctlr2maskEL2 = s.sctlr2maskEL2 ∧ effMaskEL2 s' = effMaskEL2 s from hall.2
  induction hrun with
  | here => exact ⟨h, rfl, rfl⟩
  | next before quiet low hstep ih =>
    obtain ⟨hlocked, hmask, heff⟩ := ih
    obtain ⟨hlocked', hmask', heff'⟩ := locked_step hlocked quiet low hstep
    exact ⟨hlocked', hmask'.trans hmask, heff'.trans heff⟩

end Sys2Proof.Proofs.WriteOnce
end

section
/-! PROOFS. The fields of the mask (10_state.md rules R10 to R25), the masked write (42_mask_effect.md rules R80 to
R85), the general registers (rule R35) and the syndromes (rule R102). -/

namespace Sys2Proof.Proofs.MaskFields

open Sys2Proof Sys2Proof.Machine Sys2Proof.Claims

/-! The implemented fields. -/

theorem getLsbD_ite_zero (b : Bool) (v : Word) (i : Nat) :
    (if b = true then v else 0#64).getLsbD i = (b && v.getLsbD i) := by
  cases b <;> simp

/-- Bit `i` of `IMPL_MASK`, by the table of rule R4. -/
theorem getLsbD_implMask (c : Config) (i : Nat) : (implMask c).getLsbD i = (c.haveEL2 &&
    ((c.featCPA2 && (0x1E00#64).getLsbD i) || (c.featPAuthLR && (0x180#64).getLsbD i) ||
      (c.featSYSREG128 && (0x40#64).getLsbD i) || (c.featDoubleFault2 && (0x24#64).getLsbD i) ||
      (c.featANERR && (0x10#64).getLsbD i) || (c.featADERR && (0x8#64).getLsbD i) ||
      (c.featMEC && (0x2#64).getLsbD i))) := by
  simp only [implMask, featureMask, getLsbD_ite_zero, BitVec.getLsbD_or]

/-- A value below 2^13 has no bit from 13 up. -/
theorem getLsbD_of_thirteen_le {v : Word} {i : Nat} (hv : v.toNat < 2 ^ 13) (hi : 13 ≤ i) : v.getLsbD i = false :=
  Nat.testBit_lt_two_pow (hv.trans_le (Nat.pow_le_pow_right (by decide) hi))

/-- Settles O35: each bit is read off the table of rule R4. -/
theorem implementedFieldsMakeUpImplMask : Obligations.ImplementedFieldsMakeUpImplMask := by
  intro c
  refine ⟨fun f => ?_, fun i hi => ?_⟩
  · rw [getLsbD_implMask]
    cases f <;> simp [MaskField.bit, MaskField.implemented]
  · rw [getLsbD_implMask]
    rcases hi with rfl | hi
    · simp
    · simp [getLsbD_of_thirteen_le _ hi]

/-! The masked write. -/

theorem maskBit_eq_one_iff (v : Word) (f : MaskField) : maskBit v f = 1#1 ↔ v.getLsbD f.bit = true := by
  have h : (maskBit v f).getLsbD 0 = v.getLsbD f.bit := by simp [maskBit]
  rw [← h]
  generalize maskBit v f = b
  revert b
  decide

/-- Each field stands in the image at the position of its mask bit (rule R27, D17). -/
theorem getLsbD_image (r : Sctlr2) (f : MaskField) : r.image.getLsbD f.bit = (r.get f).getLsbD 0 := by
  rw [Sctlr2.image]
  simp only [BitVec.getLsbD_append]
  cases f <;> simp [Sctlr2.get, MaskField.bit]

/-- Every other bit of an image is 0. -/
theorem getLsbD_image_other (r : Sctlr2) {i : Nat} (hi : i = 0 ∨ 13 ≤ i) : r.image.getLsbD i = false := by
  rw [Sctlr2.image]
  simp only [BitVec.getLsbD_append]
  rcases hi with rfl | hi
  · simp
  · obtain ⟨j, rfl⟩ := Nat.exists_eq_add_of_le' hi
    simp

/-- The twelve positions are those from 1 to 12 (rules R12 to R23). -/
theorem exists_field_of_bit {i : Nat} (h1 : 1 ≤ i) (h12 : i < 13) : ∃ f : MaskField, f.bit = i := by
  interval_cases i
  exacts [⟨.emec, rfl⟩, ⟨.nmea, rfl⟩, ⟨.enADERR, rfl⟩, ⟨.enANERR, rfl⟩, ⟨.ease, rfl⟩, ⟨.enIDCP128, rfl⟩,
    ⟨.enPACM, rfl⟩, ⟨.enPACM0, rfl⟩, ⟨.cpta, rfl⟩, ⟨.cpta0, rfl⟩, ⟨.cptm, rfl⟩, ⟨.cptm0, rfl⟩]

/-- The image of a masked write is the masked write of the images (rule R80, D17). -/
theorem image_maskedWrite (old new : Sctlr2) (m : Word) :
    (old.maskedWrite new m).image = maskedWrite old.image new.image m := by
  apply BitVec.eq_of_getLsbD_eq
  intro i _
  rw [maskedWrite_getLsbD]
  by_cases hi : i = 0 ∨ 13 ≤ i
  · simp [getLsbD_image_other _ hi]
  · obtain ⟨f, rfl⟩ := exists_field_of_bit (i := i) (by omega) (by omega)
    rw [getLsbD_image, getLsbD_image, getLsbD_image, Sctlr2.get_maskedWrite]
    simp only [maskBit_eq_one_iff]
    split <;> rfl

/-- Settles O36: by the fields of the masked write, and of its image. -/
theorem maskedWriteIsFieldByField : Obligations.MaskedWriteIsFieldByField := by
  intro old new m
  refine ⟨fun f h => ?_, fun f h => ?_, image_maskedWrite old new m⟩
  · simp [h]
  · simp [h]

/-- Settles O37: bit by bit. -/
theorem maskedWriteLaws : Obligations.MaskedWriteLaws := by
  intro old new a b m
  have hbits {v w : Word} (h : ∀ i < 64, v.getLsbD i = w.getLsbD i) : v = w := BitVec.eq_of_getLsbD_eq h
  refine ⟨hbits fun i _ => ?_, hbits fun i hi => ?_, hbits fun i _ => ?_, hbits fun i hi => ?_,
    hbits fun i _ => ?_, hbits fun i _ => ?_⟩
  · simp [maskedWrite_getLsbD]
  · have hones : (0xFFFFFFFFFFFFFFFF#64).getLsbD i = true := by
      rw [show 0xFFFFFFFFFFFFFFFF#64 = BitVec.allOnes 64 by decide, BitVec.getLsbD_allOnes, decide_eq_true hi]
    simp only [maskedWrite_getLsbD, hones, if_true]
  · simp only [BitVec.getLsbD_and, maskedWrite_getLsbD]
    cases m.getLsbD i <;> simp
  · simp only [BitVec.getLsbD_and, BitVec.getLsbD_not, maskedWrite_getLsbD, hi]
    cases m.getLsbD i <;> simp
  · simp [maskedWrite_getLsbD]
  · simp only [maskedWrite_getLsbD]
    cases m.getLsbD i <;> simp

/-! The write of SCTLR2_EL2. -/

/-- The mask a write of SCTLR2_EL2 sees is the stored value or one it has had (rule R84). -/
theorem maskSeen_mem (back : Nat) (s : State) : maskSeen back s = s.sctlr2maskEL2 ∨ maskSeen back s ∈ s.maskHist := by
  unfold maskSeen
  rw [List.getD_eq_getElem?_getD]
  cases hget : (s.maskHist ++ [s.sctlr2maskEL2])[s.maskHist.length - back]? with
  | none => exact .inl rfl
  | some v =>
    have hmem := List.mem_of_getElem? hget
    rw [List.mem_append, List.mem_singleton] at hmem
    exact hmem.symm

/-- With no older mask still visible it is the stored value. -/
theorem maskSeen_of_no_hist {s : State} (h : s.maskHist = []) (back : Nat) : maskSeen back s = s.sctlr2maskEL2 := by
  rcases maskSeen_mem back s with hm | hm
  · exact hm
  · rw [h] at hm
    cases hm

/-- Where the mask binds, the write completes and is masked by the value it sees. -/
theorem writeSctlr2EL2_of_binds {s : State} (h : maskBinds s = true) (v : Word) : writeSctlr2EL2 v s =
    .next (maskedWriteSctlr2 (drawUpTo s.maskHist.length s).1 v (drawUpTo s.maskHist.length s).2) := if_pos h

/-- What a masked write changes: SCTLR2_EL2, and the count of draws. -/
theorem maskedWriteSctlr2_eq (v : Word) (s : State) :
    ∃ d, maskedWriteSctlr2 (drawUpTo s.maskHist.length s).1 v (drawUpTo s.maskHist.length s).2 =
      (s.setDraws d).setSctlr2 (s.sctlr2EL2.maskedWrite (Sctlr2.ofImage v)
        (effectiveEL2 s.cfg s.env (maskSeen (drawUpTo s.maskHist.length s).1 s))) := by
  obtain ⟨d, hd⟩ := drawUpTo_shape s s.maskHist.length
  exact ⟨d, by rw [hd]; rfl⟩

/-- Settles O38: the mask binds, and what it sees is a value the mask has or had. -/
theorem writeOfSctlr2IsMasked : Obligations.WriteOfSctlr2IsMasked := by
  intro v s henabled hel
  have hbinds : maskBinds s = true := by
    rcases hel with hel | ⟨hel, hmask⟩
    · simp [maskBinds, henabled, hel]
    · simp [maskBinds, henabled, hel, hmask]
  obtain ⟨d, hd⟩ := maskedWriteSctlr2_eq v s
  have hwrite := writeSctlr2EL2_of_binds hbinds v
  rw [hd] at hwrite
  exact ⟨_, _, hwrite, maskSeen_mem _ s, fun hnil => maskSeen_of_no_hist hnil _, rfl, rfl, rfl, rfl, rfl⟩

/-- Where the mask does not bind, the write at EL2 and EL3 is unmasked. -/
theorem writeSctlr2EL2_of_not_binds {s : State} (h : maskBinds s = false)
    (hel : s.pstate.el = .el2 ∨ s.pstate.el = .el3) (v : Word) :
    writeSctlr2EL2 v s = .next (s.setSctlr2 (Sctlr2.ofImage v)) := by
  rw [writeSctlr2EL2, if_neg (by simp [h]), if_pos hel]

/-- Settles O40: the mask does not bind at EL3 without `MASK_AT_EL3`, nor at EL0 and EL1. -/
theorem writeOfSctlr2OutsideTheMask : Obligations.WriteOfSctlr2OutsideTheMask := by
  intro v s
  refine ⟨fun hel hmask => ?_, fun hel => ?_⟩
  · exact writeSctlr2EL2_of_not_binds (by simp [maskBinds, hel, hmask]) (.inr hel) v
  · rcases hel with hel | hel <;> simp [applyInput, writeSctlr2EL2, maskBinds, hel]

/-! Small facts. -/

/-- Settles O23: for each of the 32 operands. -/
theorem syndromeOfEachInstruction : Obligations.SyndromeOfEachInstruction := by
  unfold Obligations.SyndromeOfEachInstruction
  decide

/-- Settles O42: the reset state is evaluated. -/
theorem resetStateIsFreshAndUnlocked : Obligations.ResetStateIsFreshAndUnlocked := by
  unfold Obligations.ResetStateIsFreshAndUnlocked
  decide

/-- Settles O59: what a register reads after a write of another, and of itself. -/
theorem generalRegistersAndTheZeroRegister : Obligations.GeneralRegistersAndTheZeroRegister := by
  intro s t u v
  refine ⟨readX_31 s, writeX_31 s v, fun ht => ?_, fun hu => ?_⟩
  · rw [readX_writeX, if_pos ⟨rfl, ht⟩]
  · rw [readX_writeX, if_neg fun h => hu h.1]

end Sys2Proof.Proofs.MaskFields
end

section
/-! PROOFS. Where each instruction completes, and what it then reads or writes (rules R60, R61, R70 to R72). -/

namespace Sys2Proof.Proofs.Completion

open Sys2Proof Sys2Proof.Machine Sys2Proof.Claims Sys2Proof.Proofs.Causes Sys2Proof.Proofs.Events
  Sys2Proof.Proofs.Frames Sys2Proof.Proofs.MaskFields

/-! Accesses of SCTLR2MASK_EL2. -/

/-- The name `n` reaches SCTLR2MASK_EL2 and no test comes before the lock: at EL3 by the EL2 name, at EL2 where EL3
allows it, by the EL1 name in host mode (rules R60, R61, R72). -/
def Reaches (n : RegName) (s : State) : Prop :=
  Runs s ∧ ((s.pstate.el = .el3 ∧ n = .sctlr2maskEL2) ∨
    (s.pstate.el = .el2 ∧ El3Allows s ∧ (n = .sctlr2maskEL1 → s.env.inHostEL2 = true)))

theorem reaches_of_inHost {s : State} (h : InHost s) (n : RegName) : Reaches n s := by
  obtain ⟨hr, hel, h3, hhost⟩ := h
  exact ⟨hr, .inr ⟨hel, h3, fun _ => hhost⟩⟩

theorem el1NameLocation_of_host {s : State} (hel : s.pstate.el = .el2) (hhost : s.env.inHostEL2 = true) :
    el1NameLocation s = .sctlr2maskEL2 := by
  simp [el1NameLocation, hel, hhost]

theorem firstCause_mrsBy_of_reaches {n : RegName} {s : State} (h : Reaches n s) (t : RegNum) :
    firstCause (mrsBy n t) s = none := by
  obtain ⟨hr, ⟨hel, rfl⟩ | ⟨hel, h3, -⟩⟩ := h
  · simpa only [mrsBy, firstCause_mrsEL2] using checkEL2Name_eq_none hr (.inl hel)
  · cases n with
    | sctlr2maskEL2 => simpa only [mrsBy, firstCause_mrsEL2] using checkEL2Name_eq_none hr (.inr ⟨hel, h3⟩)
    | sctlr2maskEL1 =>
      simpa only [mrsBy, firstCause_mrsEL1] using checkEL1Name_eq_none hr (.inr (.inl ⟨hel, h3⟩))

theorem firstCause_msrBy_of_reaches {n : RegName} {s : State} (h : Reaches n s) (t : RegNum) :
    firstCause (msrBy n t) s = none := by
  obtain ⟨hr, ⟨hel, rfl⟩ | ⟨hel, h3, -⟩⟩ := h
  · simpa only [msrBy, firstCause_msrEL2] using checkEL2Name_eq_none hr (.inl hel)
  · cases n with
    | sctlr2maskEL2 => simpa only [msrBy, firstCause_msrEL2] using checkEL2Name_eq_none hr (.inr ⟨hel, h3⟩)
    | sctlr2maskEL1 =>
      have hlock : lockedEL1 s = false := by simp [lockedEL1, hel]
      have hcheck := checkEL1Name_eq_none (control := s.env.hfgwtr2_nSCTLR2MASK_EL1) hr (.inr (.inl ⟨hel, h3⟩))
      simp [msrBy, hlock, hcheck]

/-- The MRS that reaches SCTLR2MASK_EL2 completes (rules R60, R70). -/
theorem exec_mrsBy {n : RegName} {s : State} (h : Reaches n s) (t : RegNum) : exec (mrsBy n t) s =
    .next (advance (writeX (readMaskEL2 n t s).2 t (readMaskEL2 n t s).1)) := by
  rw [exec_of_no_cause (pcFits_of_runs h.1) (firstCause_mrsBy_of_reaches h t)]
  obtain ⟨-, ⟨-, rfl⟩ | ⟨hel, -, hhost⟩⟩ := h
  · rfl
  · cases n with
    | sctlr2maskEL2 => rfl
    | sctlr2maskEL1 => simp only [mrsBy, access, el1NameLocation_of_host hel (hhost rfl), readMaskInto, finishRead]

/-- The MSR that reaches SCTLR2MASK_EL2 comes to its lock (rules R61, R71). -/
theorem exec_msrBy {n : RegName} {s : State} (h : Reaches n s) (t : RegNum) :
    exec (msrBy n t) s = lockedWrite n t s := by
  rw [exec_of_no_cause (pcFits_of_runs h.1) (firstCause_msrBy_of_reaches h t)]
  obtain ⟨-, ⟨-, rfl⟩ | ⟨hel, -, hhost⟩⟩ := h
  · rfl
  · cases n with
    | sctlr2maskEL2 => rfl
    | sctlr2maskEL1 => simp only [msrBy, access, el1NameLocation_of_host hel (hhost rfl)]

/-- At EL3 there is no lock (rule R61 row 9). -/
theorem exec_msrBy_at_el3 {s : State} (hr : Runs s) (hel : s.pstate.el = .el3) (t : RegNum) :
    exec (.msrSctlr2maskEl2 t) s = .next (advance (writeMaskEL2 .sctlr2maskEL2 t s)) :=
  (exec_msrBy (n := .sctlr2maskEL2) ⟨hr, .inl ⟨hel, rfl⟩⟩ t).trans (if_neg (by simp [hel]))

/-- At EL2 the MSR completes where the mask its lock test meets does not lock. -/
theorem exec_msrBy_of_unlocked {n : RegName} {s : State} (h : Reaches n s) (hel : s.pstate.el = .el2)
    (hunlocked : effectiveEL2 s.cfg s.env (maskSeenBy n s) = 0#64) (t : RegNum) :
    exec (msrBy n t) s = .next (advance (writeMaskEL2 n t (lockTest n s).2)) :=
  (exec_msrBy h t).trans (lockedWrite_of_unlocked hel hunlocked)

section

variable (n : RegName) (t : RegNum) (s : State)

/-- A read of SCTLR2MASK_EL2 gives the value `maskSeenBy` says. -/
theorem readMaskEL2_fst : (readMaskEL2 n t s).1 = maskSeenBy n s := by
  unfold readMaskEL2
  split
  · obtain ⟨d, hd⟩ := drawUpTo_shape s (freedom n s.window.order)
    rw [hd]
    rfl
  · next hr => rw [maskSeenBy_of_settled (order_nil_of_not_recorded hr)]

/-- `X[t]` after a write of it: register 31 discards it (rule R35). -/
theorem readX_advance_writeX (v : Word) : readX (advance (writeX s t v)) t = if t = 31#5 then 0#64 else v := by
  have h := readX_writeX s t t v
  by_cases ht : t = 31#5
  · subst ht
    rw [if_pos rfl]
    exact readX_31 _
  · rw [if_pos ⟨rfl, ht⟩] at h
    rw [if_neg ht]
    exact h

/-- The MRS leaves what it read in `X[t]`, and `pc + 4`. -/
theorem readX_afterMrs : readX (advance (writeX (readMaskEL2 n t s).2 t (readMaskEL2 n t s).1)) t =
    if t = 31#5 then 0#64 else maskSeenBy n s := by
  rw [readX_advance_writeX, readMaskEL2_fst]

theorem pc_advance_of_untouched {s₁ : State} (h : Untouched s s₁) : (advance s₁).pc = s.pc + 4#64 := by
  rw [advance, State.setPc_pc, h.pc]

end

/-- Settles O12: the value read is the one `maskSeenBy` says. -/
theorem mrsByEL2NameReadsTheMask : Obligations.MrsByEL2NameReadsTheMask := by
  intro t s hr hel
  have hreach : Reaches .sctlr2maskEL2 s :=
    ⟨hr, hel.imp (fun h => ⟨h, rfl⟩) fun h => ⟨h.1, h.2, fun e => (by cases e)⟩⟩
  exact ⟨_, maskSeenBy .sctlr2maskEL2 s, exec_mrsBy hreach t, readX_afterMrs _ t s,
    pc_advance_of_untouched s ((untouched_readMaskEL2 s t _).trans (untouched_writeX _ t _)),
    fun h => maskSeenBy_of_settled h _, rfl⟩

/-! An MSR with no order open. -/

theorem placesFor_of_freedom_zero {c : Config} {w : Window} {a : Access} (hf : freedom a.name w.order = 0)
    (hs : sourceReady w.order a = true) : placesFor c w a = [0] := by
  simp [placesFor, hf, mayPutAt, keepOutcomes, hs]

/-- The write of an MSR that no access of the window may follow takes the last place. -/
theorem writeMaskUnordered_of_placesFor {a : Access} {s : State}
    (h : placesFor s.cfg (openWindow s) a = [0]) : writeMaskUnordered a s = writeMaskAt 0 a s := by
  simp [writeMaskUnordered, drawFrom, h]

/-- The open accesses after an MSR from none open, where it is one of them: its lock test and its write. -/
def windowOfMsr (n : RegName) (t : RegNum) (s : State) : Window :=
  ⟨s.sctlr2maskEL2, [⟨0, n, .test s.env.effMaskEL2⟩, ⟨1, n, .write (.word (readX s t))⟩], []⟩

/-- The state after an MSR at EL2 from no access open. -/
def afterMsr (n : RegName) (t : RegNum) (s : State) : State :=
  advance (((s.setMaskHist (s.maskHist ++ [s.sctlr2maskEL2, storedFrom s t])).setWindow
    (if recorded s then windowOfMsr n t s else s.window)).setMaskEL2 (storedFrom s t))

/-- The window after the lock test of an MSR from no access open. -/
theorem lockTest_of_settled {n : RegName} {s : State} (hs : Settled s) : (lockTest n s).2 = s.setWindow
    (if recorded s then ⟨s.sctlr2maskEL2, [⟨0, n, .test s.env.effMaskEL2⟩], []⟩ else s.window) := by
  rw [lockTest_snd, openWindow_of_settled hs, hs]
  rfl

/-- The write of an MSR whose lock test alone is open. -/
theorem writeMaskEL2_after_test {n : RegName} {t : RegNum} {s : State} {b : Word} {body : Option Word}
    (hw : s.window = ⟨b, [⟨0, n, .test body⟩], []⟩) : writeMaskEL2 n t s =
      ((s.setMaskHist (s.maskHist ++ [s.sctlr2maskEL2, storedFrom s t])).setWindow
        ⟨b, [⟨0, n, .test body⟩, ⟨1, n, .write (.word (readX s t))⟩], []⟩).setMaskEL2 (storedFrom s t) := by
  have hrec : recorded s = true := by simp [recorded, hw]
  have hsource : sourceOf t s = .word (readX s t) := by simp [sourceOf, sourceAt, readHeldAt, hw, heldAt]
  have hopen : ∀ hist, openWindow (s.setMaskHist hist) = s.window := fun hist => if_neg (by simp [hw])
  rw [writeMaskEL2, if_pos hrec, hsource, noteMaskWrite, writeMaskUnordered_of_placesFor]
  · simp only [writeMaskAt, hopen, hw, insertAccess_zero, nextAccess, List.length_singleton, List.cons_append,
      List.nil_append, refreshHeld]
    rfl
  · rw [hopen, hw]
    exact placesFor_of_freedom_zero (by simp [freedom, nextAccess]) rfl

theorem exec_msrBy_of_settled {n : RegName} {s : State} (h : Reaches n s) (hel : s.pstate.el = .el2)
    (hs : Settled s) (heff : effMaskEL2 s = 0#64) (t : RegNum) :
    exec (msrBy n t) s = .next (afterMsr n t s) := by
  rw [exec_msrBy_of_unlocked h hel (by rw [maskSeenBy_of_settled hs]; exact heff), lockTest_of_settled hs]
  by_cases hrec : recorded s = true
  · rw [if_pos hrec, writeMaskEL2_after_test (by rfl), afterMsr, if_pos hrec]
    rfl
  · have hnot : recorded s = false := by simpa using hrec
    have hrec' : recorded (s.setWindow s.window) = false := hnot
    rw [if_neg hrec, writeMaskEL2, if_neg (by simp [hrec']), afterMsr, if_neg hrec]
    rfl

section

variable (n : RegName) (t : RegNum) (s : State)

@[simp] theorem afterMsr_sctlr2maskEL2 : (afterMsr n t s).sctlr2maskEL2 = storedFrom s t := rfl
@[simp] theorem afterMsr_sctlr2maskEL1 : (afterMsr n t s).sctlr2maskEL1 = s.sctlr2maskEL1 := rfl
@[simp] theorem afterMsr_cfg : (afterMsr n t s).cfg = s.cfg := rfl
@[simp] theorem afterMsr_env : (afterMsr n t s).env = s.env := rfl
@[simp] theorem afterMsr_pstate : (afterMsr n t s).pstate = s.pstate := rfl
@[simp] theorem afterMsr_x : (afterMsr n t s).x = s.x := rfl
@[simp] theorem afterMsr_mem : (afterMsr n t s).mem = s.mem := rfl
@[simp] theorem afterMsr_pc : (afterMsr n t s).pc = s.pc + 4#64 := rfl
@[simp] theorem afterMsr_draws : (afterMsr n t s).draws = s.draws := rfl
@[simp] theorem afterMsr_sctlr2EL2 : (afterMsr n t s).sctlr2EL2 = s.sctlr2EL2 := rfl

end

/-- At EL3 with no order open the MSR stores at once. -/
theorem writeMaskEL2_of_settled_at_el3 {s : State} (hel : s.pstate.el = .el3) (hs : Settled s) (n : RegName)
    (t : RegNum) : (writeMaskEL2 n t s).sctlr2maskEL2 = storedFrom s t := by
  have hrec : recorded s = false := by simp [recorded, unordered, hel, hs]
  rw [writeMaskEL2, if_neg (by simp [hrec])]
  rfl

/-- Settles O13: at EL3 there is no lock, and at EL2 with no order open the lock test meets the stored value. -/
theorem msrByEL2NameWritesTheMask : Obligations.MsrByEL2NameWritesTheMask := by
  rintro t s hr (hel | ⟨hel, h3, hs, heff⟩)
  · exact ⟨_, exec_msrBy_at_el3 hr hel t, pc_advance_of_untouched s (untouched_writeMaskEL2 s t _),
      fun hs => writeMaskEL2_of_settled_at_el3 hel hs _ t⟩
  · exact ⟨_, exec_msrBy_of_settled (n := .sctlr2maskEL2) ⟨hr, .inr ⟨hel, h3, fun e => (by cases e)⟩⟩ hel hs heff t,
      rfl, fun _ => rfl⟩

/-! Accesses of the other two locations. -/

/-- The EL1 name reaches SCTLR2MASK_EL1 and no control of EL3 or EL2 stops it (rules R70, R71, R72). -/
def ReachesMaskEL1 (control : Bit) (s : State) : Prop :=
  s.pstate.el = .el3 ∨ (s.pstate.el = .el2 ∧ El3Allows s ∧ s.env.inHostEL2 = false) ∨
    (s.pstate.el = .el1 ∧ El3Allows s ∧ El2Allows control s ∧ s.env.nvx ≠ 0b111#3)

theorem el1NameLocation_of_reachesMaskEL1 {control : Bit} {s : State} (h : ReachesMaskEL1 control s) :
    el1NameLocation s = .sctlr2maskEL1 := by
  rcases h with hel | ⟨hel, -, hhost⟩ | ⟨hel, -, -, hnvx⟩
  · simp [el1NameLocation, hel]
  · simp [el1NameLocation, hel, hhost]
  · simp [el1NameLocation, hel, hnvx]

theorem checkEL1Name_of_reachesMaskEL1 {control : Bit} {s : State} (hr : Runs s) (h : ReachesMaskEL1 control s) :
    checkEL1Name control s = none :=
  checkEL1Name_eq_none hr (h.imp id (Or.imp (fun k => ⟨k.1, k.2.1⟩) fun k => ⟨k.1, k.2.1, k.2.2.1⟩))

/-- The MRS by the EL1 name reads SCTLR2MASK_EL1 there. -/
theorem exec_mrsEL1_of_maskEL1 {s : State} (hr : Runs s) (h : ReachesMaskEL1 s.env.hfgrtr2_nSCTLR2MASK_EL1 s)
    (t : RegNum) : exec (.mrsSctlr2maskEl1 t) s =
      .next (advance (writeX (readMaskEL1 t s).2 t s.sctlr2maskEL1)) := by
  rw [exec_of_no_cause (pcFits_of_runs hr) (by
    rw [firstCause_mrsEL1]; exact checkEL1Name_of_reachesMaskEL1 hr h)]
  simp only [access, el1NameLocation_of_reachesMaskEL1 h, readMaskEL1Into, finishRead]
  rfl

/-- The MSR by the EL1 name writes SCTLR2MASK_EL1 there where its lock, at EL1, does not refuse it. -/
theorem exec_msrEL1_of_maskEL1 {s : State} (hr : Runs s) (h : ReachesMaskEL1 s.env.hfgwtr2_nSCTLR2MASK_EL1 s)
    (hunlocked : s.pstate.el = .el1 → effMaskEL1 s = 0#64) (t : RegNum) :
    exec (.msrSctlr2maskEl1 t) s =
      .next (advance (writeMaskEL1 t (if s.pstate.el = .el1 then (lockTestEL1 s).2 else s))) := by
  have hlock : lockedEL1 s = false := by
    by_contra hl
    obtain ⟨-, hel, heff⟩ := el1NameLocation_of_lockedEL1 (by simpa using hl)
    exact heff (hunlocked hel)
  rw [exec_of_no_cause (pcFits_of_runs hr) (by
    rw [firstCause_msrEL1, checkEL1Name_of_reachesMaskEL1 hr h, hlock]; rfl)]
  simp only [access, el1NameLocation_of_reachesMaskEL1 h, writeMaskEL1From_of_unlocked hunlocked, finishWrite]

/-- At EL1 with `nvx = '111'` the EL1 name reaches the cell (rule R72). -/
theorem exec_mrsEL1_of_cell {s : State} (hr : Runs s) (hel : s.pstate.el = .el1) (h3 : El3Allows s)
    (h2 : El2Allows s.env.hfgrtr2_nSCTLR2MASK_EL1 s) (hnvx : s.env.nvx = 0b111#3) (t : RegNum) :
    exec (.mrsSctlr2maskEl1 t) s = readNvInto t s := by
  have hloc := el1NameLocation_eq_nvMem_iff.2 ⟨hel, hnvx⟩
  rw [exec_of_no_cause (pcFits_of_runs hr) (by
    rw [firstCause_mrsEL1]; exact checkEL1Name_eq_none hr (.inr (.inr ⟨hel, h3, h2⟩)))]
  simp only [access, hloc]

theorem exec_msrEL1_of_cell {s : State} (hr : Runs s) (hel : s.pstate.el = .el1) (h3 : El3Allows s)
    (h2 : El2Allows s.env.hfgwtr2_nSCTLR2MASK_EL1 s) (hnvx : s.env.nvx = 0b111#3) (t : RegNum) :
    exec (.msrSctlr2maskEl1 t) s = writeNvFrom t s := by
  have hloc := el1NameLocation_eq_nvMem_iff.2 ⟨hel, hnvx⟩
  have hlock : lockedEL1 s = false := by simp [lockedEL1, hnvx]
  rw [exec_of_no_cause (pcFits_of_runs hr) (by
    rw [firstCause_msrEL1, checkEL1Name_eq_none hr (.inr (.inr ⟨hel, h3, h2⟩)), hlock]; rfl)]
  simp only [access, hloc]

theorem exec_mrsEL1_of_admitted {s : State} (hr : Runs s) (hel : s.pstate.el = .el1) (h3 : El3Allows s)
    (h2 : El2Allows s.env.hfgrtr2_nSCTLR2MASK_EL1 s) (hnvx : s.env.nvx = 0b111#3) (hn : nvCheck s = none)
    (t : RegNum) :
    exec (.mrsSctlr2maskEl1 t) s = .next (advance (writeX (nvRead t s).2 t (nvValue s))) := by
  rw [exec_mrsEL1_of_cell hr hel h3 h2 hnvx, readNvInto, hn]
  rfl

theorem exec_msrEL1_of_admitted {s : State} (hr : Runs s) (hel : s.pstate.el = .el1) (h3 : El3Allows s)
    (h2 : El2Allows s.env.hfgwtr2_nSCTLR2MASK_EL1 s) (hnvx : s.env.nvx = 0b111#3) (hn : nvCheck s = none)
    (t : RegNum) : exec (.msrSctlr2maskEl1 t) s = .next (advance (nvWrite t s)) := by
  rw [exec_msrEL1_of_cell hr hel h3 h2 hnvx, writeNvFrom, hn]
  rfl

theorem nvEvents_writeX (s : State) (t : RegNum) (v : Word) : (writeX s t v).nvEvents = s.nvEvents := by
  obtain ⟨x, hx⟩ := writeX_shape s t v
  rw [hx, State.setX_nvEvents]

/-- What the value of a read of the cell is (rule R41, log 17). -/
theorem nvValue_eq (s : State) : nvValue s = if Config.freeNat s.draws % 2 = 0 then
    memRead8 s.cfg.nvBigEndian s.mem (s.env.nvBase.toNat + 0x328) (Config.freeWord s.draws)
    else Config.freeWord s.draws := by
  simp only [nvValue, nvFromMemory, decide_eq_true_eq, nvAddr]

/-- Settles O14: one location at a time. -/
theorem mrsByEL1NameReadsItsLocation : Obligations.MrsByEL1NameReadsItsLocation := by
  intro t s hr
  refine ⟨fun hel h3 h2 hnvx hn => ?_, fun h => ?_, fun h => ?_⟩
  · obtain ⟨w, hw⟩ := nvRead_shape t s
    refine ⟨_, nvValue s, exec_mrsEL1_of_admitted hr hel h3 h2 hnvx hn t,
      pc_advance_of_untouched s ((untouched_nvRead s t).trans (untouched_writeX _ t _)),
      readX_advance_writeX t _ _, nvValue_eq s, ?_⟩
    rw [advance, State.setPc_nvEvents, nvEvents_writeX, hw]
    rfl
  · exact ⟨_, exec_mrsEL1_of_maskEL1 hr h t,
      pc_advance_of_untouched s ((untouched_readMaskEL1 s t).trans (untouched_writeX _ t _)),
      readX_advance_writeX t _ _⟩
  · exact ⟨_, maskSeenBy .sctlr2maskEL1 s, exec_mrsBy (reaches_of_inHost h .sctlr2maskEL1) t,
      pc_advance_of_untouched s ((untouched_readMaskEL2 s t _).trans (untouched_writeX _ t _)),
      readX_afterMrs _ t s, fun hs => maskSeenBy_of_settled hs _, rfl⟩

/-- The eight bytes a write of the cell puts there (rules R42, R43). -/
theorem cellHolds_of_memWrite8 {s s' : State} {v : Word}
    (h : s'.mem = memWrite8 s.cfg.nvBigEndian s.mem (nvAddr s) v) : CellHolds v s s' := by
  intro i hi
  rw [h]
  exact memGet_memWrite8_inside _ v hi

/-- What the MSR by the EL1 name does to the three locations where it writes SCTLR2MASK_EL1. -/
theorem writeMaskEL1_after_test (t : RegNum) (s : State) :
    ∃ w, writeMaskEL1 t (if s.pstate.el = .el1 then (lockTestEL1 s).2 else s) =
      (s.setMaskEL1 (readX s t)).setWindow w := by
  split
  · obtain ⟨w, hw⟩ := lockTestEL1_shape s
    obtain ⟨w', hw'⟩ := writeMaskEL1_shape t (s.setWindow w)
    exact ⟨w', by rw [hw, hw']; rfl⟩
  · exact writeMaskEL1_shape t s

/-- Settles O15: one location at a time. -/
theorem msrByEL1NameWritesItsLocation : Obligations.MsrByEL1NameWritesItsLocation := by
  intro t s hr
  refine ⟨fun hel h3 h2 hnvx hn => ?_, fun h => ?_, fun h hs heff => ?_⟩
  · obtain ⟨w, hw⟩ := nvWrite_shape t s
    have hmem : (advance (nvWrite t s)).mem = memWrite8 s.cfg.nvBigEndian s.mem (nvAddr s) (readX s t) := by
      simp [hw, advance]
    refine ⟨_, exec_msrEL1_of_admitted hr hel h3 h2 hnvx hn t,
      pc_advance_of_untouched s (untouched_nvWrite s t), cellHolds_of_memWrite8 hmem, fun free => ?_, ?_, ?_⟩
    · rw [hmem, ← nvAddr, memRead8_memWrite8]
    · simp [hw, advance]
    · simp [hw, advance]
  · have hreach : ReachesMaskEL1 s.env.hfgwtr2_nSCTLR2MASK_EL1 s :=
      h.imp id (Or.imp id fun k => ⟨k.1, k.2.1, k.2.2.1, k.2.2.2.1⟩)
    have hunlocked : s.pstate.el = .el1 → effMaskEL1 s = 0#64 := by
      intro hel
      rcases h with h | ⟨h, -⟩ | ⟨-, -, -, -, heff⟩
      · rw [hel] at h; cases h
      · rw [hel] at h; cases h
      · exact heff
    obtain ⟨w, hw⟩ := writeMaskEL1_after_test t s
    refine ⟨_, exec_msrEL1_of_maskEL1 hr hreach hunlocked t, ?_, ?_, ?_, fun a => ?_⟩ <;> rw [hw] <;> rfl
  · exact ⟨_, exec_msrBy_of_settled (reaches_of_inHost h .sctlr2maskEL1) h.2.1 hs heff t, rfl, rfl, rfl,
      fun _ => rfl⟩

/-- Settles O16: with the default bodies the lock tests are of the implemented bits. -/
theorem onlyRealFieldsLock : Obligations.OnlyRealFieldsLock := by
  intro t s hr hstop h3
  refine ⟨fun hbody hel hs n hhost => ?_, fun hbody hel h2 hnvx => ?_⟩
  · have hreach : Reaches n s := ⟨hr, .inr ⟨hel, h3, hhost⟩⟩
    have heff : effMaskEL2 s = s.sctlr2maskEL2 &&& implMask s.cfg := by
      simp only [effMaskEL2, effectiveEL2, effectiveBody, hbody]
    split
    · next hz => exact ⟨_, exec_msrBy_of_settled hreach hel hs (heff.trans hz) t, rfl⟩
    · next hnz =>
      rw [exec_msrBy hreach, lockedWrite_of_locked hel (by rw [maskSeenBy_of_settled hs]; exact fun e => hnz (heff.symm.trans e)),
        lockTest_of_settled hs]
      simp only [raise, State.setWindow_cfg, hstop]
      rfl
  · have heff : effMaskEL1 s = s.sctlr2maskEL1 &&& s.cfg.implMaskEL1 := by simp only [effMaskEL1, hbody]
    split
    · next hz =>
      obtain ⟨w, hw⟩ := writeMaskEL1_after_test t s
      exact ⟨_, exec_msrEL1_of_maskEL1 hr (.inr (.inr ⟨hel, h3, h2, hnvx⟩)) (fun _ => heff.trans hz) t, by rw [hw]; rfl⟩
    · next hnz =>
      have hlock : lockedEL1 s = true := by simp [lockedEL1, hel, hnvx, heff, hnz]
      refine exec_eq_fault_of_firstCause hstop (pcFits_of_runs hr) (ev := .undefined .lockEL1) ?_
      rw [firstCause_msrEL1, checkEL1Name_eq_none hr (.inr (.inr ⟨hel, h3, h2⟩)), hlock]
      rfl

/-- Settles O39: the mask does not bind, an input leaves it, and EL3 accesses it as before. -/
theorem noEffectWhenEL2IsNotEnabled : Obligations.NoEffectWhenEL2IsNotEnabled := by
  refine ⟨fun v s hoff hel => ?_, fun e el s => ⟨_, rfl, rfl, rfl⟩, fun t s hr hel _ => ⟨?_, ?_⟩⟩
  · exact ⟨_, writeSctlr2EL2_of_not_binds (by simp [maskBinds, hoff]) hel v, rfl⟩
  · obtain ⟨s', v, hexec, hread, -, hv, -⟩ := mrsByEL2NameReadsTheMask t s hr (.inl hel)
    exact ⟨s', hexec, fun hs => by rw [hread, hv hs]⟩
  · obtain ⟨s', hexec, -, hmask⟩ := msrByEL2NameWritesTheMask t s hr (.inl hel)
    exact ⟨s', hexec, hmask⟩

end Sys2Proof.Proofs.Completion
end

section
/-! PROOFS. The Warm reset (10_state.md rules R37, R38) and the cell `NVMem[0x328]` (20_memory.md rules R40 to R44). -/

namespace Sys2Proof.Proofs.Memory

open Sys2Proof Sys2Proof.Machine Sys2Proof.Claims Sys2Proof.Proofs.Causes Sys2Proof.Proofs.Events
  Sys2Proof.Proofs.Frames Sys2Proof.Proofs.Completion

/-! SCTLR2MASK_EL2 after a Warm reset. -/

theorem resetMask_eq (c : Config) (unknown : Word) : resetMask c unknown = unknown &&& resetUnknownBits c := by
  unfold resetMask
  split
  · next h => rw [h, BitVec.and_zero]
  · rfl

/-- Where EL2 is the highest level only stored RES0 bits are UNKNOWN after a reset. -/
theorem resetUnknownBits_of_highest {c : Config} (h : highestEL c = .el2) :
    resetUnknownBits c = c.res0Stored &&& ~~~implMask c := by
  rw [resetUnknownBits, if_pos h, BitVec.zero_or]

/-- Elsewhere the real fields are too. -/
theorem resetUnknownBits_of_not_highest {c : Config} (h : highestEL c ≠ .el2) :
    resetUnknownBits c = implMask c ||| (c.res0Stored &&& ~~~implMask c) := by
  rw [resetUnknownBits, if_neg h]

theorem resetMask_res0 (c : Config) (u : Word) : resetMask c u &&& (c.res0Stored &&& ~~~implMask c) =
    u &&& (c.res0Stored &&& ~~~implMask c) := by
  rw [resetMask_eq]
  by_cases h : highestEL c = .el2
  · rw [resetUnknownBits_of_highest h, BitVec.and_assoc, BitVec.and_self]
  · rw [resetUnknownBits_of_not_highest h, BitVec.and_assoc]
    congr 1
    ext k hk
    simp only [BitVec.getElem_and, BitVec.getElem_or, BitVec.getElem_not]
    cases (implMask c)[k] <;> simp

theorem resetMask_fields_of_highest {c : Config} (h : highestEL c = .el2) (u : Word) :
    resetMask c u &&& implMask c = 0#64 := by
  rw [resetMask_eq, resetUnknownBits_of_highest h]
  ext k hk
  simp only [BitVec.getElem_and, BitVec.getElem_not, BitVec.getElem_zero]
  cases (implMask c)[k] <;> simp

theorem resetMask_fields_of_not_highest {c : Config} (h : highestEL c ≠ .el2) (u : Word) :
    resetMask c u &&& implMask c = u &&& implMask c := by
  rw [resetMask_eq, resetUnknownBits_of_not_highest h]
  ext k hk
  simp only [BitVec.getElem_and, BitVec.getElem_or, BitVec.getElem_not]
  cases (implMask c)[k] <;> simp

theorem highestEL_eq_el2_iff (c : Config) : highestEL c = .el2 ↔ c.haveEL3 = false ∧ c.haveEL2 = true := by
  unfold highestEL
  cases c.haveEL3 <;> cases c.haveEL2 <;> simp

/-! Memory from the bytes of a launch. -/

theorem memOf_append (l : List Host.Cell) (c : Host.Cell) :
    memOf (l ++ [c]) = if c.1 < 2 ^ 64 then memSet (memOf l) c.1 c.2 else memOf l := by
  rw [memOf, List.foldl_append]
  rfl

theorem latestAt_append (l : List Host.Cell) (c : Host.Cell) (a : Nat) :
    latestAt (l ++ [c]) a = if c.1 = a then some c.2 else latestAt l a := by
  unfold latestAt
  by_cases h : c.1 = a <;> simp [h]

/-- At each address the later byte counts. -/
theorem memGet_memOf (l : List Host.Cell) (a : Nat) :
    memGet (memOf l) a = if a < 2 ^ 64 then latestAt l a else none := by
  induction l using List.reverseRecOn with
  | nil => simp [memOf, memGet, latestAt]
  | append_singleton l c ih =>
    rw [memOf_append, latestAt_append]
    by_cases hc : c.1 = a
    · subst hc
      by_cases h64 : c.1 < 2 ^ 64
      · rw [if_pos h64, if_pos h64, if_pos rfl, memGet_memSet_self]
      · rw [if_neg h64, if_neg h64, ih, if_neg h64]
    · rw [if_neg hc, ← ih]
      split
      · exact memGet_memSet_ne _ hc
      · rfl

theorem memAbove_iff (a : Nat) (m : Memory) : memAbove a m = true ↔ ∀ c ∈ m, a < c.1 := by
  induction m with
  | nil => simp [memAbove]
  | cons c rest ih => simp [memAbove, ih]

/-- The canonical form, one byte at the end more. -/
theorem memWf_append {m : Memory} {c : Host.Cell} (h : memWf (m ++ [c]) = true) :
    memWf m = true ∧ c.1 < 2 ^ 64 ∧ ∀ b ∈ m, b.1 < c.1 := by
  induction m with
  | nil => simpa [memWf, memAbove] using h
  | cons b rest ih =>
    simp only [List.cons_append, memWf, Bool.and_eq_true, decide_eq_true_eq, memAbove_iff] at h ⊢
    obtain ⟨⟨habove, hb⟩, hrest⟩ := h
    obtain ⟨hwf, hc, hbelow⟩ := ih hrest
    refine ⟨⟨⟨fun d hd => habove d (by simp [hd]), hb⟩, hwf⟩, hc, fun d hd => ?_⟩
    rcases List.mem_cons.1 hd with rfl | hd
    · exact habove c (by simp)
    · exact hbelow d hd

/-- A byte above all others is written at the end. -/
theorem memSet_of_above {m : Memory} {a : Nat} (v : Byte) (h : ∀ c ∈ m, c.1 < a) : memSet m a v = m ++ [(a, v)] := by
  induction m with
  | nil => rfl
  | cons c rest ih =>
    have hc := h c (by simp)
    rw [memSet, if_neg (by omega), if_neg (by omega), ih fun d hd => h d (by simp [hd])]
    rfl

/-- Memory in its canonical form is what its bytes make up. -/
theorem memOf_of_memWf {l : List Host.Cell} (h : memWf l = true) : memOf l = l := by
  induction l using List.reverseRecOn with
  | nil => rfl
  | append_singleton l c ih =>
    obtain ⟨hwf, hc, hbelow⟩ := memWf_append h
    rw [memOf_append, if_pos hc, ih hwf, memSet_of_above _ hbelow]

/-- Settles O41: the reset's fields are read off, and the mask's bits are those of `resetMask`. -/
theorem warmResetOfTheMask : Obligations.WarmResetOfTheMask := by
  intro l s
  refine ⟨warmReset l s, rfl, fun h3 h2 => ?_, fun h => ?_, resetMask_res0 _ _, Invariant.storable_resetMask _ _, rfl, rfl,
    rfl, rfl, rfl, rfl, rfl, rfl, rfl, memGet_memOf l.mem, memWf_memOf l.mem, memOf_of_memWf, rfl, rfl, rfl, rfl, rfl,
    rfl, rfl⟩
  · exact resetMask_fields_of_highest ((highestEL_eq_el2_iff _).2 ⟨h3, h2⟩) _
  · refine resetMask_fields_of_not_highest (fun e => ?_) _
    obtain ⟨h3, h2⟩ := (highestEL_eq_el2_iff _).1 e
    rcases h with h | h
    · rw [h3] at h; cases h
    · rw [h2] at h; cases h

/-! The cell. -/

theorem inRegions_iff (rs : List Region) (a : Nat) :
    inRegions rs a = true ↔ ∃ r ∈ rs, r.base ≤ a ∧ a < r.base + r.size := by
  simp [inRegions]

theorem overlapsText_eq_false_iff (text : Machine.Memory) (a : Nat) :
    overlapsText text a = false ↔ ∀ c ∈ text, c.1 < a ∨ a + 8 ≤ c.1 := by
  simp only [overlapsText, List.any_eq_false, Bool.and_eq_true, decide_eq_true_eq, not_and_or, not_le, not_lt]

/-- Which cells the launch admits (rule R44). -/
theorem nvCheck_eq_none_iff (s : State) : nvCheck s = none ↔
    s.env.nvBase.toNat % 8 = 0 ∧ nvAddr s + 8 ≤ 2 ^ 64 ∧
      (∀ i < 8, ∃ r ∈ s.regions, r.base ≤ nvAddr s + i ∧ nvAddr s + i < r.base + r.size) ∧
      (∀ c ∈ s.text, c.1 < nvAddr s ∨ nvAddr s + 8 ≤ c.1) := by
  have hall : (∀ i < 8, ∃ r ∈ s.regions, r.base ≤ nvAddr s + i ∧ nvAddr s + i < r.base + r.size) ↔
      ((List.range 8).all fun i => inRegions s.regions (nvAddr s + i)) = true := by
    simp only [List.all_eq_true, List.mem_range, inRegions_iff]
  rw [hall, ← overlapsText_eq_false_iff, nvCheck]
  split_ifs with h1 h2 h3 h4
  · simp [h1]
  · simp only [false_iff, not_and]
    omega
  · simp only [Bool.not_eq_true'] at h3
    simp [h3]
  · simp [h4]
  · simp only [Bool.not_eq_true', Bool.not_eq_false] at h3
    simp only [Bool.not_eq_true] at h4
    exact ⟨fun _ => ⟨by omega, by omega, h3, h4⟩, fun _ => rfl⟩

/-- Settles O45: the conditions of `nvCheck`, and the memory path's own stop. -/
theorem unadmittedCellIsStuck : Obligations.UnadmittedCellIsStuck := by
  intro t s hr hel h3 hnvx
  refine ⟨nvCheck_eq_none_iff s, fun why hwhy => ⟨fun h2 => ?_, fun h2 => ?_⟩⟩
  · rw [exec_mrsEL1_of_cell hr hel h3 h2 hnvx, readNvInto, hwhy]
  · rw [exec_msrEL1_of_cell hr hel h3 h2 hnvx, writeNvFrom, hwhy]

/-- Settles O44: the fields of the write are read off. -/
theorem agentWritesTheCellAlone : Obligations.AgentWritesTheCellAlone := by
  intro v s hn
  have hnext : applyInput (.agentWrite v) s = .next (setHeld (hold (.cell (nvAddr s)) none s.window.held)
      ((s.setMem (memWrite8 s.cfg.nvBigEndian s.mem (nvAddr s) v)).setNvEvents
        (s.nvEvents ++ [.agentWrite (nvAddr s) v]))) := by
    simp only [applyInput, agentWrite, hn]
  refine ⟨_, hnext, cellHolds_of_memWrite8 (by simp [setHeld]), by simp [setHeld, nvAddr],
    ((untouched_setMem s _).trans ((untouched_setNvEvents _ _).trans (untouched_setWindow _ _))).system,
    by simp [setHeld], by simp [setHeld], by simp [setHeld], by simp [setHeld], fun a ha => ?_⟩
  simp only [setHeld, State.setWindow_mem, State.setNvEvents_mem, State.setMem_mem]
  exact memGet_memWrite8_outside _ _ ha

/-- A history that ends with a write and then a read of the cell is one of a memory only if the read returns what
the write wrote (rule R41). -/
theorem cellHistoryOk_write_read {a : Nat} {x v : Word} (l : List NvEvent) : ∀ {known : Option Word},
    cellHistoryOk a known (l ++ [.memWrite a x, .memRead a v]) = true → v = x := by
  induction l with
  | nil =>
    intro known h
    have hx : x = v := by simpa [cellHistoryOk] using h
    exact hx.symm
  | cons e rest ih =>
    intro known h
    cases e with
    | memRead b w =>
      simp only [List.cons_append, cellHistoryOk] at h
      split at h
      · exact ih (Bool.and_eq_true_iff.1 h).2
      · exact ih h
    | memWrite b w => exact ih h
    | agentWrite b w => exact ih h

/-! The conditions of an access where the system state is kept. -/

theorem runs_of_kept {s s₁ : State} (h : Runs s) (hk : SystemKept s s₁) (hpc : s₁.pc.toNat + 4 < 2 ^ 64) : Runs s₁ :=
  ⟨by rw [hk.cfg]; exact h.1, by rw [hk.cfg]; exact h.2.1, hpc⟩

theorem nvCheck_of_kept {s s₁ : State} (hk : SystemKept s s₁) : nvCheck s₁ = nvCheck s := by
  rw [nvCheck, nvCheck, nvAddr, nvAddr, hk.env, hk.regions, hk.text]

/-- `pc + 4` where that and more fits. -/
theorem toNat_pc_add_four {pc : Word} (h : pc.toNat + 4 < 2 ^ 64) : (pc + 4#64).toNat = pc.toNat + 4 := by
  rw [BitVec.toNat_add, BitVec.toNat_ofNat]
  omega

theorem systemKept_advance {s s₁ : State} (h : SystemKept s s₁) : SystemKept s (advance s₁) :=
  ⟨h.cfg, h.env, h.pstate, h.sctlr2, h.excEL1, h.excEL2, h.excEL3, h.regions, h.text, h.inputs⟩

/-- Settles O43: the write's shape, then the read's. -/
theorem nvMemReadReturnsWhatWasWritten : Obligations.NvMemReadReturnsWhatWasWritten := by
  intro t u s hr hpc hel h3 h2w h2r hnvx hn
  obtain ⟨w, hw⟩ := nvWrite_shape t s
  generalize hs₁ : advance (nvWrite t s) = s₁
  have hexec₁ : exec (.msrSctlr2maskEl1 t) s = .next s₁ := by
    rw [← hs₁]
    exact exec_msrEL1_of_admitted hr hel h3 h2w hnvx hn t
  have hkept : SystemKept s s₁ := hs₁ ▸ systemKept_advance (untouched_nvWrite s t).system
  have hpc₁ : s₁.pc.toNat + 4 < 2 ^ 64 := by
    rw [← hs₁, pc_advance_of_untouched s (untouched_nvWrite s t), toNat_pc_add_four (by omega)]
    omega
  have hmem : s₁.mem = memWrite8 s.cfg.nvBigEndian s.mem (nvAddr s) (readX s t) := by
    rw [← hs₁, hw]
    simp [advance]
  have hev : s₁.nvEvents = s.nvEvents ++ [.memWrite (nvAddr s) (readX s t)] := by
    rw [← hs₁, hw]
    simp [advance]
  have haddr : nvAddr s₁ = nvAddr s := by simp only [nvAddr, hkept.env]
  obtain ⟨w', hw'⟩ := nvRead_shape u s₁
  have hev₂ : (advance (writeX (nvRead u s₁).2 u (nvValue s₁))).nvEvents =
      s.nvEvents ++ [.memWrite (nvAddr s) (readX s t), .memRead (nvAddr s) (nvValue s₁)] := by
    rw [advance, State.setPc_nvEvents, nvEvents_writeX, hw', State.setWindow_nvEvents, State.setNvEvents_nvEvents, hev,
      haddr, List.append_assoc]
    rfl
  refine ⟨s₁, _, nvValue s₁, hexec₁, exec_mrsEL1_of_admitted (runs_of_kept hr hkept hpc₁) (by rw [hkept.pstate, hel])
    (by rw [El3Allows, hkept.cfg, hkept.env]; exact h3) (by rw [El2Allows, hkept.cfg, hkept.env]; exact h2r)
    (by rw [hkept.env, hnvx]) ((nvCheck_of_kept hkept).trans hn) u, cellHolds_of_memWrite8 hmem,
    readX_advance_writeX u _ _, hev₂, fun hmemory => ?_, fun known hok => ?_⟩
  · rw [nvValue, if_pos (show nvFromMemory s₁ = true from decide_eq_true hmemory), hmem, haddr, hkept.cfg, memRead8_memWrite8]
  · rw [hev₂] at hok
    exact cellHistoryOk_write_read _ hok

end Sys2Proof.Proofs.Memory
end

section
/-! PROOFS. The trap control fields have no part in what an instruction does where they are not read (rules R29, R30,
R31): every operation but the tests gives the same with other controls, and a test that does not read a control is the
same whatever it is. -/

namespace Sys2Proof.Proofs.Controls

open Sys2Proof Sys2Proof.Machine Sys2Proof.Claims Sys2Proof.Proofs.Causes Sys2Proof.Proofs.Events
  Sys2Proof.Proofs.Frames

/-- The run-time inputs agree, but for the trap control fields of rules R29 to R31. -/
structure SameOffControls (e' e : Env) : Prop where
  nvx : e'.nvx = e.nvx
  el2Enabled : e'.el2Enabled = e.el2Enabled
  hcrxEnabled : e'.hcrxEnabled = e.hcrxEnabled
  inHostEL2 : e'.inHostEL2 = e.inHostEL2
  e2hEffective : e'.e2hEffective = e.e2hEffective
  sddUndef : e'.sddUndef = e.sddUndef
  sddUndefPriority : e'.sddUndefPriority = e.sddUndefPriority
  nvBase : e'.nvBase = e.nvBase
  effMaskEL2 : e'.effMaskEL2 = e.effMaskEL2
  effMaskEL1 : e'.effMaskEL1 = e.effMaskEL1
  undefEL0ToEL2 : e'.undefEL0ToEL2 = e.undefEL0ToEL2

/-! The operations that read no run-time input. -/

section

variable (s : State) (e : Env)

theorem readX_setEnv (t : RegNum) : readX (s.setEnv e) t = readX s t := rfl

theorem openWindow_setEnv : openWindow (s.setEnv e) = openWindow s := rfl

theorem writeX_setEnv (t : RegNum) (v : Word) : writeX (s.setEnv e) t v = (writeX s t v).setEnv e := by
  unfold writeX
  split <;> rfl

theorem drawUpTo_setEnv (k : Nat) :
    drawUpTo k (s.setEnv e) = ((drawUpTo k s).1, (drawUpTo k s).2.setEnv e) := by
  unfold drawUpTo
  split <;> rfl

theorem drawFrom_setEnv (l : List Nat) :
    drawFrom l (s.setEnv e) = ((drawFrom l s).1, (drawFrom l s).2.setEnv e) := by
  rw [drawFrom, drawUpTo_setEnv]
  rfl

theorem putPlace_setEnv (p : Place) (v : Word) : putPlace p v (s.setEnv e) = (putPlace p v s).setEnv e := by
  cases p with
  | x t => exact writeX_setEnv s e t v
  | maskEL1 => rfl
  | cell a => rfl
  | event k => rfl

theorem refreshHeld_setEnv (before after : List (Nat × Word)) (l : List Held) : ∀ s : State,
    refreshHeld before after l (s.setEnv e) = (refreshHeld before after l s).setEnv e := by
  induction l with
  | nil => exact fun _ => rfl
  | cons h rest ih =>
    intro s
    simp only [refreshHeld]
    split
    · exact ih s
    · rw [putPlace_setEnv, ih]

theorem writeMaskAt_setEnv (back : Nat) (a : Access) :
    writeMaskAt back a (s.setEnv e) = (writeMaskAt back a s).setEnv e :=
  refreshHeld_setEnv e _ _ _ ((s.setWindow _).setMaskEL2 _)

theorem writeMaskUnordered_setEnv (a : Access) :
    writeMaskUnordered a (s.setEnv e) = (writeMaskUnordered a s).setEnv e := by
  simp only [writeMaskUnordered, openWindow_setEnv, State.setEnv_cfg, drawFrom_setEnv]
  exact writeMaskAt_setEnv _ e _ a

theorem openElsewhere_setEnv (k : AccessKind) : openElsewhere k (s.setEnv e) = (openElsewhere k s).setEnv e := by
  by_cases hnil : s.window.order = []
  · rw [openElsewhere, openElsewhere, if_pos hnil, if_pos (by exact hnil)]
  · rw [openElsewhere, openElsewhere, if_neg hnil, if_neg (by exact hnil)]
    rfl

theorem readMaskEL1_setEnv (t : RegNum) : (readMaskEL1 t (s.setEnv e)).2 = (readMaskEL1 t s).2.setEnv e := by
  rw [readMaskEL1, openElsewhere_setEnv]
  rfl

theorem writeMaskEL1_setEnv (t : RegNum) : writeMaskEL1 t (s.setEnv e) = (writeMaskEL1 t s).setEnv e := by
  rw [writeMaskEL1, openElsewhere_setEnv]
  rfl

theorem enterException_setEnv (h : HandlerEL) (esr : Word) :
    enterException h esr (s.setEnv e) = (enterException h esr s).setEnv e := by
  cases h <;> rfl

theorem advance_setEnv : advance (s.setEnv e) = (advance s).setEnv e := rfl

theorem readMaskEL1Into_setEnv (t : RegNum) :
    readMaskEL1Into t (s.setEnv e) = withEnv (fun _ => e) (readMaskEL1Into t s) := by
  have hfst : (readMaskEL1 t (s.setEnv e)).1 = (readMaskEL1 t s).1 := rfl
  simp only [readMaskEL1Into, finishRead, hfst, readMaskEL1_setEnv, writeX_setEnv, advance_setEnv, withEnv]

end

/-! The operations that read an input that is no control. -/

section

variable {s : State} {e : Env} (h : SameOffControls e s.env)

include h

theorem recorded_setEnv : recorded (s.setEnv e) = recorded s := by
  rw [recorded, recorded, unordered, unordered, State.setEnv_pstate, State.setEnv_env, State.setEnv_window,
    h.e2hEffective, h.inHostEL2]

theorem readMaskEL2_setEnv (n : RegName) (t : RegNum) :
    readMaskEL2 n t (s.setEnv e) = ((readMaskEL2 n t s).1, (readMaskEL2 n t s).2.setEnv e) := by
  simp only [readMaskEL2, recorded_setEnv h, State.setEnv_window, drawUpTo_setEnv]
  split <;> rfl

theorem lockTest_setEnv (n : RegName) :
    lockTest n (s.setEnv e) = ((lockTest n s).1, (lockTest n s).2.setEnv e) := by
  obtain ⟨d, hd⟩ := drawUpTo_shape s (freedom n s.window.order)
  simp only [lockTest, recorded_setEnv h, State.setEnv_window, drawUpTo_setEnv, testMaskAt, effMaskEL2, effectiveEL2,
    hd, State.setEnv_env, State.setDraws_env, h.effMaskEL2]
  split <;> rfl

theorem writeMaskEL2_setEnv (n : RegName) (t : RegNum) :
    writeMaskEL2 n t (s.setEnv e) = (writeMaskEL2 n t s).setEnv e := by
  have hnote (v : Word) : noteMaskWrite v (s.setEnv e) = (noteMaskWrite v s).setEnv e := rfl
  have hnext : nextAccess n (.write (sourceOf t (s.setEnv e))) (s.setEnv e) =
      nextAccess n (.write (sourceOf t s)) s := rfl
  rw [writeMaskEL2, writeMaskEL2, recorded_setEnv h, hnext, readX_setEnv, State.setEnv_cfg, hnote]
  split
  · exact writeMaskUnordered_setEnv _ e _
  · rfl

theorem effMaskEL1_setEnv : effMaskEL1 (s.setEnv e) = effMaskEL1 s := by
  simp only [effMaskEL1, State.setEnv_env, h.effMaskEL1]
  rfl

theorem lockTestEL1_setEnv :
    lockTestEL1 (s.setEnv e) = ((lockTestEL1 s).1, (lockTestEL1 s).2.setEnv e) := by
  simp only [lockTestEL1, effMaskEL1_setEnv h, openElsewhere_setEnv, State.setEnv_env, h.effMaskEL1]
  rfl

theorem nvAddr_setEnv : nvAddr (s.setEnv e) = nvAddr s := by
  simp only [nvAddr, State.setEnv_env, h.nvBase]

theorem nvValue_setEnv : nvValue (s.setEnv e) = nvValue s := by
  simp only [nvValue, nvAddr_setEnv h]
  rfl

theorem nvSource_setEnv : nvSource (s.setEnv e) = nvSource s := by
  simp only [nvSource, nvAddr_setEnv h, nvValue_setEnv h]
  rfl

theorem nvRead_setEnv (t : RegNum) : (nvRead t (s.setEnv e)).2 = (nvRead t s).2.setEnv e := by
  simp only [nvRead, nvAddr_setEnv h, nvValue_setEnv h, nvSource_setEnv h, openElsewhere_setEnv]
  rfl

theorem nvWrite_setEnv (t : RegNum) : nvWrite t (s.setEnv e) = (nvWrite t s).setEnv e := by
  simp only [nvWrite, nvAddr_setEnv h, readX_setEnv]
  exact congrArg (fun s₁ => setHeld _ ((State.setMem s₁ _).setNvEvents _)) (openElsewhere_setEnv s e _)

theorem nvCheck_setEnv : nvCheck (s.setEnv e) = nvCheck s := by
  have hbase : (s.setEnv e).env.nvBase = s.env.nvBase := h.nvBase
  rw [nvCheck, nvCheck, nvAddr_setEnv h, hbase]
  rfl

theorem el1NameLocation_setEnv : el1NameLocation (s.setEnv e) = el1NameLocation s := by
  simp only [el1NameLocation, State.setEnv_pstate, State.setEnv_env, h.nvx, h.inHostEL2]

theorem undefTarget_setEnv : undefTarget (s.setEnv e) = undefTarget s := by
  simp only [undefTarget, State.setEnv_pstate, State.setEnv_env, h.undefEL0ToEL2]

/-- An event raised with other controls. -/
theorem raise_setEnv (ev : Event) (a : Accessor) :
    raise ev a (s.setEnv e) = withEnv (fun _ => e) (raise ev a s) := by
  unfold raise
  simp only [State.setEnv_cfg, undefTarget_setEnv h]
  cases s.cfg.onEvent with
  | stop => cases ev <;> rfl
  | enter =>
    cases ev with
    | undefined why => exact congrArg Host.Outcome.next (enterException_setEnv (drawWord s).2 e _ _)
    | trap target why => exact congrArg Host.Outcome.next (enterException_setEnv s e _ _)

theorem readMaskInto_setEnv (n : RegName) (t : RegNum) :
    readMaskInto n t (s.setEnv e) = withEnv (fun _ => e) (readMaskInto n t s) := by
  simp only [readMaskInto, finishRead, readMaskEL2_setEnv h, writeX_setEnv, advance_setEnv, withEnv]

theorem sameOffControls_of_env {s₁ : State} (henv : s₁.env = s.env) : SameOffControls e s₁.env := henv ▸ h

theorem lockedWrite_setEnv (n : RegName) (t : RegNum) :
    lockedWrite n t (s.setEnv e) = withEnv (fun _ => e) (lockedWrite n t s) := by
  have htest := sameOffControls_of_env h (untouched_lockTest s n).system.env
  simp only [lockedWrite, lockTest_setEnv h, State.setEnv_pstate]
  split
  · split
    · exact raise_setEnv htest _ _
    · simp only [finishWrite, writeMaskEL2_setEnv htest, advance_setEnv, withEnv]
  · simp only [finishWrite, writeMaskEL2_setEnv h, advance_setEnv, withEnv]

theorem writeMaskEL1From_setEnv (t : RegNum) :
    writeMaskEL1From t (s.setEnv e) = withEnv (fun _ => e) (writeMaskEL1From t s) := by
  have htest := sameOffControls_of_env h (untouched_lockTestEL1 s).system.env
  simp only [writeMaskEL1From, lockTestEL1_setEnv h, State.setEnv_pstate]
  split
  · split
    · exact raise_setEnv htest _ _
    · simp only [finishWrite, writeMaskEL1_setEnv, advance_setEnv, withEnv]
  · simp only [finishWrite, writeMaskEL1_setEnv, advance_setEnv, withEnv]

theorem readNvInto_setEnv (t : RegNum) :
    readNvInto t (s.setEnv e) = withEnv (fun _ => e) (readNvInto t s) := by
  simp only [readNvInto, nvCheck_setEnv h, nvAddr_setEnv h]
  split
  · rfl
  · have hfst : (nvRead t (s.setEnv e)).1 = (nvRead t s).1 := nvValue_setEnv h
    simp only [finishRead, hfst, nvRead_setEnv h, writeX_setEnv, advance_setEnv, withEnv]

theorem writeNvFrom_setEnv (t : RegNum) :
    writeNvFrom t (s.setEnv e) = withEnv (fun _ => e) (writeNvFrom t s) := by
  simp only [writeNvFrom, nvCheck_setEnv h, nvAddr_setEnv h]
  split
  · rfl
  · simp only [finishWrite, nvWrite_setEnv h, advance_setEnv, withEnv]

/-- An access with other controls. -/
theorem access_setEnv (i : Instr) : access i (s.setEnv e) = withEnv (fun _ => e) (access i s) := by
  cases i with
  | mrsSctlr2maskEl2 t => exact readMaskInto_setEnv h _ t
  | msrSctlr2maskEl2 t => exact lockedWrite_setEnv h _ t
  | mrsSctlr2maskEl1 t =>
    have hl := el1NameLocation_setEnv h
    cases hloc : el1NameLocation s <;> rw [hloc] at hl <;> simp only [access, hl, hloc]
    · exact readNvInto_setEnv h t
    · exact readMaskEL1Into_setEnv s e t
    · exact readMaskInto_setEnv h _ t
  | msrSctlr2maskEl1 t =>
    have hl := el1NameLocation_setEnv h
    cases hloc : el1NameLocation s <;> rw [hloc] at hl <;> simp only [access, hl, hloc]
    · exact writeNvFrom_setEnv h t
    · exact writeMaskEL1From_setEnv h t
    · exact lockedWrite_setEnv h _ t

theorem stateAtCause_setEnv (ev : Event) : stateAtCause ev (s.setEnv e) = (stateAtCause ev s).setEnv e := by
  unfold stateAtCause
  split
  · rw [lockTestEL1_setEnv h]
  · rfl

/-- An instruction whose causes are the same with other controls does the same. -/
theorem exec_setEnv {i : Instr} (hcause : firstCause i (s.setEnv e) = firstCause i s) :
    exec i (s.setEnv e) = withEnv (fun _ => e) (exec i s) := by
  by_cases hpc : pcFits s = true
  · have hpc' : pcFits (s.setEnv e) = true := hpc
    cases hc : firstCause i s with
    | some ev =>
      obtain ⟨w, hw⟩ := stateAtCause_shape ev s
      have hsame : SameOffControls e (stateAtCause ev s).env := sameOffControls_of_env h (by rw [hw]; rfl)
      rw [exec_of_firstCause hpc hc, exec_of_firstCause hpc' (hcause.trans hc), stateAtCause_setEnv h,
        raise_setEnv hsame]
    | none => rw [exec_of_no_cause hpc hc, exec_of_no_cause hpc' (hcause.trans hc), access_setEnv h]
  · rw [Steps.exec_of_not_pcFits hpc, Steps.exec_of_not_pcFits (s := s.setEnv e) hpc]
    rfl

end

/-! The tests. -/

/-- The bit nSCTLR2MASK_EL1 that governs an instruction by the EL1 name (rule R31). -/
def controlOf (i : Instr) (e : Env) : Bit :=
  if isMsr i then e.hfgwtr2_nSCTLR2MASK_EL1 else e.hfgrtr2_nSCTLR2MASK_EL1

/-- The three tests that read a control give the same. -/
structure SameTests (i : Instr) (s : State) (e : Env) : Prop where
  el3 : el3Disables (s.setEnv e) = el3Disables s
  fgt2 : fgt2Traps (controlOf i e) (s.setEnv e) = fgt2Traps (controlOf i s.env) s
  hcrx : hcrxTraps (s.setEnv e) = hcrxTraps s

section

variable {i : Instr} {s : State} {e : Env} (h : SameOffControls e s.env) (ht : SameTests i s e)

include h ht

theorem checkAtEL2_setEnv : checkAtEL2 (s.setEnv e) = checkAtEL2 s := by
  rw [checkAtEL2, checkAtEL2, sddPriorityHolds, sddPriorityHolds, el3Event, el3Event, ht.el3, State.setEnv_env,
    h.sddUndef, h.sddUndefPriority]

theorem checkEL2Name_setEnv : checkEL2Name (s.setEnv e) = checkEL2Name s := by
  simp only [checkEL2Name, checkAtEL2_setEnv h ht, State.setEnv_env, State.setEnv_pstate, h.nvx]
  rfl

theorem checkEL1Name_setEnv :
    checkEL1Name (controlOf i e) (s.setEnv e) = checkEL1Name (controlOf i s.env) s := by
  simp only [checkEL1Name, checkAtEL1, checkAtEL2_setEnv h ht, sddPriorityHolds, el3Event, ht.el3, ht.fgt2, ht.hcrx,
    State.setEnv_env, State.setEnv_pstate, h.sddUndef, h.sddUndefPriority]
  rfl

theorem firstCause_setEnv : firstCause i (s.setEnv e) = firstCause i s := by
  cases i with
  | mrsSctlr2maskEl2 t => rw [firstCause_mrsEL2, firstCause_mrsEL2, checkEL2Name_setEnv h ht]
  | msrSctlr2maskEl2 t => rw [firstCause_msrEL2, firstCause_msrEL2, checkEL2Name_setEnv h ht]
  | mrsSctlr2maskEl1 t =>
    have hcheck := checkEL1Name_setEnv h ht
    simp only [controlOf, isMsr, Bool.false_eq_true, if_false] at hcheck
    rw [firstCause_mrsEL1, firstCause_mrsEL1, State.setEnv_env, hcheck]
  | msrSctlr2maskEl1 t =>
    have hlock : lockedEL1 (s.setEnv e) = lockedEL1 s := by
      simp only [lockedEL1, effMaskEL1_setEnv h, State.setEnv_pstate, State.setEnv_env, h.nvx]
    have hcheck := checkEL1Name_setEnv h ht
    simp only [controlOf, isMsr, if_true] at hcheck
    rw [firstCause_msrEL1, firstCause_msrEL1, hlock, State.setEnv_env, hcheck]

end

/-- The controls that `f` changes have no part in an instruction whose tests they do not change. -/
theorem unread_of_sameTests {f : Env → Env} {i : Instr} {s : State} (h : SameOffControls (f s.env) s.env)
    (ht : SameTests i s (f s.env)) : Unread f i s := by
  rw [Unread, exec_setEnv h (firstCause_setEnv h ht)]
  cases hexec : exec i s with
  | next s' => simp only [withEnv, (exec_instrKept hexec).env]
  | fault x => rfl
  | refused r => rfl

/-- Settles O20: in each clause the tests give the same whatever the fields are. -/
theorem controlsAreReadOnlyWhereTheyCount : Obligations.ControlsAreReadOnlyWhereTheyCount := by
  intro i s b b'
  refine ⟨fun h3 => ?_, fun hoff => ?_, fun hoff => ?_, fun hmrs => ?_, fun hmsr => ?_,
    fun s' h => (exec_instrKept h).env⟩
  · refine unread_of_sameTests ⟨rfl, rfl, rfl, rfl, rfl, rfl, rfl, rfl, rfl, rfl, rfl⟩ ⟨?_, ?_, rfl⟩
    · simp [el3Disables, h3]
    · simp only [fgt2Traps, State.setEnv_cfg, h3, Bool.false_and]
      rfl
  · refine unread_of_sameTests ⟨rfl, rfl, rfl, rfl, rfl, rfl, rfl, rfl, rfl, rfl, rfl⟩ ⟨rfl, rfl, ?_⟩
    rcases hoff with hoff | hoff <;> simp [hcrxTraps, hoff]
  · refine unread_of_sameTests ⟨rfl, rfl, rfl, rfl, rfl, rfl, rfl, rfl, rfl, rfl, rfl⟩ ⟨rfl, ?_, rfl⟩
    rcases hoff with hoff | hoff <;> simp [fgt2Traps, hoff]
  · refine unread_of_sameTests ⟨rfl, rfl, rfl, rfl, rfl, rfl, rfl, rfl, rfl, rfl, rfl⟩ ⟨rfl, ?_, rfl⟩
    simp only [controlOf, hmrs]
    rfl
  · refine unread_of_sameTests ⟨rfl, rfl, rfl, rfl, rfl, rfl, rfl, rfl, rfl, rfl, rfl⟩ ⟨rfl, ?_, rfl⟩
    simp only [controlOf, hmsr]
    rfl

end Sys2Proof.Proofs.Controls
end

section
/-! PROOFS. An MSR of SCTLR2MASK_EL2 whatever order of earlier accesses is open (20_memory.md rule R46): what the register
ends with, and which places that hold results of open accesses it changes. -/

namespace Sys2Proof.Proofs.OpenOrder

open Sys2Proof Sys2Proof.Machine Sys2Proof.Claims Sys2Proof.Proofs.Causes Sys2Proof.Proofs.Events
  Sys2Proof.Proofs.Frames Sys2Proof.Proofs.Invariant Sys2Proof.Proofs.Completion

/-! Where the write is put. -/

/-- The write of an MSR of `X[t]` by the name `n`. -/
def writeOf (n : RegName) (t : RegNum) (s : State) : Access := nextAccess n (.write (sourceOf t s)) s

/-- The write of an MSR passes over no access by its name, and none whose result it needs. -/
structure Placed (back : Nat) (n : RegName) (t : RegNum) (s : State) : Prop where
  free : back ≤ freedom n s.window.order
  ready : back = 0 ∨ sourceReady (s.window.order.take (s.window.order.length - back)) (writeOf n t s) = true

theorem sourceReady_of_mem_placesFor {c : Config} {w : Window} {a : Access} {back : Nat} (h : back ∈ placesFor c w a) :
    sourceReady (w.order.take (w.order.length - back)) a = true := by
  simp only [placesFor, List.mem_filter, mayPutAt, Bool.and_eq_true] at h
  exact h.2.1

/-- So is it put by the draw. -/
theorem placed_drawFrom (n : RegName) (t : RegNum) (s s₁ : State) :
    Placed (drawFrom (placesFor s.cfg (openWindow s) (writeOf n t s)) s₁).1 n t s := by
  by_cases hnil : placesFor s.cfg (openWindow s) (writeOf n t s) = []
  · have hzero : (drawFrom (placesFor s.cfg (openWindow s) (writeOf n t s)) s₁).1 = 0 := by simp [drawFrom, hnil]
    rw [hzero]
    exact ⟨Nat.zero_le _, .inl rfl⟩
  · have hmem := drawFrom_mem s₁ hnil
    have hfree := le_freedom_of_mem_placesFor hmem
    rw [openWindow_order] at hfree
    have hready := sourceReady_of_mem_placesFor hmem
    rw [openWindow_order] at hready
    exact ⟨hfree, .inr hready⟩

theorem writeMaskEL2_of_recorded {s : State} (hrec : recorded s = true) (n : RegName) (t : RegNum) :
    ∃ back d, Placed back n t s ∧ writeMaskEL2 n t s = writeMaskAt back (writeOf n t s)
      ((noteMaskWrite (storedFrom s t) s).setDraws d) := by
  obtain ⟨d, hd⟩ := drawFrom_shape (noteMaskWrite (storedFrom s t) s)
    (placesFor s.cfg (openWindow s) (writeOf n t s))
  refine ⟨_, d, placed_drawFrom n t s (noteMaskWrite (storedFrom s t) s), ?_⟩
  rw [← hd, writeMaskEL2, if_pos hrec]
  rfl

/-- A result that the write changes is that of an access it is put before. -/
theorem passed_of_changed {s : State} {n : RegName} {t : RegNum} {back id : Nat}
    (hne : seenAt (replay s.cfg (openWindow s).base
        (insertAccess back (writeOf n t s) (openWindow s)).order).seen id ≠
      seenAt (replay s.cfg (openWindow s).base s.window.order).seen id) :
    ∃ a ∈ s.window.order.drop (s.window.order.length - back), a.id = id := by
  by_contra hnone
  have hids : ∀ a ∈ s.window.order.drop (s.window.order.length - back), a.id ≠ id :=
    fun a ha e => hnone ⟨a, ha, e⟩
  refine hne ?_
  conv_rhs => rw [← List.take_append_drop (s.window.order.length - back) s.window.order, replay_append]
  rw [insertAccess, openWindow_order, replay_append, List.foldl_cons, seenAt_foldl _ hids, seenAt_foldl _ hids]
  rfl

section

variable {s : State} (h : WindowInv s) {n : RegName} {t : RegNum} {back : Nat} (hp : Placed back n t s)

include h hp

/-- The result the write needs is none of those it is put before. -/
theorem source_not_passed {id : Nat} (hsource : sourceOf t s = .ofRead id) :
    ∀ a ∈ s.window.order.drop (s.window.order.length - back), a.id ≠ id := by
  intro a ha e
  rcases hp.ready with rfl | hready
  · simp at ha
  · simp only [sourceReady, writeOf, nextAccess, Access.needs, hsource, Option.all_some, List.any_eq_true,
      decide_eq_true_eq] at hready
    obtain ⟨b, hb, hbid⟩ := hready
    have hnodup := h.numbers
    rw [← List.take_append_drop (s.window.order.length - back) s.window.order, List.map_append,
      List.nodup_append] at hnodup
    exact hnodup.2.2 _ (List.mem_map_of_mem hb) _ (List.mem_map_of_mem ha) (hbid.trans e.symm)

/-- The write stores the operand wherever it is put. -/
theorem sourceValue_at_place : sourceValue (replay s.cfg (openWindow s).base
    (s.window.order.take (s.window.order.length - back))) (sourceOf t s) = readX s t := by
  have hfull : sourceValue (replay s.cfg (openWindow s).base s.window.order) (sourceOf t s) = readX s t := by
    by_cases hnil : s.window.order = []
    · have hword : sourceOf t s = .word (readX s t) := by
        simp [sourceOf, sourceAt, readHeldAt, held_of_order_nil h hnil, heldAt]
      rw [hword]
      rfl
    · rw [openWindow, if_neg hnil]
      exact (sourceOf_spec h t).2
  cases hsource : sourceOf t s with
  | word v => rwa [hsource] at hfull
  | ofRead id =>
    rw [hsource] at hfull
    rw [← hfull]
    conv_rhs => rw [← List.take_append_drop (s.window.order.length - back) s.window.order, replay_append]
    exact (seenAt_foldl _ (source_not_passed h hp hsource)).symm

/-- What the accesses give with the write among them is what they gave, or what it stores. -/
theorem oneOf_at_place : OneOf (storedFrom s t) (replay s.cfg (openWindow s).base s.window.order)
    (replay s.cfg (openWindow s).base (insertAccess back (writeOf n t s) (openWindow s)).order) := by
  have hone := replay_insert_write (c := s.cfg) (id := s.window.order.length) (n := n) (src := sourceOf t s)
    (v := storedFrom s t) back (openWindow s) (by
      rw [openWindow_order, sourceValue_at_place h hp]
      rfl)
  rwa [openWindow_order] at hone

/-- The register ends with what the MSR stores, or keeps what it had. -/
theorem mask_writeMaskAt : (writeMaskAt back (writeOf n t s) s).sctlr2maskEL2 = storedFrom s t ∨
    (writeMaskAt back (writeOf n t s) s).sctlr2maskEL2 = s.sctlr2maskEL2 := by
  obtain ⟨x, m1, mem, ev, hx⟩ := refreshHeld_shape
    (replay s.cfg (openWindow s).base (openWindow s).order).seen
    (replay s.cfg (openWindow s).base (insertAccess back (writeOf n t s) (openWindow s)).order).seen
    (openWindow s).held ((s.setWindow (insertAccess back (writeOf n t s) (openWindow s))).setMaskEL2
      (replay s.cfg (openWindow s).base (insertAccess back (writeOf n t s) (openWindow s)).order).mask)
  have hmask : (writeMaskAt back (writeOf n t s) s).sctlr2maskEL2 =
      (replay s.cfg (openWindow s).base (insertAccess back (writeOf n t s) (openWindow s)).order).mask := by
    rw [writeMaskAt, hx]
    rfl
  have hone := (oneOf_at_place h hp).1
  rw [openWindow_agrees h.agrees] at hone
  rw [hmask]
  exact hone.symm

end

/-! The frame. -/

/-- A part of the state that no place with a changed result is part of is kept. -/
theorem refreshHeld_keeps {α : Type} {f : State → α} {before after : List (Nat × Word)} (l : List Held) :
    ∀ s : State, (∀ h ∈ l, seenAt after h.id ≠ seenAt before h.id → ∀ s₁ v, f (putPlace h.place v s₁) = f s₁) →
      f (refreshHeld before after l s) = f s := by
  induction l with
  | nil => exact fun _ _ => rfl
  | cons h rest ih =>
    intro s hkeep
    simp only [refreshHeld]
    rw [ih _ fun b hb => hkeep b (by simp [hb])]
    split
    · rfl
    · next hne => exact hkeep h (by simp) hne s _

/-- What an MSR of SCTLR2MASK_EL2 may change beside it, of registers and memory: places that hold the result of an open
access by the other name get what it stores. -/
structure WriteFrame (n : RegName) (t : RegNum) (s s' : State) : Prop where
  x : ∀ u, readX s' u = readX s u ∨ (OpenAt n s (.x u) ∧ u ≠ t ∧ readX s' u = storedFrom s t)
  maskEL1 : s'.sctlr2maskEL1 = s.sctlr2maskEL1 ∨ (OpenAt n s .maskEL1 ∧ s'.sctlr2maskEL1 = storedFrom s t)
  mem : ∀ a, memGet s'.mem a = memGet s.mem a ∨ ∃ b, OpenAt n s (.cell b) ∧ b ≤ a ∧ a < b + 8 ∧
    ∀ free, memRead8 s.cfg.nvBigEndian s'.mem b free = storedFrom s t
  events : ∀ k, s'.nvEvents[k]? = s.nvEvents[k]? ∨ (OpenAt n s (.event k) ∧
    s'.nvEvents[k]? = (s.nvEvents[k]?).map (NvEvent.withValue (storedFrom s t)))

/-- The frame is held against the registers and memory, and against which places are open. -/
theorem WriteFrame.congr {n : RegName} {t : RegNum} {s s' s₁ s₁' : State} (h : WriteFrame n t s₁ s₁')
    (hcfg : s₁.cfg = s.cfg) (hx : s₁.x = s.x) (hm1 : s₁.sctlr2maskEL1 = s.sctlr2maskEL1) (hmem : s₁.mem = s.mem)
    (hev : s₁.nvEvents = s.nvEvents) (hopen : ∀ p, OpenAt n s₁ p → OpenAt n s p) (hx' : s'.x = s₁'.x)
    (hm1' : s'.sctlr2maskEL1 = s₁'.sctlr2maskEL1) (hmem' : s'.mem = s₁'.mem) (hev' : s'.nvEvents = s₁'.nvEvents) :
    WriteFrame n t s s' := by
  have hstored : storedFrom s₁ t = storedFrom s t := by rw [storedFrom, storedFrom, readX_congr hx, hcfg]
  refine ⟨fun u => ?_, ?_, fun a => ?_, fun k => ?_⟩
  · rw [readX_congr hx', ← readX_congr hx, ← hstored]
    exact (h.x u).imp id fun k => ⟨hopen _ k.1, k.2⟩
  · rw [hm1', ← hm1, ← hstored]
    exact h.maskEL1.imp id fun k => ⟨hopen _ k.1, k.2⟩
  · rw [hmem', ← hmem, ← hstored, ← hcfg]
    exact (h.mem a).imp id fun ⟨b, hb, k⟩ => ⟨b, hopen _ hb, k⟩
  · rw [hev', ← hev, ← hstored]
    exact (h.events k).imp id fun k => ⟨hopen _ k.1, k.2⟩

theorem withValue_withValue (v w : Word) (e : NvEvent) : (e.withValue w).withValue v = e.withValue v := by
  cases e <;> rfl

theorem withValue_value {v : Word} {e : NvEvent} (h : e.value = v) : e.withValue v = e := by
  subst h
  cases e <;> rfl

/-- A recorded event is the same but for its value, whatever is put in a place. -/
theorem event_putPlace (k : Nat) (v w : Word) (p : Place) (s : State) :
    ((putPlace p w s).nvEvents[k]?).map (NvEvent.withValue v) = (s.nvEvents[k]?).map (NvEvent.withValue v) := by
  cases p with
  | x t => rw [putPlace, nvEvents_writeX]
  | maskEL1 => rfl
  | cell a => rfl
  | event j =>
    simp only [putPlace, State.setNvEvents_nvEvents]
    by_cases hj : j = k
    · subst hj
      rw [List.getElem?_modify_eq]
      cases s.nvEvents[j]? with
      | none => rfl
      | some e => exact congrArg some (withValue_withValue v w e)
    · rw [List.getElem?_modify_ne _ _ hj]

theorem maskEL1_putPlace {p : Place} (h : p ≠ .maskEL1) (v : Word) (s : State) :
    (putPlace p v s).sctlr2maskEL1 = s.sctlr2maskEL1 := by
  cases p with
  | x t =>
    obtain ⟨x, hx⟩ := writeX_shape s t v
    rw [putPlace, hx, State.setX_sctlr2maskEL1]
  | maskEL1 => exact absurd rfl h
  | cell a => rfl
  | event k => rfl

theorem memGet_putPlace {p : Place} {a : Nat} (h : ∀ b, p = .cell b → a < b ∨ b + 8 ≤ a) (v : Word) (s : State) :
    memGet (putPlace p v s).mem a = memGet s.mem a := by
  cases p with
  | x t =>
    obtain ⟨x, hx⟩ := writeX_shape s t v
    rw [putPlace, hx, State.setX_mem]
  | maskEL1 => rfl
  | cell b => exact memGet_memWrite8_outside _ _ (h b rfl)
  | event k => rfl

theorem getElem?_nvEvents_putPlace {p : Place} {k : Nat} (h : p ≠ .event k) (v : Word) (s : State) :
    (putPlace p v s).nvEvents[k]? = s.nvEvents[k]? := by
  cases p with
  | x t => rw [putPlace, nvEvents_writeX]
  | maskEL1 => rfl
  | cell a => rfl
  | event j =>
    rw [putPlace, State.setNvEvents_nvEvents, List.getElem?_modify_ne _ _ fun e => h (by rw [e])]

/-- The open access a place holds the result of is the one the operand is read from. -/
theorem sourceOf_of_held {s : State} (h : WindowInv s) {t : RegNum} {id : Nat} (hheld : ⟨.x t, id⟩ ∈ s.window.held) :
    sourceOf t s = .ofRead id := by
  have hat : heldAt (.x t) s.window.held = some id := by
    have hnodup := h.places
    revert hheld hnodup
    generalize s.window.held = l
    intro hheld hnodup
    induction l with
    | nil => cases hheld
    | cons a rest ih =>
      simp only [List.map_cons, List.nodup_cons, List.mem_map, not_exists, not_and] at hnodup
      rcases List.mem_cons.1 hheld with rfl | hrest
      · exact if_pos rfl
      · rw [heldAt, if_neg fun e => hnodup.1 _ hrest e.symm]
        exact ih hrest hnodup.2
  simp only [sourceOf, sourceAt, readHeldAt, hat]

/-- The write of an MSR among the open accesses meets the frame. -/
theorem writeFrame_writeMaskAt {s : State} (h : WindowInv s) {n : RegName} {t : RegNum} {back : Nat}
    (hp : Placed back n t s) : WriteFrame n t s (writeMaskAt back (writeOf n t s) s) := by
  generalize hs' : writeMaskAt back (writeOf n t s) s = s'
  rw [writeMaskAt, openWindow_order, openWindow_held h] at hs'
  generalize hbefore : (replay s.cfg (openWindow s).base s.window.order).seen = before at hs'
  generalize hafter : (replay s.cfg (openWindow s).base
    (insertAccess back (writeOf n t s) (openWindow s)).order).seen = after at hs'
  have hplaces : ∀ a ∈ s.window.held, PlaceHolds a.place (seenAt before a.id) s := by
    rw [← hbefore]
    exact fun a ha => openWindow_results h ha
  have hchanged : ∀ a ∈ s.window.held, seenAt after a.id ≠ seenAt before a.id →
      PlaceHolds a.place (storedFrom s t) s' ∧ OpenAt n s a.place ∧ a.place ≠ .x t := by
    intro a ha hne
    have hv : seenAt after a.id = storedFrom s t := by
      have hone := (oneOf_at_place h hp).2 a.id
      rw [hbefore, hafter] at hone
      exact hone.resolve_left hne
    rw [← hbefore, ← hafter] at hne
    obtain ⟨b, hb, hbid⟩ := passed_of_changed hne
    refine ⟨?_, ⟨b, List.mem_of_mem_drop hb, name_ne_of_mem_drop hp.free hb, by rw [hbid]; exact ha⟩, fun e => ?_⟩
    · rw [← hv, ← hs']
      exact placeHolds_refreshHeld _ _ h.places (fun c hc => hplaces c hc) ha
    · have hsource : sourceOf t s = .ofRead a.id := sourceOf_of_held h (by rw [← e]; exact ha)
      exact source_not_passed h hp hsource b hb hbid
  refine ⟨fun u => ?_, ?_, fun a => ?_, fun k => ?_⟩
  · by_cases hex : ∃ a ∈ s.window.held, seenAt after a.id ≠ seenAt before a.id ∧ a.place = .x u
    · obtain ⟨a, ha, hne, hpl⟩ := hex
      obtain ⟨hholds, hopen, hnt⟩ := hchanged a ha hne
      rw [hpl] at hholds hopen hnt
      exact .inr ⟨hopen, fun e => hnt (by rw [e]), hholds.2⟩
    · refine .inl ?_
      rw [← hs', refreshHeld_keeps (f := fun s₁ => readX s₁ u) _ _ fun a ha hne s₁ v =>
        readX_putPlace fun e => hex ⟨a, ha, hne, e⟩]
      rfl
  · by_cases hex : ∃ a ∈ s.window.held, seenAt after a.id ≠ seenAt before a.id ∧ a.place = .maskEL1
    · obtain ⟨a, ha, hne, hpl⟩ := hex
      obtain ⟨hholds, hopen, -⟩ := hchanged a ha hne
      rw [hpl] at hholds hopen
      exact .inr ⟨hopen, hholds⟩
    · refine .inl ?_
      rw [← hs', refreshHeld_keeps (f := State.sctlr2maskEL1) _ _ fun a ha hne s₁ v =>
        maskEL1_putPlace (fun e => hex ⟨a, ha, hne, e⟩) v s₁]
      rfl
  · by_cases hex : ∃ c ∈ s.window.held, seenAt after c.id ≠ seenAt before c.id ∧
        ∃ b, c.place = .cell b ∧ b ≤ a ∧ a < b + 8
    · obtain ⟨c, hc, hne, b, hpl, hlow, hhigh⟩ := hex
      obtain ⟨hholds, hopen, -⟩ := hchanged c hc hne
      rw [hpl] at hholds hopen
      refine .inr ⟨b, hopen, hlow, hhigh, ?_⟩
      have hcfg : s'.cfg = s.cfg := by
        obtain ⟨x, m1, mem, ev, hx⟩ := refreshHeld_shape before after s.window.held
          ((s.setWindow (insertAccess back (writeOf n t s) (openWindow s))).setMaskEL2
            (replay s.cfg (openWindow s).base (insertAccess back (writeOf n t s) (openWindow s)).order).mask)
        rw [← hs', hx]
        rfl
      rw [← hcfg]
      exact hholds.2.2
    · refine .inl ?_
      rw [← hs', refreshHeld_keeps (f := fun s₁ => memGet s₁.mem a) _ _ fun c hc hne s₁ v =>
        memGet_putPlace (fun b hb => ?_) v s₁]
      · rfl
      · by_contra hin
        exact hex ⟨c, hc, hne, b, hb, by omega, by omega⟩
  · by_cases hex : ∃ a ∈ s.window.held, seenAt after a.id ≠ seenAt before a.id ∧ a.place = .event k
    · obtain ⟨a, ha, hne, hpl⟩ := hex
      obtain ⟨hholds, hopen, -⟩ := hchanged a ha hne
      rw [hpl] at hholds hopen
      refine .inr ⟨hopen, ?_⟩
      have hsame : (s'.nvEvents[k]?).map (NvEvent.withValue (storedFrom s t)) =
          (s.nvEvents[k]?).map (NvEvent.withValue (storedFrom s t)) := by
        rw [← hs', refreshHeld_keeps (f := fun s₁ => (s₁.nvEvents[k]?).map (NvEvent.withValue (storedFrom s t))) _ _
          fun a _ _ s₁ v => event_putPlace k _ v a.place s₁]
        rfl
      rw [← hsame]
      cases he : s'.nvEvents[k]? with
      | none => rfl
      | some e =>
        have hvalue : e.value = storedFrom s t := by simpa [PlaceHolds, he] using hholds
        rw [Option.map_some, withValue_value hvalue]
    · refine .inl ?_
      rw [← hs', refreshHeld_keeps (f := fun s₁ => s₁.nvEvents[k]?) _ _ fun a ha hne s₁ v =>
        getElem?_nvEvents_putPlace (fun e => hex ⟨a, ha, hne, e⟩) v s₁]
      rfl

/-- The write of an MSR, one of the open accesses or not: the frame, and what the register ends with. -/
theorem writeMaskEL2_under_inv {s : State} (h : s.Inv) (n : RegName) (t : RegNum) :
    WriteFrame n t s (writeMaskEL2 n t s) ∧
      ((writeMaskEL2 n t s).sctlr2maskEL2 = storedFrom s t ∨
        (writeMaskEL2 n t s).sctlr2maskEL2 = s.sctlr2maskEL2) := by
  by_cases hrec : recorded s = true
  · obtain ⟨back, d, hp, hw⟩ := writeMaskEL2_of_recorded hrec n t
    have hwindow : WindowInv ((noteMaskWrite (storedFrom s t) s).setDraws d) :=
      (inv_setDraws (inv_noteMaskWrite h (readX s t)) d).window
    have hp' : Placed back n t ((noteMaskWrite (storedFrom s t) s).setDraws d) := ⟨hp.free, hp.ready⟩
    rw [hw]
    exact ⟨(writeFrame_writeMaskAt hwindow hp').congr rfl rfl rfl rfl rfl (fun _ => id) rfl rfl rfl rfl,
      mask_writeMaskAt hwindow hp'⟩
  · rw [writeMaskEL2, if_neg hrec]
    exact ⟨⟨fun _ => .inl rfl, .inl rfl, fun _ => .inl rfl, fun _ => .inl rfl⟩, .inl rfl⟩

/-- A lock test opens no place: it is by the name of the MSR. -/
theorem openAt_of_lockTest {n : RegName} {s : State} (h : WindowInv s) {p : Place}
    (hopen : OpenAt n (lockTest n s).2 p) : OpenAt n s p := by
  rw [lockTest_snd] at hopen
  obtain ⟨a, ha, hne, hheld⟩ := hopen
  simp only [State.setWindow_window] at ha hheld
  split at ha
  · next hrec =>
    rw [if_pos hrec] at hheld
    rw [(insertAccess_perm _ _ _).mem_iff, openWindow_order] at ha
    rw [insertAccess_held, openWindow_held h] at hheld
    rcases List.mem_cons.1 ha with rfl | ha
    · exact absurd rfl hne
    · exact ⟨a, ha, hne, hheld⟩
  · next hrec =>
    rw [if_neg hrec] at hheld
    exact ⟨a, ha, hne, hheld⟩

theorem storedFrom_lockTest (n : RegName) (t : RegNum) (s : State) :
    storedFrom (lockTest n s).2 t = storedFrom s t := by
  obtain ⟨w, d, hw⟩ := lockTest_shape s n
  rw [hw]
  rfl

/-- The write of an MSR after its lock test. -/
theorem writeMaskEL2_after_lockTest {s : State} (h : s.Inv) (n : RegName) (t : RegNum) :
    WriteFrame n t s (advance (writeMaskEL2 n t (lockTest n s).2)) ∧
      ((writeMaskEL2 n t (lockTest n s).2).sctlr2maskEL2 = storedFrom s t ∨
        (writeMaskEL2 n t (lockTest n s).2).sctlr2maskEL2 = s.sctlr2maskEL2) := by
  obtain ⟨hframe, hmask⟩ := writeMaskEL2_under_inv (inv_lockTest h n) n t
  have hopen (p : Place) := openAt_of_lockTest (n := n) h.window (p := p)
  have hstored := storedFrom_lockTest n t s
  rw [hstored] at hmask
  obtain ⟨w, d, hw⟩ := lockTest_shape s n
  have hkept : (lockTest n s).2.sctlr2maskEL2 = s.sctlr2maskEL2 := by rw [hw]; rfl
  rw [hkept] at hmask
  exact ⟨hframe.congr (by rw [hw]; rfl) (by rw [hw]; rfl) (by rw [hw]; rfl) (by rw [hw]; rfl) (by rw [hw]; rfl) hopen
    rfl rfl rfl rfl, hmask⟩

/-- Settles O51: the lock test meets what `maskSeenBy` says, and the write stores or is passed over. -/
theorem msrUnderAnOpenOrder : Obligations.MsrUnderAnOpenOrder := by
  intro t n s hr hinv
  refine ⟨fun hel h3 hhost => ?_, fun hel => ?_⟩
  · have hreach : Reaches n s := ⟨hr, .inr ⟨hel, h3, hhost⟩⟩
    split
    · next hunlocked =>
      exact ⟨_, exec_msrBy_of_unlocked hreach hel hunlocked t,
        pc_advance_of_untouched s ((untouched_lockTest s n).trans (untouched_writeMaskEL2 _ t n)),
        (writeMaskEL2_after_lockTest hinv n t).2⟩
    · next hlocked =>
      have haccessor : accessorOf (msrBy n t) = ⟨.write, n, t⟩ := by cases n <;> rfl
      have hrefused : RefusedByEL2Lock (msrBy n t) s := by
        refine ⟨firstCause_msrBy_of_reaches hreach t, ?_, by rw [haccessor]; exact hlocked⟩
        cases n with
        | sctlr2maskEL2 => simp [msrBy, writesMaskAtEL2, hel]
        | sctlr2maskEL1 => simp [msrBy, writesMaskAtEL2, hel, hhost rfl]
      refine ⟨hrefused, fun hstop => ?_⟩
      rw [exec_eq_fault_of_refusedByEL2Lock hstop (pcFits_of_runs hr) hrefused, faultOf, haccessor]
  · exact ⟨_, exec_msrBy_at_el3 hr hel t, pc_advance_of_untouched s (untouched_writeMaskEL2 s t _),
      (writeMaskEL2_under_inv hinv _ t).2⟩

/-- Every other next state of an accessor is the entry of its event. -/
theorem architectureKept_of_taken {s : State} (l : HandlerEL) (esr : Word) (w : Window) (d : Nat) :
    ArchitectureKept s (enterException l esr ((s.setWindow w).setDraws d)) := by
  obtain ⟨h1, h2, h3, h4, h5, h6, h7, h8, h9, h10, h11, h12⟩ :=
    enterException_architectureKept l esr ((s.setWindow w).setDraws d)
  exact ⟨h1, h2, h3, h4, h5, h6, h7, h8, h9, h10, h11, h12⟩

theorem raise_architectureKept {s s₁ s' : State} {ev : Event} {a : Accessor} {w : Window} {d : Nat}
    (hs₁ : s₁ = (s.setDraws d).setWindow w) (h : raise ev a s₁ = .next s') :
    s.cfg.onEvent = .enter ∧ ArchitectureKept s s' := by
  obtain ⟨henter, l, esr, d', rfl⟩ := raise_next h
  subst hs₁
  exact ⟨henter, architectureKept_of_taken l esr w d'⟩

/-- An MSR of SCTLR2MASK_EL2 that answers a next state wrote it, after its lock test at EL2, or its event was taken. -/
theorem lockedWrite_next {n : RegName} {t : RegNum} {s s' : State} (hinv : s.Inv) (h : lockedWrite n t s = .next s') :
    (SystemKept s s' ∧ WriteFrame n t s s') ∨ (s.cfg.onEvent = .enter ∧ ArchitectureKept s s') := by
  unfold lockedWrite at h
  split at h
  · split at h
    · obtain ⟨w, d, hw⟩ := lockTest_shape s n
      exact .inr (raise_architectureKept hw h)
    · cases h
      exact .inl ⟨Memory.systemKept_advance ((untouched_lockTest s n).trans (untouched_writeMaskEL2 _ t n)).system,
        (writeMaskEL2_after_lockTest hinv n t).1⟩
  · cases h
    exact .inl ⟨Memory.systemKept_advance (untouched_writeMaskEL2 s t n).system,
      (writeMaskEL2_under_inv hinv n t).1.congr rfl rfl rfl rfl rfl (fun _ => id) rfl rfl rfl rfl⟩

/-- Settles O26: a place that changes holds the result of an access the write is put before. -/
theorem msrOfTheMaskFrame : Obligations.MsrOfTheMaskFrame := by
  intro t i n s s' hinv hi hexec
  obtain ⟨hpc, ⟨ev, -, hraise⟩ | ⟨-, haccess⟩⟩ := exec_next hexec
  · obtain ⟨w, hw⟩ := stateAtCause_shape ev s
    exact .inr (raise_architectureKept (d := s.draws) (w := w) (by rw [hw]; rfl) hraise)
  · have hwrite : lockedWrite n t s = .next s' := by
      rcases hi with ⟨rfl, rfl⟩ | ⟨rfl, rfl, hel, hhost⟩
      · exact haccess
      · simpa only [access, el1NameLocation_of_host hel hhost] using haccess
    exact (lockedWrite_next hinv hwrite).imp
      (fun ⟨hsystem, hframe⟩ => ⟨hsystem, hframe.x, hframe.maskEL1, hframe.mem, hframe.events⟩) id

end Sys2Proof.Proofs.OpenOrder
end

section
/-! PROOFS. One instruction at a time over the open accesses (20_memory.md rules R46, R47): what an MRS and an MSR of
SCTLR2MASK_EL2 make of an explicit window, as drawn. The orderings of the spec's examples are runs of these. -/

namespace Sys2Proof.Proofs.OpenSteps

open Sys2Proof Sys2Proof.Machine Sys2Proof.Claims Sys2Proof.Proofs.Causes Sys2Proof.Proofs.Events
  Sys2Proof.Proofs.Frames Sys2Proof.Proofs.Completion Sys2Proof.Proofs.Memory Sys2Proof.Proofs.OpenOrder

/-! What is drawn. -/

/-- The number drawn from 0 to `k` when `d` values have been drawn. -/
def drawn (k d : Nat) : Nat := if k = 0 then 0 else Config.freeNat d % (k + 1)

/-- How many values have been drawn after that. -/
def drawnNext (k d : Nat) : Nat := if k = 0 then d else d + 1

theorem drawUpTo_eq (k : Nat) (s : State) : drawUpTo k s = (drawn k s.draws, s.setDraws (drawnNext k s.draws)) := by
  unfold drawUpTo drawn drawnNext
  split <;> rfl

theorem drawn_le (k d : Nat) : drawn k d ≤ k := by
  unfold drawn
  split
  · exact Nat.zero_le _
  · exact Nat.lt_succ_iff.1 (Nat.mod_lt _ (Nat.succ_pos k))

@[simp] theorem drawn_zero (d : Nat) : drawn 0 d = 0 := rfl
@[simp] theorem drawnNext_zero (d : Nat) : drawnNext 0 d = d := rfl
@[simp] theorem drawn_succ (k d : Nat) : drawn (k + 1) d = Config.freeNat d % (k + 2) := rfl
@[simp] theorem drawnNext_succ (k d : Nat) : drawnNext (k + 1) d = d + 1 := rfl

/-! An MRS. -/

/-- The open accesses with a read into `X[t]` put among them as drawn. -/
def readWindow (n : RegName) (t : RegNum) (d : Nat) (w : Window) : Window :=
  { insertAccess (drawn (freedom n w.order) d) ⟨w.order.length, n, .read⟩ w with
    held := holdX t (some w.order.length) w.held }

/-- The value that read meets. -/
def valueRead (n : RegName) (s : State) : Word :=
  valueBefore s.cfg (drawn (freedom n s.window.order) s.draws) (openWindow s)

/-- The state after an MRS that is one of the open accesses. -/
def afterMrs (n : RegName) (t : RegNum) (s : State) : State :=
  advance (writeX ((s.setDraws (drawnNext (freedom n s.window.order) s.draws)).setWindow
    (readWindow n t s.draws (openWindow s))) t (valueRead n s))

theorem exec_mrsBy_of_recorded {n : RegName} {s : State} (h : Reaches n s) (hrec : recorded s = true) (t : RegNum) :
    exec (mrsBy n t) s = .next (afterMrs n t s) := by
  rw [exec_mrsBy h, readMaskEL2, if_pos hrec, drawUpTo_eq, afterMrs, readWindow, openWindow_order]
  rfl

section

variable (n : RegName) (t : RegNum) (s : State)

theorem afterMrs_shape : ∃ x, afterMrs n t s = (((s.setDraws (drawnNext (freedom n s.window.order) s.draws)).setWindow
    (readWindow n t s.draws (openWindow s))).setX x).setPc (s.pc + 4#64) := by
  obtain ⟨x, hx⟩ := writeX_shape ((s.setDraws (drawnNext (freedom n s.window.order) s.draws)).setWindow
    (readWindow n t s.draws (openWindow s))) t (valueRead n s)
  exact ⟨x, by rw [afterMrs, hx]; rfl⟩

/-- A field that is neither the registers, `pc`, the window nor the draws is kept. -/
theorem afterMrs_field {α : Type} (f : State → α) (hf : ∀ s₁ x w d p,
    f (((State.setWindow (State.setDraws s₁ d) w).setX x).setPc p) = f s₁) : f (afterMrs n t s) = f s := by
  obtain ⟨x, hx⟩ := afterMrs_shape n t s
  rw [hx]
  exact hf _ _ _ _ _

@[simp] theorem afterMrs_cfg : (afterMrs n t s).cfg = s.cfg := afterMrs_field n t s _ fun _ _ _ _ _ => rfl
@[simp] theorem afterMrs_env : (afterMrs n t s).env = s.env := afterMrs_field n t s _ fun _ _ _ _ _ => rfl
@[simp] theorem afterMrs_pstate : (afterMrs n t s).pstate = s.pstate := afterMrs_field n t s _ fun _ _ _ _ _ => rfl
@[simp] theorem afterMrs_sctlr2maskEL2 : (afterMrs n t s).sctlr2maskEL2 = s.sctlr2maskEL2 :=
  afterMrs_field n t s _ fun _ _ _ _ _ => rfl
@[simp] theorem afterMrs_sctlr2maskEL1 : (afterMrs n t s).sctlr2maskEL1 = s.sctlr2maskEL1 :=
  afterMrs_field n t s _ fun _ _ _ _ _ => rfl
@[simp] theorem afterMrs_mem : (afterMrs n t s).mem = s.mem := afterMrs_field n t s _ fun _ _ _ _ _ => rfl
@[simp] theorem afterMrs_nvEvents : (afterMrs n t s).nvEvents = s.nvEvents :=
  afterMrs_field n t s _ fun _ _ _ _ _ => rfl
@[simp] theorem afterMrs_regions : (afterMrs n t s).regions = s.regions := afterMrs_field n t s _ fun _ _ _ _ _ => rfl
@[simp] theorem afterMrs_text : (afterMrs n t s).text = s.text := afterMrs_field n t s _ fun _ _ _ _ _ => rfl

@[simp] theorem afterMrs_pc : (afterMrs n t s).pc = s.pc + 4#64 := by
  obtain ⟨x, hx⟩ := afterMrs_shape n t s
  rw [hx, State.setPc_pc]

@[simp] theorem afterMrs_window : (afterMrs n t s).window = readWindow n t s.draws (openWindow s) := by
  obtain ⟨x, hx⟩ := afterMrs_shape n t s
  rw [hx]
  rfl

@[simp] theorem afterMrs_draws : (afterMrs n t s).draws = drawnNext (freedom n s.window.order) s.draws := by
  obtain ⟨x, hx⟩ := afterMrs_shape n t s
  rw [hx]
  rfl

/-- `X[u]` after the MRS. -/
theorem readX_afterMrs' (u : RegNum) :
    readX (afterMrs n t s) u = if u = t ∧ t ≠ 31#5 then valueRead n s else readX s u :=
  readX_writeX ((s.setDraws (drawnNext (freedom n s.window.order) s.draws)).setWindow
    (readWindow n t s.draws (openWindow s))) t u (valueRead n s)

/-- `X[t]` after it: register 31 discards the value. -/
theorem readX_afterMrs_self : readX (afterMrs n t s) t = if t = 31#5 then 0#64 else valueRead n s :=
  readX_advance_writeX t _ _

end

/-! An MSR at EL2. -/

/-- The open accesses with a lock test put among them as drawn. -/
def testWindow (n : RegName) (s : State) : Window :=
  insertAccess (drawn (freedom n s.window.order) s.draws) ⟨s.window.order.length, n, .test s.env.effMaskEL2⟩ s.window

/-- The place drawn of some places. -/
def placeDrawn (places : List Nat) (d : Nat) : Nat := places.getD (drawn (places.length - 1) d) 0

/-- The accesses, in order, with a write from `src` put among them in a place drawn from those it may take. -/
def orderWritten (c : Config) (n : RegName) (src : WriteSource) (d : Nat) (w : Window) : List Access :=
  (insertAccess (placeDrawn (placesFor c w ⟨w.order.length, n, .write src⟩) d) ⟨w.order.length, n, .write src⟩ w).order

/-- The open accesses, in order, after an MSR at EL2 of which none is refused. -/
def orderOfMsr (n : RegName) (t : RegNum) (s : State) : List Access :=
  orderWritten s.cfg n (sourceOf t s) (drawnNext (freedom n s.window.order) s.draws) (testWindow n s)

/-- What they give. -/
def replayOfMsr (n : RegName) (t : RegNum) (s : State) : Replay := replay s.cfg s.window.base (orderOfMsr n t s)

/-- What the accesses give once the window after the lock test and the places of the write are known. -/
theorem replayOfMsr_of_places {n : RegName} {t : RegNum} {s : State} {w : Window} {src : WriteSource}
    {places : List Nat} (hw : testWindow n s = w) (hsrc : sourceOf t s = src)
    (hplaces : placesFor s.cfg w ⟨w.order.length, n, .write src⟩ = places) :
    replayOfMsr n t s = replay s.cfg s.window.base (insertAccess
      (placeDrawn places (drawnNext (freedom n s.window.order) s.draws)) ⟨w.order.length, n, .write src⟩ w).order := by
  rw [replayOfMsr, orderOfMsr, orderWritten, hw, hsrc, hplaces]

@[simp] theorem placeDrawn_singleton (k d : Nat) : placeDrawn [k] d = k := rfl

theorem placeDrawn_range (k d : Nat) : placeDrawn (List.range (k + 1)) d = drawn k d := by
  have hlt : drawn k d < k + 1 := Nat.lt_succ_iff.2 (drawn_le k d)
  simp [placeDrawn, List.getElem?_range hlt]

/-- The access is a lock test. -/
def isTest (a : Access) : Bool :=
  match a.kind with
  | .read => false
  | .test _ => true
  | .write _ => false
  | .elsewhere _ => false
  | .testEL1 _ => true

theorem keepOutcomes_of_no_test {c : Config} (l : List Access) : ∀ {r r' : Replay}, (∀ a ∈ l, isTest a = false) →
    keepOutcomes c r r' l = true := by
  induction l with
  | nil => exact fun _ => rfl
  | cons a rest ih =>
    intro r r' h
    have ha := h a (by simp)
    obtain ⟨id, n, k⟩ := a
    rw [keepOutcomes, ih fun b hb => h b (by simp [hb])]
    cases k with
    | read => rfl
    | test b => cases ha
    | write src => rfl
    | elsewhere src => rfl
    | testEL1 use => cases ha

/-- The write of a word may be put before accesses that are no lock tests. -/
theorem mayPutAt_of_no_test {c : Config} {w : Window} {id back : Nat} {n : RegName} {v : Word}
    (h : ∀ a ∈ w.order.drop (w.order.length - back), isTest a = false) :
    mayPutAt c w ⟨id, n, .write (.word v)⟩ back = true := by
  rw [mayPutAt, keepOutcomes_of_no_test _ h]
  rfl

theorem placesFor_of_mayPutAt {c : Config} {w : Window} {a : Access} {k : Nat} (hk : freedom a.name w.order = k)
    (h : ∀ back ≤ k, mayPutAt c w a back = true) : placesFor c w a = List.range (k + 1) := by
  rw [placesFor, hk, List.filter_eq_self]
  exact fun back hback => h back (Nat.lt_succ_iff.1 (List.mem_range.1 hback))

/-- An access that needs a result stays after the access that gives it. -/
theorem placesFor_of_not_ready {c : Config} {w : Window} {a : Access} (h0 : sourceReady w.order a = true)
    (h : ∀ back, 0 < back → back ≤ freedom a.name w.order →
      sourceReady (w.order.take (w.order.length - back)) a = false) : placesFor c w a = [0] := by
  have hzero : mayPutAt c w a 0 = true := by simp [mayPutAt, h0, keepOutcomes]
  have hrest : ((List.range (freedom a.name w.order)).map Nat.succ).filter (mayPutAt c w a) = [] := by
    refine List.filter_eq_nil_iff.2 fun back hback => ?_
    obtain ⟨k, hk, rfl⟩ := List.mem_map.1 hback
    rw [mayPutAt, h _ (Nat.succ_pos k) (List.mem_range.1 hk)]
    simp
  rw [placesFor, List.range_succ_eq_map, List.filter_cons, if_pos hzero, hrest]

theorem performAccess_test {c : Config} {r : Replay} {id : Nat} {n : RegName} {b : Option Word} :
    performAccess c r ⟨id, n, .test b⟩ = r := rfl

/-- A lock test changes nothing of what the accesses give. -/
theorem replay_testWindow (n : RegName) (s : State) :
    replay s.cfg s.window.base (testWindow n s).order = replay s.cfg s.window.base s.window.order := by
  conv_rhs => rw [← List.take_append_drop
    (s.window.order.length - drawn (freedom n s.window.order) s.draws) s.window.order]
  rw [testWindow, insertAccess, replay_append, replay_append, List.foldl_cons, performAccess_test]

theorem openWindow_of_open {s : State} (h : s.window.order ≠ []) : openWindow s = s.window := if_neg h

theorem recorded_of_open {s : State} (h : s.window.order ≠ []) : recorded s = true := by
  simp [recorded, h]

theorem openWindow_setDraws (s : State) (d : Nat) : openWindow (s.setDraws d) = openWindow s := rfl

/-- The open accesses explain the places that hold results of them. -/
structure Explained (s : State) : Prop where
  places : (s.window.held.map (·.place)).Nodup
  results : ∀ h ∈ s.window.held, PlaceHolds h.place (seenAt (replay s.cfg s.window.base s.window.order).seen h.id) s

/-- How many values have been drawn after an MSR at EL2. -/
def drawsOfMsr (n : RegName) (t : RegNum) (s : State) : Nat := drawnNext
  ((placesFor s.cfg (testWindow n s) ⟨(testWindow n s).order.length, n, .write (sourceOf t s)⟩).length - 1)
  (drawnNext (freedom n s.window.order) s.draws)

/-- The state after the write of an MSR, the places that hold results not yet refreshed. -/
def beforeRefresh (n : RegName) (t : RegNum) (s : State) : State :=
  (((s.setMaskHist (s.maskHist ++ [s.sctlr2maskEL2, storedFrom s t])).setDraws (drawsOfMsr n t s)).setWindow
    { s.window with order := orderOfMsr n t s }).setMaskEL2 (replayOfMsr n t s).mask

/-- The state after an MSR at EL2 that is one of the open accesses. -/
def afterMsrOpen (n : RegName) (t : RegNum) (s : State) : State :=
  advance (refreshHeld (replay s.cfg s.window.base s.window.order).seen (replayOfMsr n t s).seen s.window.held
    (beforeRefresh n t s))

/-- The write of an MSR after its lock test. -/
theorem writeMaskEL2_of_testWindow {n : RegName} {t : RegNum} {s s₁ : State}
    (hs₁ : s₁ = (s.setDraws (drawnNext (freedom n s.window.order) s.draws)).setWindow (testWindow n s)) :
    advance (writeMaskEL2 n t s₁) = afterMsrOpen n t s := by
  have hopen : (testWindow n s).order ≠ [] := by simp [testWindow, insertAccess]
  have hwindow : s₁.window = testWindow n s := by rw [hs₁]; rfl
  have hcfg : s₁.cfg = s.cfg := by rw [hs₁]; rfl
  have hdraws : s₁.draws = drawnNext (freedom n s.window.order) s.draws := by rw [hs₁]; rfl
  have hopen₁ (v : Word) : openWindow (noteMaskWrite v s₁) = testWindow n s := by
    rw [← hwindow]
    exact openWindow_of_open (hwindow ▸ hopen)
  have hnext : nextAccess n (.write (sourceOf t s₁)) s₁ =
      ⟨(testWindow n s).order.length, n, .write (sourceOf t s)⟩ := by rw [hs₁]; rfl
  have hdraw (v : Word) (k : Nat) : drawUpTo k (noteMaskWrite v s₁) =
      (drawn k (drawnNext (freedom n s.window.order) s.draws),
        (noteMaskWrite v s₁).setDraws (drawnNext k (drawnNext (freedom n s.window.order) s.draws))) := by
    rw [drawUpTo_eq, ← hdraws]
    rfl
  have hseen : (replay s.cfg (testWindow n s).base (testWindow n s).order).seen =
      (replay s.cfg s.window.base s.window.order).seen := congrArg Replay.seen (replay_testWindow n s)
  have hcfg₂ (v : Word) : (noteMaskWrite v s₁).cfg = s.cfg := hcfg
  rw [writeMaskEL2, if_pos (recorded_of_open (hwindow ▸ hopen)), hnext, writeMaskUnordered, hopen₁, hcfg₂, drawFrom,
    hdraw, writeMaskAt, openWindow_setDraws, hopen₁, State.setDraws_cfg, hcfg₂, hseen, afterMsrOpen]
  have hbefore : beforeRefresh n t s = (((noteMaskWrite (storedMask s₁.cfg (readX s₁ t)) s₁).setDraws
      (drawsOfMsr n t s)).setWindow { s.window with order := orderOfMsr n t s }).setMaskEL2 (replayOfMsr n t s).mask := by
    subst hs₁
    simp only [beforeRefresh, noteMaskWrite, State.setMaskHist, State.setDraws, State.setWindow, State.setMaskEL2]
    rfl
  rw [hbefore, replayOfMsr, drawsOfMsr, orderOfMsr, orderWritten, placeDrawn]
  generalize placesFor s.cfg (testWindow n s) ⟨(testWindow n s).order.length, n, .write (sourceOf t s)⟩ = places
  rfl

/-- With nothing refused, an MSR at EL2 is put among the open accesses as drawn. -/
theorem exec_msrBy_of_open {n : RegName} {s : State} (h : Reaches n s) (hel : s.pstate.el = .el2)
    (hopen : s.window.order ≠ []) (hunlocked : effectiveEL2 s.cfg s.env (valueRead n s) = 0#64) (t : RegNum) :
    exec (msrBy n t) s = .next (afterMsrOpen n t s) := by
  have hseen : maskSeenBy n s = valueRead n s := by rw [maskSeenBy, drawUpTo_eq, valueRead]
  rw [exec_msrBy_of_unlocked h hel (by rw [hseen]; exact hunlocked)]
  refine congrArg Host.Outcome.next (writeMaskEL2_of_testWindow ?_)
  rw [lockTest_snd, drawUpTo_eq, if_pos (recorded_of_open hopen), openWindow_of_open hopen]
  rfl

section

variable (n : RegName) (t : RegNum) (s : State)

theorem afterMsrOpen_shape : ∃ x m1 mem ev, afterMsrOpen n t s =
    advance (((((beforeRefresh n t s).setX x).setMaskEL1 m1).setMem mem).setNvEvents ev) := by
  obtain ⟨x, m1, mem, ev, h⟩ := refreshHeld_shape (replay s.cfg s.window.base s.window.order).seen
    (replayOfMsr n t s).seen s.window.held (beforeRefresh n t s)
  exact ⟨x, m1, mem, ev, by rw [afterMsrOpen, h]⟩

@[simp] theorem afterMsrOpen_cfg : (afterMsrOpen n t s).cfg = s.cfg := by
  obtain ⟨x, m1, mem, ev, h⟩ := afterMsrOpen_shape n t s
  simp [h, advance, beforeRefresh]

@[simp] theorem afterMsrOpen_env : (afterMsrOpen n t s).env = s.env := by
  obtain ⟨x, m1, mem, ev, h⟩ := afterMsrOpen_shape n t s
  simp [h, advance, beforeRefresh]

@[simp] theorem afterMsrOpen_pstate : (afterMsrOpen n t s).pstate = s.pstate := by
  obtain ⟨x, m1, mem, ev, h⟩ := afterMsrOpen_shape n t s
  simp [h, advance, beforeRefresh]

@[simp] theorem afterMsrOpen_pc : (afterMsrOpen n t s).pc = s.pc + 4#64 := by
  obtain ⟨x, m1, mem, ev, h⟩ := afterMsrOpen_shape n t s
  simp [h, advance, beforeRefresh]

@[simp] theorem afterMsrOpen_excEL2 : (afterMsrOpen n t s).excEL2 = s.excEL2 := by
  obtain ⟨x, m1, mem, ev, h⟩ := afterMsrOpen_shape n t s
  simp [h, advance, beforeRefresh]

@[simp] theorem afterMsrOpen_window : (afterMsrOpen n t s).window = { s.window with order := orderOfMsr n t s } := by
  obtain ⟨x, m1, mem, ev, h⟩ := afterMsrOpen_shape n t s
  simp [h, advance, beforeRefresh]

@[simp] theorem afterMsrOpen_draws : (afterMsrOpen n t s).draws = drawsOfMsr n t s := by
  obtain ⟨x, m1, mem, ev, h⟩ := afterMsrOpen_shape n t s
  simp [h, advance, beforeRefresh]

@[simp] theorem afterMsrOpen_sctlr2maskEL2 : (afterMsrOpen n t s).sctlr2maskEL2 = (replayOfMsr n t s).mask := by
  obtain ⟨x, m1, mem, ev, h⟩ := afterMsrOpen_shape n t s
  simp [h, advance, beforeRefresh]

/-- The places that hold results of open accesses hold what those now give. -/
theorem placeHolds_afterMsrOpen {s : State} (he : Explained s) {h : Held} (hh : h ∈ s.window.held) :
    PlaceHolds h.place (seenAt (replayOfMsr n t s).seen h.id) (afterMsrOpen n t s) := by
  have hbefore : ∀ b ∈ s.window.held, PlaceHolds b.place
      (seenAt (replay s.cfg s.window.base s.window.order).seen b.id) (beforeRefresh n t s) := fun b hb =>
    (he.results b hb).congr (by simp [beforeRefresh]) (fun _ _ => readX_congr (by simp [beforeRefresh]) _)
      (by simp [beforeRefresh]) (by simp [beforeRefresh]) (by simp [beforeRefresh])
  have hafter := placeHolds_refreshHeld (after := (replayOfMsr n t s).seen) s.window.held (beforeRefresh n t s)
    he.places hbefore hh
  exact hafter.congr (by simp [afterMsrOpen, advance]) (fun _ _ => readX_congr (by simp [afterMsrOpen, advance]) _)
    (by simp [afterMsrOpen, advance]) (by simp [afterMsrOpen, advance]) (by simp [afterMsrOpen, advance])

/-- A part of the state that is of registers, memory and the record, and that no place that holds a result is part of,
is kept. -/
theorem afterMsrOpen_keeps {α : Type} {f : State → α} (hadvance : ∀ s₁, f (advance s₁) = f s₁)
    (hbefore : f (beforeRefresh n t s) = f s)
    (hput : ∀ h ∈ s.window.held, ∀ s₁ v, f (putPlace h.place v s₁) = f s₁) : f (afterMsrOpen n t s) = f s := by
  rw [afterMsrOpen, hadvance, refreshHeld_keeps (f := f) _ _ fun h hh _ => hput h hh, hbefore]

/-- The open accesses still explain the places. -/
theorem explained_afterMsrOpen {s : State} (he : Explained s) : Explained (afterMsrOpen n t s) := by
  refine ⟨by rw [afterMsrOpen_window]; exact he.places, fun h hh => ?_⟩
  rw [afterMsrOpen_window] at hh ⊢
  rw [afterMsrOpen_cfg]
  exact placeHolds_afterMsrOpen n t he hh

/-- A register that holds no result of an open access is kept. -/
theorem readX_afterMsrOpen {u : RegNum} (hu : ∀ h ∈ s.window.held, h.place ≠ .x u) :
    readX (afterMsrOpen n t s) u = readX s u :=
  afterMsrOpen_keeps n t s (f := fun s₁ => readX s₁ u) (fun _ => rfl) (readX_congr (by simp [beforeRefresh]) u)
    fun h hh _ _ => readX_putPlace (hu h hh)

/-- A recorded event that holds none is kept. -/
theorem nvEvent_afterMsrOpen {k : Nat} (hk : ∀ h ∈ s.window.held, h.place ≠ .event k) :
    (afterMsrOpen n t s).nvEvents[k]? = s.nvEvents[k]? :=
  afterMsrOpen_keeps n t s (f := fun s₁ => s₁.nvEvents[k]?) (fun _ => rfl) (by simp [beforeRefresh])
    fun h hh s₁ v => getElem?_nvEvents_putPlace (hk h hh) v s₁

/-- And each is the same but for its value. -/
theorem nvEventKind_afterMsrOpen (k : Nat) (v : Word) :
    ((afterMsrOpen n t s).nvEvents[k]?).map (NvEvent.withValue v) = (s.nvEvents[k]?).map (NvEvent.withValue v) :=
  afterMsrOpen_keeps n t s (f := fun s₁ => (s₁.nvEvents[k]?).map (NvEvent.withValue v)) (fun _ => rfl)
    (by simp [beforeRefresh]) fun h _ s₁ w => event_putPlace k v w h.place s₁

end

end Sys2Proof.Proofs.OpenSteps
end

section
/-! PROOFS. The orderings of rule R46 by two accesses (20_memory.md rules R46, R47; vectors O1 to O6 and O8), each a run from
no access open. -/

namespace Sys2Proof.Proofs.Orderings

open Sys2Proof Sys2Proof.Machine Sys2Proof.Claims Sys2Proof.Proofs.Events Sys2Proof.Proofs.Frames
  Sys2Proof.Proofs.Completion Sys2Proof.Proofs.Memory Sys2Proof.Proofs.OpenOrder Sys2Proof.Proofs.OpenSteps
  Sys2Proof.Proofs.MaskFields

/-! The conditions of the next access. -/

/-- An access completed, with `k` bytes left: `pc + 4` leaves `k - 4`. -/
theorem pc_fits_after {pc : Word} {k : Nat} (h : pc.toNat + (k + 4) < 2 ^ 64) : (pc + 4#64).toNat + k < 2 ^ 64 := by
  rw [toNat_pc_add_four (by omega)]
  omega

theorem reaches_of_same {n : RegName} {s s₁ : State} (h : Reaches n s) (hcfg : s₁.cfg = s.cfg) (henv : s₁.env = s.env)
    (hpstate : s₁.pstate = s.pstate) (hpc : s₁.pc.toNat + 4 < 2 ^ 64) : Reaches n s₁ := by
  obtain ⟨hr, h⟩ := h
  refine ⟨⟨hcfg ▸ hr.1, hcfg ▸ hr.2.1, hpc⟩, ?_⟩
  rw [El3Allows, hcfg, henv, hpstate]
  exact h

theorem inHost_of_same {s s₁ : State} (h : InHost s) (hcfg : s₁.cfg = s.cfg) (henv : s₁.env = s.env)
    (hpstate : s₁.pstate = s.pstate) (hpc : s₁.pc.toNat + 4 < 2 ^ 64) : InHost s₁ := by
  obtain ⟨hr, hel, h3, hhost⟩ := h
  refine ⟨⟨hcfg ▸ hr.1, hcfg ▸ hr.2.1, hpc⟩, by rw [hpstate, hel], ?_, by rw [henv, hhost]⟩
  rw [El3Allows, hcfg, henv]
  exact h3

theorem recorded_of_inHost {s : State} (h : InHost s) : recorded s = true := by
  simp [recorded, unordered, h.2.1, h.2.2.2]

/-! After an MSR from no access open. -/

section

variable {n m : RegName} {s : State} {b x : Word} {body : Option Word}

/-- What a read or a lock test by the other name meets. -/
theorem valueRead_after_msr (hnm : n ≠ m)
    (hw : s.window = ⟨b, [⟨0, n, .test body⟩, ⟨1, n, .write (.word x)⟩], []⟩) :
    valueRead m s = if Config.freeNat s.draws % 3 = 0 then storedMask s.cfg x else b := by
  have hopen : openWindow s = s.window := openWindow_of_open (by simp [hw])
  have hfree : freedom m s.window.order = 2 := by simp [freedom, hw, hnm]
  rw [valueRead, hfree, hopen, hw, drawn_succ]
  have hlt : Config.freeNat s.draws % 3 < 3 := Nat.mod_lt _ (by decide)
  generalize Config.freeNat s.draws % 3 = back at hlt
  interval_cases back <;> rfl

/-- What one by the same name meets: it comes after the write. -/
theorem valueRead_after_msr_same
    (hw : s.window = ⟨b, [⟨0, n, .test body⟩, ⟨1, n, .write (.word x)⟩], []⟩) :
    valueRead n s = storedMask s.cfg x := by
  have hopen : openWindow s = s.window := openWindow_of_open (by simp [hw])
  have hfree : freedom n s.window.order = 0 := by simp [freedom, hw]
  rw [valueRead, hfree, hopen, hw]
  rfl

/-- Also after a read by the other name, wherever that was put. -/
theorem valueRead_after_msr_mrs (hnm : n ≠ m) {w : RegNum}
    (hw : s.window = ⟨b, [⟨0, n, .test body⟩, ⟨1, n, .write (.word x)⟩], []⟩) :
    valueRead n (afterMrs m w s) = storedMask s.cfg x := by
  have hopen : openWindow s = s.window := openWindow_of_open (by simp [hw])
  have hfree : freedom m s.window.order = 2 := by simp [freedom, hw, hnm]
  have hopen₁ : openWindow (afterMrs m w s) = (afterMrs m w s).window :=
    openWindow_of_open (by simp [readWindow, insertAccess])
  have hwindow : ∃ l, (afterMrs m w s).window.base = b ∧ (afterMrs m w s).window.order = l ∧
      ∀ back ≤ freedom n l, (replay s.cfg b (l.take (l.length - back))).mask = storedMask s.cfg x := by
    refine ⟨_, by rw [afterMrs_window, hopen, hw]; rfl, rfl, ?_⟩
    rw [afterMrs_window, hopen, readWindow, hfree, drawn_succ, hw]
    have hlt : Config.freeNat s.draws % 3 < 3 := Nat.mod_lt _ (by decide)
    generalize Config.freeNat s.draws % 3 = place at hlt
    interval_cases place
    · intro back hback
      have hle : back ≤ 1 := by simpa [freedom, insertAccess, hnm.symm] using hback
      interval_cases back <;> rfl
    · intro back hback
      obtain rfl : back = 0 := by simpa [freedom, insertAccess] using hback
      rfl
    · intro back hback
      obtain rfl : back = 0 := by simpa [freedom, insertAccess] using hback
      rfl
  obtain ⟨l, hbase, hl, hvalue⟩ := hwindow
  rw [valueRead, valueBefore, hopen₁, afterMrs_cfg, hbase, hl]
  exact hvalue _ (drawn_le _ _)

end

theorem afterMsr_window {s : State} (hrec : recorded s = true) (n : RegName) (t : RegNum) :
    (afterMsr n t s).window = ⟨s.sctlr2maskEL2, [⟨0, n, .test s.env.effMaskEL2⟩, ⟨1, n, .write (.word (readX s t))⟩], []⟩ := by
  rw [afterMsr, if_pos hrec]
  rfl

theorem inHost_afterMsr {s : State} (h : InHost s) (hpc : s.pc.toNat + 8 < 2 ^ 64) (n : RegName) (t : RegNum) :
    InHost (afterMsr n t s) :=
  inHost_of_same h rfl rfl rfl (pc_fits_after (k := 4) hpc)

theorem inHost_afterMrs {s : State} (h : InHost s) (hpc : s.pc.toNat + 8 < 2 ^ 64) (n : RegName) (t : RegNum) :
    InHost (afterMrs n t s) :=
  inHost_of_same h (by simp) (by simp) (by simp) (by rw [afterMrs_pc]; exact pc_fits_after (k := 4) hpc)

theorem inHost_synchronize {s : State} (h : InHost s) : InHost (synchronize s) := h

theorem exec_mrsBy_of_inHost {s : State} (h : InHost s) (n : RegName) (t : RegNum) :
    exec (mrsBy n t) s = .next (afterMrs n t s) :=
  exec_mrsBy_of_recorded (reaches_of_inHost h n) (recorded_of_inHost h) t

/-- Settles O46: the read's place is drawn among those after the write, before it and before its lock test. -/
theorem otherNameReadMayMissTheWrite : Obligations.OtherNameReadMayMissTheWrite := by
  intro n m t u s hnm h hpc hs heff
  have hin := inHost_afterMsr h hpc n t
  have hw := afterMsr_window (recorded_of_inHost h) n t
  refine ⟨afterMsr n t s, exec_msrBy_of_settled (reaches_of_inHost h n) h.2.1 hs heff t, rfl,
    ⟨_, exec_mrsBy_of_inHost hin m u, afterMrs_sctlr2maskEL2 _ _ _, ?_⟩,
    synchronize (afterMsr n t s), _, rfl, exec_mrsBy_of_inHost (inHost_synchronize hin) m u, ?_⟩
  · rw [readX_afterMrs_self, valueRead_after_msr hnm hw]
    rfl
  · rw [readX_afterMrs_self]
    rfl

/-- Settles O47: a read passes over no access by its name. -/
theorem sameNameReadSeesTheWrite : Obligations.SameNameReadSeesTheWrite := by
  intro n m t u w s hr hpc hel h3 hhost hs heff
  have hreach : Reaches n s := ⟨hr, .inr ⟨hel, h3, hhost⟩⟩
  have hreach₁ : Reaches n (afterMsr n t s) :=
    reaches_of_same hreach rfl rfl rfl (pc_fits_after (pc := s.pc) (k := 4) (by omega))
  refine ⟨afterMsr n t s, exec_msrBy_of_settled hreach hel hs heff t, ⟨_, exec_mrsBy hreach₁ u, ?_⟩, fun hnm hin => ?_⟩
  · rw [readX_afterMrs, maskSeenBy, drawUpTo_eq]
    by_cases hrec : recorded s = true
    · exact congrArg (fun v => if u = 31#5 then 0#64 else v)
        (valueRead_after_msr_same (afterMsr_window hrec n t))
    · have hwindow : (afterMsr n t s).window = s.window := by rw [afterMsr, if_neg hrec]; rfl
      have hsettled : Settled (afterMsr n t s) := by rw [Settled, hwindow, hs]
      have hseen := maskSeenBy_of_settled hsettled n
      rw [maskSeenBy, drawUpTo_eq] at hseen
      rw [hseen]
      rfl
  · have h : InHost s := ⟨hr, hel, h3, hin⟩
    have hw := afterMsr_window (recorded_of_inHost h) n t
    have hin₁ : InHost (afterMsr n t s) := inHost_afterMsr h (by omega) n t
    have hin₂ : InHost (afterMrs m w (afterMsr n t s)) :=
      inHost_afterMrs hin₁ (by rw [afterMsr_pc]; exact pc_fits_after (k := 8) hpc) m w
    refine ⟨_, _, exec_mrsBy_of_inHost hin₁ m w, exec_mrsBy_of_inHost hin₂ n u, ?_, ?_⟩
    · rw [readX_afterMrs_self, valueRead_after_msr_mrs hnm hw]
      rfl
    · rw [afterMrs_sctlr2maskEL2, afterMrs_sctlr2maskEL2, afterMsr_sctlr2maskEL2]

/-! After an MRS from no access open. -/

theorem afterMrs_window_of_settled {s : State} (hs : Settled s) (n : RegName) (u : RegNum) :
    (afterMrs n u s).window = ⟨s.sctlr2maskEL2, [⟨0, n, .read⟩], holdX u (some 0) []⟩ := by
  rw [afterMrs_window, openWindow_of_settled hs]
  rfl

theorem valueRead_of_settled {s : State} (hs : Settled s) (n : RegName) : valueRead n s = s.sctlr2maskEL2 := by
  rw [valueRead, openWindow_of_settled hs, hs]
  rfl

theorem afterMrs_draws_of_settled {s : State} (hs : Settled s) (n : RegName) (u : RegNum) :
    (afterMrs n u s).draws = s.draws := by
  rw [afterMrs_draws, hs]
  rfl

theorem explained_afterMrs_of_settled {s : State} (hs : Settled s) (n : RegName) (u : RegNum) :
    Explained (afterMrs n u s) := by
  have hw := afterMrs_window_of_settled hs n u
  by_cases hu : u = 31#5
  · have hheld : (afterMrs n u s).window.held = [] := by rw [hw]; simp [holdX, hu]
    refine ⟨by rw [hheld]; exact List.nodup_nil, fun h hh => ?_⟩
    rw [hheld] at hh
    cases hh
  · have hheld : (afterMrs n u s).window.held = [⟨.x u, 0⟩] := by rw [hw]; simp [holdX, hold, hu]
    refine ⟨by rw [hheld]; exact List.nodup_singleton _, fun h hh => ?_⟩
    rw [hheld, List.mem_singleton] at hh
    subst hh
    refine ⟨hu, ?_⟩
    rw [readX_afterMrs_self, if_neg hu, valueRead_of_settled hs, hw]
    rfl

section

variable {n m : RegName} {t : RegNum} {s : State} {b x : Word} {l : List Held}

/-- A write by the other name from a word comes before the read, or after it, as drawn twice. -/
theorem replayOfMsr_after_mrs (hnm : n ≠ m) (hw : s.window = ⟨b, [⟨0, n, .read⟩], l⟩)
    (hsrc : sourceOf t s = .word x) :
    (replayOfMsr m t s).mask = storedMask s.cfg x ∧ seenAt (replayOfMsr m t s).seen 0 =
      if Config.freeNat s.draws % 2 = 1 ∧ Config.freeNat (s.draws + 1) % 2 = 1 then storedMask s.cfg x else b := by
  have hfree : freedom m s.window.order = 1 := by simp [freedom, hw, hnm]
  have hlt : Config.freeNat s.draws % 2 < 2 := Nat.mod_lt _ (by decide)
  have htest : testWindow m s = insertAccess (Config.freeNat s.draws % 2) ⟨1, m, .test s.env.effMaskEL2⟩
      ⟨b, [⟨0, n, .read⟩], l⟩ := by rw [testWindow, hfree, drawn_succ, hw]; rfl
  generalize Config.freeNat s.draws % 2 = place at hlt htest
  interval_cases place
  · rw [replayOfMsr_of_places (w := ⟨b, [⟨0, n, .read⟩, ⟨1, m, .test s.env.effMaskEL2⟩], l⟩) htest hsrc
      (placesFor_of_freedom_zero (by simp [freedom]) rfl), hw]
    exact ⟨rfl, rfl⟩
  · rw [replayOfMsr_of_places (w := ⟨b, [⟨1, m, .test s.env.effMaskEL2⟩, ⟨0, n, .read⟩], l⟩) htest hsrc
      (placesFor_of_mayPutAt (k := 1) (by simp [freedom, hnm]) fun back hback => mayPutAt_of_no_test ?_),
      placeDrawn_range, hfree, drawnNext_succ, drawn_succ, hw]
    · have hlt₁ : Config.freeNat (s.draws + 1) % 2 < 2 := Nat.mod_lt _ (by decide)
      generalize Config.freeNat (s.draws + 1) % 2 = place at hlt₁
      interval_cases place
      · exact ⟨rfl, rfl⟩
      · exact ⟨rfl, rfl⟩
    · interval_cases back
      · simp
      · simp [isTest]

/-- A write of what the read gave comes after it. -/
theorem replayOfMsr_after_mrs_own (hnm : n ≠ m) (hw : s.window = ⟨b, [⟨0, n, .read⟩], l⟩)
    (hsrc : sourceOf t s = .ofRead 0) :
    (replayOfMsr m t s).mask = storedMask s.cfg b ∧ seenAt (replayOfMsr m t s).seen 0 = b := by
  have hfree : freedom m s.window.order = 1 := by simp [freedom, hw, hnm]
  have hlt : Config.freeNat s.draws % 2 < 2 := Nat.mod_lt _ (by decide)
  have htest : testWindow m s = insertAccess (Config.freeNat s.draws % 2) ⟨1, m, .test s.env.effMaskEL2⟩
      ⟨b, [⟨0, n, .read⟩], l⟩ := by rw [testWindow, hfree, drawn_succ, hw]; rfl
  generalize Config.freeNat s.draws % 2 = place at hlt htest
  interval_cases place
  · rw [replayOfMsr_of_places (w := ⟨b, [⟨0, n, .read⟩, ⟨1, m, .test s.env.effMaskEL2⟩], l⟩) htest hsrc
      (placesFor_of_freedom_zero (by simp [freedom]) rfl), hw]
    exact ⟨rfl, rfl⟩
  · rw [replayOfMsr_of_places (w := ⟨b, [⟨1, m, .test s.env.effMaskEL2⟩, ⟨0, n, .read⟩], l⟩) htest hsrc
      (placesFor_of_not_ready rfl fun back hpos hback => ?_), hw]
    · exact ⟨rfl, rfl⟩
    · obtain rfl : back = 1 := by
        have hle : back ≤ 1 := by simpa [freedom, hnm] using hback
        omega
      rfl

/-- With no write open every read and lock test meets the register's value from before. -/
theorem valueRead_of_no_write {order : List Access} (hw : s.window = ⟨b, order, l⟩) (hne : order ≠ [])
    (hread : ∀ a ∈ order, a.isWrite = false) (k : RegName) : valueRead k s = b := by
  rw [valueRead, openWindow_of_open (by simp [hw, hne]), valueBefore, hw]
  exact WriteOnce.replay_mask_of_no_write fun a ha => hread a (List.mem_of_mem_take ha)

end

/-- Where the operand of an MSR comes from after an MRS into `X[u]` from no access open. -/
theorem sourceOf_afterMrs_of_settled {s : State} (hs : Settled s) (n : RegName) (t u : RegNum) :
    sourceOf t (afterMrs n u s) =
      if t = u ∧ u ≠ 31#5 then .ofRead 0 else .word (readX (afterMrs n u s) t) := by
  have hw := afterMrs_window_of_settled hs n u
  rw [sourceOf, sourceAt, readHeldAt, hw]
  by_cases hu : u = 31#5
  · simp [holdX, hu, heldAt]
  · by_cases ht : t = u
    · simp [holdX, hold, hu, heldAt, ht]
    · have hne : u ≠ t := fun e => ht e.symm
      simp [holdX, hold, hu, heldAt, ht, hne]

/-- The register of a read among the open accesses has what that gives. -/
theorem readX_of_held {s s' : State} {u : RegNum} {id : Nat} {r : Replay} (hheld : ⟨.x u, id⟩ ∈ s.window.held)
    (h : ∀ a ∈ s.window.held, PlaceHolds a.place (seenAt r.seen a.id) s') : readX s' u = seenAt r.seen id :=
  (h _ hheld).2

theorem held_afterMrs_of_settled {s : State} (hs : Settled s) (n : RegName) {u : RegNum} (hu : u ≠ 31#5) :
    (afterMrs n u s).window.held = [⟨.x u, 0⟩] := by
  rw [afterMrs_window_of_settled hs n u]
  simp [holdX, hold, hu]

/-- Settles O48: the write's place is drawn after its lock test's, and a write of the read's own result follows it. -/
theorem earlierReadMaySeeTheLaterWrite : Obligations.EarlierReadMaySeeTheLaterWrite := by
  intro n m t u s hnm h hpc hs heff
  have hin := inHost_afterMrs h hpc n u
  have hw := afterMrs_window_of_settled hs n u
  have hdraws := afterMrs_draws_of_settled hs n u
  have hsrc := sourceOf_afterMrs_of_settled hs n t u
  have hread := readX_afterMrs_self n u s
  rw [valueRead_of_settled hs] at hread
  have hexplained := explained_afterMrs_of_settled hs n u
  generalize hs₁ : afterMrs n u s = s₁ at *
  have hcfg : s₁.cfg = s.cfg := by rw [← hs₁, afterMrs_cfg]
  have henv : s₁.env = s.env := by rw [← hs₁, afterMrs_env]
  have hunlocked : effectiveEL2 s₁.cfg s₁.env (valueRead m s₁) = 0#64 := by
    rw [valueRead_of_no_write hw (by simp) (by simp [Access.isWrite]), hcfg, henv]
    exact heff
  refine ⟨s₁, afterMsrOpen m t s₁, hs₁ ▸ exec_mrsBy_of_inHost h n u,
    exec_msrBy_of_open (reaches_of_inHost hin m) hin.2.1 (by simp [hw]) hunlocked t, ?_, ?_⟩
  · rw [afterMsrOpen_sctlr2maskEL2]
    split at hsrc
    · next ht =>
      rw [(replayOfMsr_after_mrs_own hnm hw hsrc).1, storedFrom, ht.1, hread, if_neg ht.2]
      rfl
    · exact (replayOfMsr_after_mrs hnm hw hsrc).1
  · by_cases hu : u = 31#5
    · rw [if_pos hu, hu]
      exact readX_31 _
    · have hheld : s₁.window.held = [⟨.x u, 0⟩] := hs₁ ▸ held_afterMrs_of_settled hs n hu
      rw [if_neg hu, readX_of_held (s := s₁) (id := 0) (by rw [hheld]; simp)
        (fun a ha => placeHolds_afterMsrOpen m t hexplained ha), afterMsrOpen_sctlr2maskEL2]
      split at hsrc
      · next ht =>
        rw [if_neg fun k => k.1 ht.1.symm, (replayOfMsr_after_mrs_own hnm hw hsrc).2]
      · next ht =>
        have hut : u ≠ t := fun e => ht ⟨e.symm, hu⟩
        obtain ⟨hmask, hseen⟩ := replayOfMsr_after_mrs hnm hw hsrc
        rw [hseen, hmask]
        simp only [hut, ne_eq, not_false_eq_true, true_and]

end Sys2Proof.Proofs.Orderings
end

section
/-! PROOFS. Two writes by the two names (20_memory.md rule R46, items 3 and 4; vectors O5 and O6), a read whose result has
been used (item 2), and the mask that binds a write of SCTLR2_EL2 (42_mask_effect.md rule R84; vector O8). -/

namespace Sys2Proof.Proofs.Orderings

open Sys2Proof Sys2Proof.Machine Sys2Proof.Claims Sys2Proof.Proofs.Events Sys2Proof.Proofs.Frames
  Sys2Proof.Proofs.Completion Sys2Proof.Proofs.Memory Sys2Proof.Proofs.OpenOrder Sys2Proof.Proofs.OpenSteps
  Sys2Proof.Proofs.MaskFields

/-! Two writes. -/

section

variable {n m : RegName} {t : RegNum} {s : State} {b x y : Word} {body : Option Word} {l : List Held}

/-- Whether a write of `v` before a lock test that did not lock leaves it so. -/
theorem mayPutAt_before_test {c : Config} (hb : effectiveBody c body b = 0#64) :
    mayPutAt c ⟨b, [⟨2, m, .test s.env.effMaskEL2⟩, ⟨0, n, .test body⟩, ⟨1, n, .write (.word x)⟩], l⟩
      ⟨3, m, .write (.word y)⟩ 2 = decide (effectiveBody c body (storedMask c y) = 0#64) := by
  simp [mayPutAt, sourceReady, Access.needs, keepOutcomes, keepsOutcome, performAccess, replay, sourceValue, hb]

/-- The second of two writes by the two names is put after the first, before it or before its lock test, as drawn. -/
theorem replayOfMsr_after_msr (hnm : n ≠ m)
    (hw : s.window = ⟨b, [⟨0, n, .test body⟩, ⟨1, n, .write (.word x)⟩], l⟩) (hsrc : sourceOf t s = .word y)
    (hb : effectiveBody s.cfg body b = 0#64) : (replayOfMsr m t s).mask =
      if (Config.freeNat s.draws % 3 = 1 ∧ Config.freeNat (s.draws + 1) % 2 = 1) ∨
          (Config.freeNat s.draws % 3 = 2 ∧ Config.freeNat (s.draws + 1) %
            (if effectiveBody s.cfg body (storedMask s.cfg y) = 0#64 then 3 else 2) ≠ 0)
        then storedMask s.cfg x else storedMask s.cfg y := by
  have hfree : freedom m s.window.order = 2 := by simp [freedom, hw, hnm]
  have hlt : Config.freeNat s.draws % 3 < 3 := Nat.mod_lt _ (by decide)
  have hlt₂ : Config.freeNat (s.draws + 1) % 2 < 2 := Nat.mod_lt _ (by decide)
  have hlt₃ : Config.freeNat (s.draws + 1) % 3 < 3 := Nat.mod_lt _ (by decide)
  have htest : testWindow m s = insertAccess (Config.freeNat s.draws % 3) ⟨2, m, .test s.env.effMaskEL2⟩
      ⟨b, [⟨0, n, .test body⟩, ⟨1, n, .write (.word x)⟩], l⟩ := by rw [testWindow, hfree, drawn_succ, hw]; rfl
  generalize Config.freeNat s.draws % 3 = place at hlt htest
  interval_cases place
  · rw [replayOfMsr_of_places (w := ⟨b, [⟨0, n, .test body⟩, ⟨1, n, .write (.word x)⟩,
      ⟨2, m, .test s.env.effMaskEL2⟩], l⟩) htest hsrc (placesFor_of_freedom_zero (by simp [freedom]) rfl), hw]
    simp
    rfl
  · rw [replayOfMsr_of_places (w := ⟨b, [⟨0, n, .test body⟩, ⟨2, m, .test s.env.effMaskEL2⟩,
      ⟨1, n, .write (.word x)⟩], l⟩) htest hsrc
      (placesFor_of_mayPutAt (k := 1) (by simp [freedom, hnm]) fun back hback => mayPutAt_of_no_test ?_),
      placeDrawn_range, hfree, drawnNext_succ, drawn_succ, hw]
    · generalize Config.freeNat (s.draws + 1) % 2 = place at hlt₂
      interval_cases place
      · simp
        rfl
      · simp
        rfl
    · interval_cases back
      · simp
      · simp [isTest]
  · have hfree₂ : freedom m [⟨2, m, .test s.env.effMaskEL2⟩, ⟨0, n, .test body⟩, ⟨1, n, .write (.word x)⟩] = 2 := by
      simp [freedom, hnm]
    by_cases hy : effectiveBody s.cfg body (storedMask s.cfg y) = 0#64
    · rw [replayOfMsr_of_places (w := ⟨b, [⟨2, m, .test s.env.effMaskEL2⟩, ⟨0, n, .test body⟩,
        ⟨1, n, .write (.word x)⟩], l⟩) htest hsrc
        (placesFor_of_mayPutAt (k := 2) hfree₂ fun back hback => ?_), placeDrawn_range, hfree, drawnNext_succ, drawn_succ,
        hw, if_pos hy]
      · generalize Config.freeNat (s.draws + 1) % 3 = place at hlt₃
        interval_cases place
        · simp
          rfl
        · simp
          rfl
        · simp
          rfl
      · interval_cases back
        · exact mayPutAt_of_no_test (by simp)
        · exact mayPutAt_of_no_test (by simp [isTest])
        · exact (mayPutAt_before_test hb).trans (decide_eq_true hy)
    · have hplaces : placesFor s.cfg ⟨b, [⟨2, m, .test s.env.effMaskEL2⟩, ⟨0, n, .test body⟩,
          ⟨1, n, .write (.word x)⟩], l⟩ ⟨3, m, .write (.word y)⟩ = List.range 2 := by
        rw [placesFor, hfree₂, List.range_succ, List.filter_append, List.filter_eq_self.2 fun back hback => ?_,
          List.filter_eq_nil_iff.2 fun back hback => ?_, List.append_nil]
        · obtain rfl := List.mem_singleton.1 hback
          simp [mayPutAt_before_test hb, hy]
        · have hle : back < 2 := List.mem_range.1 hback
          interval_cases back
          · exact mayPutAt_of_no_test (by simp)
          · exact mayPutAt_of_no_test (by simp [isTest])
      rw [replayOfMsr_of_places htest hsrc hplaces, placeDrawn_range, hfree, drawnNext_succ, drawn_succ, hw, if_neg hy]
      generalize Config.freeNat (s.draws + 1) % 2 = place at hlt₂
      interval_cases place
      · simp
        rfl
      · simp
        rfl

end

/-- With terminal verdicts an MSR at EL2 whose lock test meets a mask that locks stops. -/
theorem exec_msrBy_of_locked {n : RegName} {s : State} (h : Reaches n s) (hel : s.pstate.el = .el2)
    (hstop : s.cfg.onEvent = .stop) (hlock : effectiveEL2 s.cfg s.env (maskSeenBy n s) ≠ 0#64) (t : RegNum) :
    exec (msrBy n t) s = .fault (.undefined .lockEL2 s.pc ⟨.write, n, t⟩) := by
  obtain ⟨w, d, hshape⟩ := lockTest_shape s n
  rw [exec_msrBy h, lockedWrite_of_locked hel hlock, hshape]
  simp only [raise, State.setWindow_cfg, State.setDraws_cfg, hstop]
  rfl

/-- With no order open the lock test meets the stored value, and the MSR stores its operand's storable bits. -/
theorem exec_msrBy_of_inHost_settled {s : State} (h : InHost s) (hs : Settled s) (hstop : s.cfg.onEvent = .stop)
    (n : RegName) (t : RegNum) :
    if effMaskEL2 s = 0#64 then ∃ s', exec (msrBy n t) s = .next s' ∧ s'.sctlr2maskEL2 = storedFrom s t
    else exec (msrBy n t) s = .fault (.undefined .lockEL2 s.pc ⟨.write, n, t⟩) := by
  split
  · next hunlocked => exact ⟨_, exec_msrBy_of_settled (reaches_of_inHost h n) h.2.1 hs hunlocked t, rfl⟩
  · next hlocked =>
    exact exec_msrBy_of_locked (reaches_of_inHost h n) h.2.1 hstop (by rw [maskSeenBy_of_settled hs]; exact hlocked) t

/-- Settles O50: the lock test meets what the first write left or found, and the second write's place is drawn. -/
theorem twoWritesEndWithOneOfThem : Obligations.TwoWritesEndWithOneOfThem := by
  intro n m t u s hnm h hpc hstop hs heff
  have hin := inHost_afterMsr h hpc n t
  have hw := afterMsr_window (recorded_of_inHost h) n t
  have hvalue := valueRead_after_msr hnm hw
  have hexec := exec_msrBy_of_settled (reaches_of_inHost h n) h.2.1 hs heff t
  have hmask := afterMsr_sctlr2maskEL2 n t s
  have hread : readX (afterMsr n t s) u = readX s u := readX_congr (afterMsr_x n t s) u
  have hcfg := afterMsr_cfg n t s
  have henv := afterMsr_env n t s
  generalize afterMsr n t s = s₁ at *
  have heff₁ : effMaskEL2 s₁ = effectiveEL2 s.cfg s.env (storedFrom s t) := by rw [effMaskEL2, hcfg, henv, hmask]
  have hvalue₁ : valueRead m s₁ = if Config.freeNat s₁.draws % 3 = 0 then storedFrom s t else s.sctlr2maskEL2 := by
    rw [hvalue, hcfg]
    rfl
  refine ⟨s₁, hexec, hmask, ?_, synchronize s₁, rfl, ?_⟩
  · split
    · next hlocked =>
      refine exec_msrBy_of_locked (reaches_of_inHost hin m) hin.2.1 (by rw [hcfg]; exact hstop) ?_ u
      rw [maskSeenBy, drawUpTo_eq, ← valueRead, hvalue₁, if_pos hlocked.1, hcfg, henv, ← heff₁]
      exact hlocked.2
    · next hunlocked =>
      have hunlocked₁ : effectiveEL2 s₁.cfg s₁.env (valueRead m s₁) = 0#64 := by
        rw [hvalue₁, hcfg, henv]
        split
        · next hplace =>
          by_contra hlock
          exact hunlocked ⟨hplace, by rw [heff₁]; exact hlock⟩
        · exact heff
      have hsrc : sourceOf u s₁ = .word (readX s u) := by
        rw [sourceOf, sourceAt, readHeldAt, hw, hread]
        rfl
      refine ⟨afterMsrOpen m u s₁, exec_msrBy_of_open (reaches_of_inHost hin m) hin.2.1 (by rw [hw]; simp) hunlocked₁ u, ?_⟩
      rw [afterMsrOpen_sctlr2maskEL2, replayOfMsr_after_msr hnm hw hsrc (by rw [hcfg]; exact heff), hcfg]
      rfl
  · have hsync := exec_msrBy_of_inHost_settled (s := synchronize s₁) hin rfl (by rw [← hstop, ← hcfg]; rfl) m u
    have hstored : storedFrom (synchronize s₁) u = storedFrom s u := by
      rw [storedFrom, storedFrom, ← hread, ← hcfg]
      rfl
    rw [hstored] at hsync
    exact hsync

/-! A new mask and a write of SCTLR2_EL2. -/

theorem afterMsr_maskHist (n : RegName) (t : RegNum) (s : State) :
    (afterMsr n t s).maskHist = s.maskHist ++ [s.sctlr2maskEL2, storedFrom s t] := rfl

/-- Settles O58: of the three values since the last synchronization two are the new one. -/
theorem newMaskBindsAfterSynchronization : Obligations.NewMaskBindsAfterSynchronization := by
  intro n t v s hr hel h3 hhost henabled hs heff hhist
  have hbinds : maskBinds (afterMsr n t s) = true := by simp [maskBinds, henabled, hel]
  refine ⟨afterMsr n t s, exec_msrBy_of_settled ⟨hr, .inr ⟨hel, h3, hhost⟩⟩ hel hs heff t, rfl, ⟨_,
    writeSctlr2EL2_of_binds hbinds v, ?_⟩, synchronize (afterMsr n t s), _, rfl,
    writeSctlr2EL2_of_binds (s := synchronize (afterMsr n t s)) hbinds v, ?_⟩
  · have hist : (afterMsr n t s).maskHist = [s.sctlr2maskEL2, storedFrom s t] := by
      rw [afterMsr_maskHist, hhist]
      rfl
    obtain ⟨d, hd⟩ := maskedWriteSctlr2_eq v (afterMsr n t s)
    have hseen : maskSeen (Config.freeNat s.draws % 3) (afterMsr n t s) =
        if Config.freeNat s.draws % 3 = 2 then s.sctlr2maskEL2 else storedFrom s t := by
      have hlt : Config.freeNat s.draws % 3 < 3 := Nat.mod_lt _ (by decide)
      rw [maskSeen, hist]
      generalize Config.freeNat s.draws % 3 = back at hlt
      interval_cases back <;> rfl
    have hdraw : (drawUpTo (afterMsr n t s).maskHist.length (afterMsr n t s)).1 = Config.freeNat s.draws % 3 := by
      rw [hist, drawUpTo_eq]
      rfl
    rw [hd, hdraw, hseen, State.setSctlr2_sctlr2EL2, afterMsr_sctlr2EL2, afterMsr_draws]
    congr 1
    split <;> rfl
  · obtain ⟨d, hd⟩ := maskedWriteSctlr2_eq v (synchronize (afterMsr n t s))
    rw [hd, maskSeen_of_no_hist (s := synchronize (afterMsr n t s)) rfl, State.setSctlr2_sctlr2EL2]
    simp [synchronize, effMaskEL2]

/-! A read whose result has been used. -/

/-- Two reads by one name into `X[u]` from no access open. -/
theorem window_after_two_reads {s : State} (hs : Settled s) (n : RegName) {u : RegNum} (hu : u ≠ 31#5) :
    (afterMrs n u (afterMrs n u s)).window =
      ⟨s.sctlr2maskEL2, [⟨0, n, .read⟩, ⟨1, n, .read⟩], [⟨.x u, 1⟩]⟩ := by
  have hw := afterMrs_window_of_settled hs n u
  rw [afterMrs_window, openWindow_of_open (by rw [hw]; simp), hw, readWindow]
  simp [freedom, insertAccess, holdX, hold, hu]

section

variable {n m : RegName} {t u : RegNum} {s : State} {b x : Word} {l : List Held}

/-- A write put before two reads is what both give. -/
theorem replayOfMsr_before_two_reads (hnm : n ≠ m) (hw : s.window = ⟨b, [⟨0, n, .read⟩, ⟨1, n, .read⟩], l⟩)
    (hsrc : sourceOf t s = .word x) (hd : Config.freeNat s.draws % 3 = 2) (hd₁ : Config.freeNat (s.draws + 1) % 3 = 2) :
    seenAt (replayOfMsr m t s).seen 1 = storedMask s.cfg x := by
  have hfree : freedom m s.window.order = 2 := by simp [freedom, hw, hnm]
  have htest : testWindow m s = ⟨b, [⟨2, m, .test s.env.effMaskEL2⟩, ⟨0, n, .read⟩, ⟨1, n, .read⟩], l⟩ := by
    rw [testWindow, hfree, drawn_succ, hd, hw]
    rfl
  rw [replayOfMsr_of_places htest hsrc
    (placesFor_of_mayPutAt (k := 2) (by simp [freedom, hnm]) fun back hback => mayPutAt_of_no_test ?_),
    placeDrawn_range, hfree, drawnNext_succ, drawn_succ, hd₁, hw]
  · rfl
  · interval_cases back
    · simp
    · simp [isTest]
    · simp [isTest]

/-- A write back of what a read gave, by the same name. -/
theorem orderOfMsr_write_back (hw : s.window = ⟨b, [⟨0, n, .read⟩], l⟩) (hsrc : sourceOf t s = .ofRead 0) :
    orderOfMsr n t s = [⟨0, n, .read⟩, ⟨1, n, .test s.env.effMaskEL2⟩, ⟨2, n, .write (.ofRead 0)⟩] ∧
      drawsOfMsr n t s = s.draws := by
  have hfree : freedom n s.window.order = 0 := by simp [freedom, hw]
  have htest : testWindow n s = ⟨b, [⟨0, n, .read⟩, ⟨1, n, .test s.env.effMaskEL2⟩], l⟩ := by
    rw [testWindow, hfree, hw]
    rfl
  have hplaces : placesFor s.cfg ⟨b, [⟨0, n, .read⟩, ⟨1, n, .test s.env.effMaskEL2⟩], l⟩
      ⟨2, n, .write (.ofRead 0)⟩ = [0] := placesFor_of_freedom_zero (by simp [freedom]) rfl
  constructor
  · rw [orderOfMsr, orderWritten, htest, hsrc]
    simp only [List.length_cons, List.length_nil, Nat.zero_add, Nat.reduceAdd, hplaces, placeDrawn_singleton,
      insertAccess_zero, List.cons_append, List.nil_append]
  · rw [drawsOfMsr, htest, hsrc]
    simp only [List.length_cons, List.length_nil, Nat.zero_add, Nat.reduceAdd, hplaces, hfree]
    rfl

/-- A write put before a read and its write back is what both give, if it does not lock the test between them. -/
theorem replayOfMsr_before_write_back (hnm : n ≠ m) (hw : s.window = ⟨b, [⟨0, n, .read⟩,
      ⟨1, n, .test s.env.effMaskEL2⟩, ⟨2, n, .write (.ofRead 0)⟩], l⟩)
    (hsrc : sourceOf t s = .word x) (hb : effectiveEL2 s.cfg s.env b = 0#64)
    (hx : effectiveEL2 s.cfg s.env (storedMask s.cfg x) = 0#64)
    (hd : Config.freeNat s.draws % 4 = 3) (hd₁ : Config.freeNat (s.draws + 1) % 4 = 3) :
    seenAt (replayOfMsr m t s).seen 0 = storedMask s.cfg x ∧ (replayOfMsr m t s).mask = storedMask s.cfg x := by
  have hfree : freedom m s.window.order = 3 := by simp [freedom, hw, hnm]
  have htest : testWindow m s = ⟨b, [⟨3, m, .test s.env.effMaskEL2⟩, ⟨0, n, .read⟩,
      ⟨1, n, .test s.env.effMaskEL2⟩, ⟨2, n, .write (.ofRead 0)⟩], l⟩ := by
    rw [testWindow, hfree, drawn_succ, hd, hw]
    rfl
  have hb' : effectiveBody s.cfg s.env.effMaskEL2 b = 0#64 := hb
  have hx' : effectiveBody s.cfg s.env.effMaskEL2 (storedMask s.cfg x) = 0#64 := hx
  rw [replayOfMsr_of_places htest hsrc
    (placesFor_of_mayPutAt (k := 3) (by simp [freedom, hnm]) fun back hback => ?_),
    placeDrawn_range, hfree, drawnNext_succ, drawn_succ, hd₁, hw]
  · exact ⟨rfl, storedMask_of_storable (storable_storedMask _ _)⟩
  · interval_cases back
    · exact mayPutAt_of_no_test (by simp)
    · exact mayPutAt_of_no_test (by simp [isTest])
    · simp [mayPutAt, sourceReady, Access.needs, keepOutcomes, keepsOutcome, performAccess, replay, sourceValue, hb', hx']
    · simp [mayPutAt, sourceReady, Access.needs, keepOutcomes, keepsOutcome, performAccess, replay, sourceValue, hb', hx']

end

/-- Settles O49: in the order drawn the write comes before all of them. -/
theorem aUsedReadStaysOpen : Obligations.AUsedReadStaysOpen := by
  intro n m t u s hnm h hpc htu hu hs heff
  have hin₁ : InHost (afterMrs n u s) := inHost_afterMrs h (by omega) n u
  have hpc₁ : (afterMrs n u s).pc.toNat + 8 < 2 ^ 64 := by
    rw [afterMrs_pc]
    exact pc_fits_after (k := 8) hpc
  have hw₁ := afterMrs_window_of_settled hs n u
  have hread₁ : readX (afterMrs n u s) t = readX s t := by
    rw [readX_afterMrs', if_neg fun e => htu e.1]
  refine ⟨fun hd hd₁ => ?_, fun hunlocked hd hd₁ => ?_⟩
  · have hin₂ : InHost (afterMrs n u (afterMrs n u s)) := inHost_afterMrs hin₁ hpc₁ n u
    have hw₂ := window_after_two_reads hs n hu
    have hdraws : (afterMrs n u (afterMrs n u s)).draws = s.draws := by
      rw [afterMrs_draws, hw₁, afterMrs_draws_of_settled hs]
      simp [freedom]
    have hread₂ : readX (afterMrs n u (afterMrs n u s)) t = readX s t := by
      rw [readX_afterMrs', if_neg fun e => htu e.1, hread₁]
    have hself : readX (afterMrs n u (afterMrs n u s)) u = s.sctlr2maskEL2 := by
      rw [readX_afterMrs_self, if_neg hu, valueRead_of_no_write hw₁ (by simp) (by simp [Access.isWrite])]
    have hcfg : (afterMrs n u (afterMrs n u s)).cfg = s.cfg := by simp
    have henv : (afterMrs n u (afterMrs n u s)).env = s.env := by simp
    have hexec := exec_mrsBy_of_inHost hin₁ n u
    generalize afterMrs n u (afterMrs n u s) = s₂ at *
    have hexplained : Explained s₂ := by
      refine ⟨by rw [hw₂]; exact List.nodup_singleton _, fun a ha => ?_⟩
      rw [hw₂] at ha ⊢
      obtain rfl := List.mem_singleton.1 ha
      exact ⟨hu, hself⟩
    have hseen : effectiveEL2 s₂.cfg s₂.env (valueRead m s₂) = 0#64 := by
      rw [valueRead_of_no_write hw₂ (by simp) (by simp [Access.isWrite]), hcfg, henv]
      exact heff
    have hsrc : sourceOf t s₂ = .word (readX s₂ t) := by
      rw [sourceOf, sourceAt, readHeldAt, hw₂]
      simp [heldAt, Ne.symm htu]
    refine ⟨_, s₂, afterMsrOpen m t s₂, exec_mrsBy_of_inHost h n u, hexec,
      exec_msrBy_of_open (reaches_of_inHost hin₂ m) hin₂.2.1 (by rw [hw₂]; simp) hseen t, ?_⟩
    rw [readX_of_held (s := s₂) (id := 1) (by rw [hw₂]; simp) (fun a ha => placeHolds_afterMsrOpen m t hexplained ha),
      replayOfMsr_before_two_reads hnm hw₂ hsrc (by rw [hdraws]; exact hd) (by rw [hdraws]; exact hd₁), hread₂, hcfg]
    rfl
  · have hsrc₁ : sourceOf u (afterMrs n u s) = .ofRead 0 := by
      rw [sourceOf_afterMrs_of_settled hs, if_pos ⟨rfl, hu⟩]
    have hheld₁ := held_afterMrs_of_settled hs n hu
    have hseen₁ : effectiveEL2 (afterMrs n u s).cfg (afterMrs n u s).env (valueRead n (afterMrs n u s)) = 0#64 := by
      rw [valueRead_of_no_write hw₁ (by simp) (by simp [Access.isWrite]), afterMrs_cfg, afterMrs_env]
      exact heff
    have hexec := exec_msrBy_of_open (reaches_of_inHost hin₁ n) hin₁.2.1 (by rw [hw₁]; simp) hseen₁ u
    obtain ⟨horder, hdraws₂⟩ := orderOfMsr_write_back hw₁ hsrc₁
    have hw₂ : (afterMsrOpen n u (afterMrs n u s)).window = ⟨s.sctlr2maskEL2, [⟨0, n, .read⟩,
        ⟨1, n, .test s.env.effMaskEL2⟩, ⟨2, n, .write (.ofRead 0)⟩], [⟨.x u, 0⟩]⟩ := by
      have hw : (afterMrs n u s).window = ⟨s.sctlr2maskEL2, [⟨0, n, .read⟩], [⟨.x u, 0⟩]⟩ := by
        rw [hw₁]
        simp [holdX, hold, hu]
      rw [afterMsrOpen_window, horder, afterMrs_env, hw]
    have hdraws : (afterMsrOpen n u (afterMrs n u s)).draws = s.draws := by
      rw [afterMsrOpen_draws, hdraws₂, afterMrs_draws_of_settled hs]
    have hin₂ : InHost (afterMsrOpen n u (afterMrs n u s)) := inHost_of_same hin₁ (by simp) (by simp) (by simp)
      (by rw [afterMsrOpen_pc]; exact pc_fits_after (k := 4) hpc₁)
    have hread₂ : readX (afterMsrOpen n u (afterMrs n u s)) t = readX s t := by
      rw [readX_afterMsrOpen n u (afterMrs n u s) fun a ha e => ?_, hread₁]
      rw [hheld₁, List.mem_singleton] at ha
      subst ha
      cases e
      exact htu rfl
    have hexplained := explained_afterMsrOpen n u (explained_afterMrs_of_settled hs n u)
    have hcfg : (afterMsrOpen n u (afterMrs n u s)).cfg = s.cfg := by simp
    have henv : (afterMsrOpen n u (afterMrs n u s)).env = s.env := by simp
    generalize afterMsrOpen n u (afterMrs n u s) = s₂ at *
    have hvalue : valueRead m s₂ = s.sctlr2maskEL2 := by
      have hfree : freedom m s₂.window.order = 3 := by simp [freedom, hw₂, hnm]
      rw [valueRead, openWindow_of_open (by rw [hw₂]; simp), hfree, drawn_succ, hdraws, hd, hw₂]
      rfl
    have hseen : effectiveEL2 s₂.cfg s₂.env (valueRead m s₂) = 0#64 := by
      rw [hvalue, hcfg, henv]
      exact heff
    have hsrc : sourceOf t s₂ = .word (readX s₂ t) := by
      rw [sourceOf, sourceAt, readHeldAt, hw₂]
      simp [heldAt, Ne.symm htu]
    obtain ⟨hseenAt, hmask⟩ := replayOfMsr_before_write_back (x := readX s₂ t) hnm (by rw [hw₂, henv]) hsrc
      (by rw [hcfg, henv]; exact heff) (by rw [hcfg, henv, hread₂]; exact hunlocked) (by rw [hdraws]; exact hd)
      (by rw [hdraws]; exact hd₁)
    rw [hread₂, hcfg] at hseenAt hmask
    refine ⟨_, s₂, afterMsrOpen m t s₂, exec_mrsBy_of_inHost h n u, hexec,
      exec_msrBy_of_open (reaches_of_inHost hin₂ m) hin₂.2.1 (by rw [hw₂]; simp) hseen t, ?_, ?_⟩
    · rw [readX_of_held (s := s₂) (id := 0) (by rw [hw₂]; simp) (fun a ha => placeHolds_afterMsrOpen m t hexplained ha),
        hseenAt]
      rfl
    · rw [afterMsrOpen_sctlr2maskEL2, hmask]
      rfl

end Sys2Proof.Proofs.Orderings
end

section
/-! PROOFS. Orderings over accesses that reach other locations (20_memory.md rules R46, R47): a read whose result was put in
SCTLR2MASK_EL1 or in the cell, and the accesses by the EL1 name elsewhere. -/

namespace Sys2Proof.Proofs.Orderings

open Sys2Proof Sys2Proof.Machine Sys2Proof.Claims Sys2Proof.Proofs.Events Sys2Proof.Proofs.Frames
  Sys2Proof.Proofs.Completion Sys2Proof.Proofs.Memory Sys2Proof.Proofs.OpenOrder Sys2Proof.Proofs.OpenSteps

/-! New run-time inputs. -/

/-- The state with new run-time inputs and a new Exception level. -/
def withInputs (el : EL) (e : Env) (s : State) : State := (s.setEnv e).setPState { s.pstate with el := el }

theorem applyInput_env (el : EL) (e : Env) (s : State) : applyInput (.env el e) s = .next (withInputs el e s) := rfl

section

variable (el : EL) (e : Env) (s : State)

@[simp] theorem withInputs_cfg : (withInputs el e s).cfg = s.cfg := rfl
@[simp] theorem withInputs_env : (withInputs el e s).env = e := rfl
@[simp] theorem withInputs_el : (withInputs el e s).pstate.el = el := rfl
@[simp] theorem withInputs_x : (withInputs el e s).x = s.x := rfl
@[simp] theorem withInputs_pc : (withInputs el e s).pc = s.pc := rfl
@[simp] theorem withInputs_sctlr2maskEL2 : (withInputs el e s).sctlr2maskEL2 = s.sctlr2maskEL2 := rfl
@[simp] theorem withInputs_sctlr2maskEL1 : (withInputs el e s).sctlr2maskEL1 = s.sctlr2maskEL1 := rfl
@[simp] theorem withInputs_mem : (withInputs el e s).mem = s.mem := rfl
@[simp] theorem withInputs_regions : (withInputs el e s).regions = s.regions := rfl
@[simp] theorem withInputs_text : (withInputs el e s).text = s.text := rfl
@[simp] theorem withInputs_window : (withInputs el e s).window = s.window := rfl
@[simp] theorem withInputs_nvEvents : (withInputs el e s).nvEvents = s.nvEvents := rfl
@[simp] theorem withInputs_draws : (withInputs el e s).draws = s.draws := rfl
@[simp] theorem readX_withInputs (t : RegNum) : readX (withInputs el e s) t = readX s t := rfl

end

/-! An access elsewhere after a read from no access open. -/

theorem openElsewhere_last {k : AccessKind} {s : State} (hopen : s.window.order ≠ [])
    (hplaces : placesFor s.cfg s.window (nextAccess .sctlr2maskEL1 k s) = [0]) : openElsewhere k s =
      s.setWindow { s.window with order := s.window.order ++ [nextAccess .sctlr2maskEL1 k s] } := by
  rw [openElsewhere, if_neg hopen, openWindow_of_open hopen, hplaces, List.getLastD_cons, List.getLastD_nil,
    insertAccess_zero]

section

variable {n m : RegName} {t u : RegNum} {s : State} {b x : Word} {l : List Held}

/-- The open accesses after a read into a register, whose result the EL1 name then takes elsewhere. -/
abbrev usedOrder (n : RegName) : List Access :=
  [⟨0, n, .read⟩, ⟨1, .sctlr2maskEL1, .elsewhere (.ofRead 0)⟩]

theorem openElsewhere_use (hw : s.window = ⟨b, [⟨0, n, .read⟩], l⟩) :
    openElsewhere (.elsewhere (.ofRead 0)) s = s.setWindow ⟨b, usedOrder n, l⟩ := by
  rw [openElsewhere_last (by rw [hw]; simp), hw, nextAccess, hw]
  · rfl
  · rw [nextAccess, hw]
    refine placesFor_of_not_ready rfl fun back hpos hback => ?_
    have hle := hback.trans (freedom_le _ _)
    obtain rfl : back = 1 := by
      have hone : back ≤ 1 := hle
      omega
    rfl

/-- `SCTLR2MASK_EL1 <- X[u]`, `X[u]` holding the result of the read. -/
theorem writeMaskEL1_use (hw : s.window = ⟨b, [⟨0, n, .read⟩], l⟩) (hsrc : sourceOf u s = .ofRead 0) :
    writeMaskEL1 u s =
      (s.setMaskEL1 (readX s u)).setWindow ⟨b, usedOrder n, hold .maskEL1 (some 1) l⟩ := by
  have hid : elsewhereId s = some 1 := by simp [elsewhereId, hw]
  rw [writeMaskEL1, hsrc, openElsewhere_use hw, hid, hw]
  rfl

/-- `NVMem[0x328] <- X[u]`, `X[u]` holding the result of the read. -/
theorem nvWrite_use (hw : s.window = ⟨b, [⟨0, n, .read⟩], l⟩) (hsrc : sourceOf u s = .ofRead 0) :
    nvWrite u s = ((s.setMem (memWrite8 s.cfg.nvBigEndian s.mem (nvAddr s) (readX s u))).setNvEvents
      (s.nvEvents ++ [.memWrite (nvAddr s) (readX s u)])).setWindow ⟨b, usedOrder n,
        hold (.event s.nvEvents.length) (some 1) (hold (.cell (nvAddr s)) (some 1) l)⟩ := by
  have hid : elsewhereId s = some 1 := by simp [elsewhereId, hw]
  rw [nvWrite, hsrc, openElsewhere_use hw, hid, hw]
  rfl

/-- An operand that is no result of an open access is a word. -/
theorem sourceOf_of_not_held (h : ∀ a ∈ s.window.held, a.place ≠ .x t) : sourceOf t s = .word (readX s t) := by
  have hnone : heldAt (.x t) s.window.held = none := by
    revert h
    generalize s.window.held = l
    intro h
    induction l with
    | nil => rfl
    | cons a rest ih =>
      rw [heldAt, if_neg (h a (by simp))]
      exact ih fun c hc => h c (by simp [hc])
  rw [sourceOf, sourceAt, readHeldAt, hnone]

/-- What the read and its use give with a write by the other name among them: that write's value where it is by the EL2
name and put before the read, and the value from before otherwise. -/
theorem replayOfMsr_after_use (hnm : n ≠ m) (hw : s.window = ⟨b, usedOrder n, l⟩) (hsrc : sourceOf t s = .word x) :
    (replayOfMsr m t s).mask = storedMask s.cfg x ∧ ∀ id, id = 0 ∨ id = 1 → seenAt (replayOfMsr m t s).seen id =
      if m = .sctlr2maskEL2 ∧ Config.freeNat s.draws % 3 = 2 ∧ Config.freeNat (s.draws + 1) % 3 = 2
        then storedMask s.cfg x else b := by
  cases m with
  | sctlr2maskEL1 =>
    have hfree : freedom .sctlr2maskEL1 s.window.order = 0 := by simp [freedom, hw]
    have htest : testWindow .sctlr2maskEL1 s =
        ⟨b, usedOrder n ++ [⟨2, .sctlr2maskEL1, .test s.env.effMaskEL2⟩], l⟩ := by
      rw [testWindow, hfree, hw]
      rfl
    rw [replayOfMsr_of_places htest hsrc (placesFor_of_freedom_zero (by simp [freedom]) rfl), hw]
    refine ⟨rfl, ?_⟩
    rintro id (rfl | rfl) <;> rfl
  | sctlr2maskEL2 =>
    obtain rfl : n = .sctlr2maskEL1 := by
      cases n with
      | sctlr2maskEL1 => rfl
      | sctlr2maskEL2 => exact absurd rfl hnm
    have hfree : freedom .sctlr2maskEL2 s.window.order = 2 := by simp [freedom, hw]
    have hlt : Config.freeNat s.draws % 3 < 3 := Nat.mod_lt _ (by decide)
    have htest : testWindow .sctlr2maskEL2 s = insertAccess (Config.freeNat s.draws % 3)
        ⟨2, .sctlr2maskEL2, .test s.env.effMaskEL2⟩ ⟨b, usedOrder .sctlr2maskEL1, l⟩ := by
      rw [testWindow, hfree, drawn_succ, hw]
      rfl
    generalize Config.freeNat s.draws % 3 = place at hlt htest
    interval_cases place
    · rw [replayOfMsr_of_places (w := ⟨b, usedOrder .sctlr2maskEL1 ++ [⟨2, .sctlr2maskEL2, .test s.env.effMaskEL2⟩], l⟩)
        htest hsrc (placesFor_of_freedom_zero (by simp [freedom]) rfl), hw]
      refine ⟨rfl, ?_⟩
      rintro id (rfl | rfl) <;> rfl
    · have hlt₁ : Config.freeNat (s.draws + 1) % 2 < 2 := Nat.mod_lt _ (by decide)
      rw [replayOfMsr_of_places (w := ⟨b, [⟨0, .sctlr2maskEL1, .read⟩, ⟨2, .sctlr2maskEL2, .test s.env.effMaskEL2⟩,
        ⟨1, .sctlr2maskEL1, .elsewhere (.ofRead 0)⟩], l⟩) htest hsrc
        (placesFor_of_mayPutAt (k := 1) (by simp [freedom]) fun back hback => mayPutAt_of_no_test ?_), placeDrawn_range,
        hfree, drawnNext_succ, drawn_succ, hw]
      · generalize Config.freeNat (s.draws + 1) % 2 = place at hlt₁
        interval_cases place
        · refine ⟨rfl, ?_⟩
          rintro id (rfl | rfl) <;> rfl
        · refine ⟨rfl, ?_⟩
          rintro id (rfl | rfl) <;> rfl
      · interval_cases back
        · simp
        · simp [isTest]
    · have hlt₁ : Config.freeNat (s.draws + 1) % 3 < 3 := Nat.mod_lt _ (by decide)
      rw [replayOfMsr_of_places (w := ⟨b, ⟨2, .sctlr2maskEL2, .test s.env.effMaskEL2⟩ :: usedOrder .sctlr2maskEL1, l⟩)
        htest hsrc
        (placesFor_of_mayPutAt (k := 2) (by simp [freedom]) fun back hback => mayPutAt_of_no_test ?_), placeDrawn_range,
        hfree, drawnNext_succ, drawn_succ, hw]
      · generalize Config.freeNat (s.draws + 1) % 3 = place at hlt₁
        interval_cases place
        · refine ⟨rfl, ?_⟩
          rintro id (rfl | rfl) <;> rfl
        · refine ⟨rfl, ?_⟩
          rintro id (rfl | rfl) <;> rfl
        · refine ⟨rfl, ?_⟩
          rintro id (rfl | rfl) <;> rfl
      · interval_cases back
        · simp
        · simp [isTest]
        · simp [isTest]

/-- What every place that holds the read's result, or its use's, gets. -/
def usedValue (m : RegName) (b v : Word) (d : Nat) : Word :=
  if m = .sctlr2maskEL2 ∧ Config.freeNat d % 3 = 2 ∧ Config.freeNat (d + 1) % 3 = 2 then v else b

/-- An MSR of a word by the other name after that: it completes, stores its operand, and the places that hold the
results have `usedValue`. -/
theorem exec_msrBy_after_use (hnm : n ≠ m) (hreach : Reaches m s) (hel : s.pstate.el = .el2)
    (hw : s.window = ⟨b, usedOrder n, l⟩) (hb : effectiveEL2 s.cfg s.env b = 0#64) (hplaces : (l.map (·.place)).Nodup)
    (hholds : ∀ h ∈ l, (h.id = 0 ∨ h.id = 1) ∧ PlaceHolds h.place b s ∧ h.place ≠ .x t) :
    exec (msrBy m t) s = .next (afterMsrOpen m t s) ∧ (afterMsrOpen m t s).sctlr2maskEL2 = storedFrom s t ∧
      ∀ h ∈ l, PlaceHolds h.place (usedValue m b (storedFrom s t) s.draws) (afterMsrOpen m t s) := by
  have hseen : effectiveEL2 s.cfg s.env (valueRead m s) = 0#64 := by
    rw [valueRead_of_no_write hw (by simp) (by simp [Access.isWrite])]
    exact hb
  have hsrc : sourceOf t s = .word (readX s t) := sourceOf_of_not_held (by rw [hw]; exact fun a ha => (hholds a ha).2.2)
  have hexplained : Explained s := by
    refine ⟨by rw [hw]; exact hplaces, fun h hh => ?_⟩
    rw [hw] at hh ⊢
    obtain ⟨hid, hplace, -⟩ := hholds h hh
    rcases hid with hid | hid <;> rw [hid] <;> exact hplace
  obtain ⟨hmask, hresults⟩ := replayOfMsr_after_use hnm hw hsrc
  refine ⟨exec_msrBy_of_open hreach hel (by rw [hw]; simp) hseen t, (afterMsrOpen_sctlr2maskEL2 m t s).trans hmask,
    fun h hh => ?_⟩
  have hplace := placeHolds_afterMsrOpen m t hexplained (h := h) (by rw [hw]; exact hh)
  rwa [hresults h.id (hholds h hh).1] at hplace

end

/-! A read result put in SCTLR2MASK_EL1. -/

/-- The state after `MRS X[u]` by the name `n` in host mode and, out of host mode, `MSR SCTLR2MASK_EL1, X[u]`. -/
def storedRead (n : RegName) (u : RegNum) (s : State) : State :=
  advance (writeMaskEL1 u (withInputs .el2 { s.env with inHostEL2 := false } (afterMrs n u s)))

section

variable {n : RegName} {t u : RegNum} {s : State} (h : InHost s) (hpc : s.pc.toNat + 12 < 2 ^ 64) (hu : u ≠ 31#5)
  (hs : Settled s)

include hs hu

theorem storedRead_eq (n : RegName) : storedRead n u s =
    advance (((withInputs .el2 { s.env with inHostEL2 := false } (afterMrs n u s)).setMaskEL1 s.sctlr2maskEL2).setWindow
      ⟨s.sctlr2maskEL2, usedOrder n, [⟨.maskEL1, 1⟩, ⟨.x u, 0⟩]⟩) := by
  have hw : (withInputs .el2 { s.env with inHostEL2 := false } (afterMrs n u s)).window =
      ⟨s.sctlr2maskEL2, [⟨0, n, .read⟩], [⟨.x u, 0⟩]⟩ := by
    rw [withInputs_window, afterMrs_window_of_settled hs]
    simp [holdX, hold, hu]
  have hsrc : sourceOf u (withInputs .el2 { s.env with inHostEL2 := false } (afterMrs n u s)) = .ofRead 0 := by
    have hread := sourceOf_afterMrs_of_settled hs n u u
    rw [if_pos ⟨rfl, hu⟩] at hread
    exact hread
  have hvalue : readX (withInputs .el2 { s.env with inHostEL2 := false } (afterMrs n u s)) u = s.sctlr2maskEL2 := by
    rw [readX_withInputs, readX_afterMrs_self, if_neg hu, valueRead_of_settled hs]
  rw [storedRead, writeMaskEL1_use hw hsrc, hvalue]
  rfl

/-- What it leaves. -/
theorem storedRead_fields (n : RegName) : (storedRead n u s).cfg = s.cfg ∧
    (storedRead n u s).env = { s.env with inHostEL2 := false } ∧ (storedRead n u s).pstate.el = .el2 ∧
    (storedRead n u s).pc = s.pc + 4#64 + 4#64 ∧ (storedRead n u s).sctlr2maskEL1 = s.sctlr2maskEL2 ∧
    (storedRead n u s).window = ⟨s.sctlr2maskEL2, usedOrder n, [⟨.maskEL1, 1⟩, ⟨.x u, 0⟩]⟩ ∧
    (storedRead n u s).draws = s.draws ∧ ∀ v, readX (storedRead n u s) v = readX (afterMrs n u s) v := by
  rw [storedRead_eq hu hs n]
  refine ⟨?_, ?_, ?_, ?_, ?_, ?_, ?_, fun v => readX_congr ?_ v⟩
  · simp [advance]
  · simp [advance]
  · simp [advance]
  · simp [advance]
  · simp [advance]
  · simp [advance]
  · simp only [advance, State.setPc_draws, State.setWindow_draws, State.setMaskEL1_draws, withInputs_draws,
      afterMrs_draws_of_settled hs]
  · simp [advance]

/-- The places that hold the results, where the read's value is `b`. -/
theorem storedRead_holds (htu : t ≠ u) (n : RegName) : ∀ a ∈ [⟨.maskEL1, 1⟩, (⟨.x u, 0⟩ : Held)],
    (a.id = 0 ∨ a.id = 1) ∧ PlaceHolds a.place s.sctlr2maskEL2 (storedRead n u s) ∧ a.place ≠ .x t := by
  obtain ⟨-, -, -, -, hmask, -, -, hread⟩ := storedRead_fields hu hs n
  intro a ha
  simp only [List.mem_cons, List.not_mem_nil, or_false] at ha
  rcases ha with rfl | rfl
  · exact ⟨.inr rfl, hmask, by simp⟩
  · refine ⟨.inl rfl, ⟨hu, ?_⟩, by simpa using Ne.symm htu⟩
    rw [hread, readX_afterMrs_self, if_neg hu, valueRead_of_settled hs]

include h hpc

omit hu hs in
theorem exec_storedRead (n : RegName) :
    exec (.msrSctlr2maskEl1 u) (withInputs .el2 { s.env with inHostEL2 := false } (afterMrs n u s)) =
      .next (storedRead n u s) := by
  obtain ⟨hr, hel, h3, hhost⟩ := h
  have hr₂ : Runs (withInputs .el2 { s.env with inHostEL2 := false } (afterMrs n u s)) := by
    refine ⟨by simpa using hr.1, by simpa using hr.2.1, ?_⟩
    rw [withInputs_pc, afterMrs_pc]
    exact pc_fits_after (k := 4) (by omega)
  have h3₂ : El3Allows (withInputs .el2 { s.env with inHostEL2 := false } (afterMrs n u s)) := by
    rw [El3Allows, withInputs_cfg, afterMrs_cfg]
    exact h3
  have hexec := exec_msrEL1_of_maskEL1 hr₂ (.inr (.inl ⟨rfl, h3₂, rfl⟩)) (fun he => by simp at he) u
  rwa [if_neg (by simp)] at hexec

theorem runs_storedRead (n : RegName) : Runs (storedRead n u s) := by
  obtain ⟨hcfg, -, -, hpcs, -⟩ := storedRead_fields hu hs n
  refine ⟨by rw [hcfg]; exact h.1.1, by rw [hcfg]; exact h.1.2.1, ?_⟩
  rw [hpcs]
  exact pc_fits_after (k := 4) (pc_fits_after (k := 8) hpc)

end

/-- Settles O52: the write by the EL2 name may be put before the read and its use. -/
theorem aStoredReadStaysOpen : Obligations.AStoredReadStaysOpen := by
  intro t u s h _ hpc htu hu hs heff
  obtain ⟨hcfg, henv, hel, -, hmask, hw, hdraws, hread⟩ := storedRead_fields hu hs .sctlr2maskEL1
  have hr := runs_storedRead h hpc hu hs .sctlr2maskEL1
  have hholds := storedRead_holds hu hs htu .sctlr2maskEL1
  have hexec := exec_storedRead (u := u) h hpc .sctlr2maskEL1
  have hreadt : readX (storedRead .sctlr2maskEL1 u s) t = readX s t := by
    rw [hread, readX_afterMrs', if_neg fun e => htu e.1]
  generalize storedRead .sctlr2maskEL1 u s = s₃ at *
  have hreach : Reaches .sctlr2maskEL2 s₃ := by
    refine ⟨hr, .inr ⟨hel, ?_, fun e => (by cases e)⟩⟩
    rw [El3Allows, hcfg, henv]
    exact h.2.2.1
  obtain ⟨hmsr, hstored, hplaces⟩ := exec_msrBy_after_use (n := .sctlr2maskEL1) (t := t) (by simp) hreach hel hw
    (by rw [hcfg, henv]; exact heff) (by simp) hholds
  have hstored₃ : storedFrom s₃ t = storedFrom s t := by rw [storedFrom, storedFrom, hreadt, hcfg]
  rw [hstored₃] at hstored hplaces
  have hx := (hplaces ⟨.x u, 0⟩ (by simp)).2
  have hm1 : _ = _ := hplaces ⟨.maskEL1, 1⟩ (by simp)
  refine ⟨afterMrs .sctlr2maskEL1 u s, _, s₃, _, exec_mrsBy_of_inHost h .sctlr2maskEL1 u, applyInput_env _ _ _, hexec,
    hmask, hmsr, hstored, ?_⟩
  rw [hx, hm1, usedValue, hdraws]
  split
  · next hd => rw [if_pos ⟨rfl, hd⟩]; exact ⟨rfl, rfl⟩
  · next hd => rw [if_neg fun k => hd k.2]; exact ⟨rfl, rfl⟩

/-- Settles O54: the write by the EL1 name follows the use by that name, and so the read. -/
theorem theEL1NameKeepsItsOrderElsewhere : Obligations.TheEL1NameKeepsItsOrderElsewhere := by
  intro t u s h hpc htu hu hs heff
  obtain ⟨hcfg, -, -, -, -, hw, -, hread⟩ := storedRead_fields hu hs .sctlr2maskEL2
  have hr := runs_storedRead h hpc hu hs .sctlr2maskEL2
  have hholds := storedRead_holds hu hs htu .sctlr2maskEL2
  have hexec := exec_storedRead (u := u) h hpc .sctlr2maskEL2
  have hreadt : readX (storedRead .sctlr2maskEL2 u s) t = readX s t := by
    rw [hread, readX_afterMrs', if_neg fun e => htu e.1]
  generalize storedRead .sctlr2maskEL2 u s = s₃ at *
  have hin : InHost (withInputs .el2 s.env s₃) := by
    refine ⟨hr, rfl, ?_, h.2.2.2⟩
    rw [El3Allows, withInputs_cfg, hcfg]
    exact h.2.2.1
  obtain ⟨hmsr, hstored, hplaces⟩ := exec_msrBy_after_use (n := .sctlr2maskEL2) (m := .sctlr2maskEL1) (t := t) (by simp)
    (reaches_of_inHost hin _) rfl (by rw [withInputs_window, hw]) (by rw [withInputs_cfg, hcfg]; exact heff) (by simp)
    fun a ha => ⟨(hholds a ha).1, (hholds a ha).2.1.congr rfl (fun _ _ => rfl) rfl rfl rfl, (hholds a ha).2.2⟩
  have hstored₃ : storedFrom (withInputs .el2 s.env s₃) t = storedFrom s t := by
    rw [storedFrom, storedFrom, readX_withInputs, hreadt, withInputs_cfg, hcfg]
  rw [hstored₃] at hstored
  exact ⟨afterMrs .sctlr2maskEL2 u s, _, s₃, _, _, exec_mrsBy_of_inHost h .sctlr2maskEL2 u, applyInput_env _ _ _, hexec,
    applyInput_env _ _ _, hmsr, hstored, (hplaces ⟨.x u, 0⟩ (by simp)).2, hplaces ⟨.maskEL1, 1⟩ (by simp)⟩

end Sys2Proof.Proofs.Orderings
end

section
/-! PROOFS. Orderings in which an access at EL3 or a refused lock test stands between (20_memory.md rules R46, R47). -/

namespace Sys2Proof.Proofs.Orderings

open Sys2Proof Sys2Proof.Machine Sys2Proof.Claims Sys2Proof.Proofs.Events Sys2Proof.Proofs.Frames
  Sys2Proof.Proofs.Completion Sys2Proof.Proofs.Memory Sys2Proof.Proofs.OpenOrder Sys2Proof.Proofs.OpenSteps

/-- Back in host mode at EL2, with the run-time inputs of a state that was. -/
theorem inHost_withInputs {s s₁ : State} (h : InHost s) (hcfg : s₁.cfg = s.cfg) (hpc : s₁.pc.toNat + 4 < 2 ^ 64) :
    InHost (withInputs .el2 s.env s₁) := by
  obtain ⟨hr, -, h3, hhost⟩ := h
  refine ⟨⟨hcfg ▸ hr.1, hcfg ▸ hr.2.1, hpc⟩, rfl, ?_, hhost⟩
  rw [El3Allows, withInputs_cfg, hcfg]
  exact h3

/-- What a read or a lock test meets, of the accesses in order. -/
theorem valueRead_of_order {m : RegName} {s : State} {b : Word} {order : List Access} {k : Nat}
    (hbase : s.window.base = b) (horder : s.window.order = order) (hne : order ≠ []) (hfree : freedom m order = k) :
    valueRead m s = (replay s.cfg b (order.take (order.length - drawn k s.draws))).mask := by
  rw [valueRead, openWindow_of_open (by rw [horder]; exact hne), valueBefore, hbase, horder, hfree]

section

variable {s s₁ : State} {w : RegNum} {b x : Word} {body : Option Word}

/-- After an MSR by the EL1 name and a read by the other, another read by that: it follows the first, so it meets the
value written where the first did. -/
theorem valueRead_after_msr_mrs_again
    (hw : s.window = ⟨b, [⟨0, .sctlr2maskEL1, .test body⟩, ⟨1, .sctlr2maskEL1, .write (.word x)⟩], []⟩)
    (hcfg : s₁.cfg = s.cfg) (hw₁ : s₁.window = (afterMrs .sctlr2maskEL2 w s).window)
    (hdraws : s₁.draws = (afterMrs .sctlr2maskEL2 w s).draws) :
    valueRead .sctlr2maskEL2 s₁ = if Config.freeNat s.draws % 3 = 0 ∨
        Config.freeNat (s.draws + 1) % (Config.freeNat s.draws % 3 + 1) = 0
      then storedMask s.cfg x else b := by
  have hfree : freedom .sctlr2maskEL2 s.window.order = 2 := by rw [hw]; rfl
  rw [afterMrs_draws, hfree, drawnNext_succ] at hdraws
  rw [afterMrs_window, openWindow_of_open (by simp [hw]), readWindow, hfree, drawn_succ, hw] at hw₁
  have hbase : s₁.window.base = b := by rw [hw₁]; rfl
  have hlt : Config.freeNat s.draws % 3 < 3 := Nat.mod_lt _ (by decide)
  have hlt₁ : Config.freeNat (s.draws + 1) % 2 < 2 := Nat.mod_lt _ (by decide)
  have hlt₂ : Config.freeNat (s.draws + 1) % 3 < 3 := Nat.mod_lt _ (by decide)
  generalize Config.freeNat s.draws % 3 = place at hlt hw₁ ⊢
  interval_cases place
  · rw [valueRead_of_order (k := 0) (order := [⟨0, .sctlr2maskEL1, .test body⟩,
      ⟨1, .sctlr2maskEL1, .write (.word x)⟩, ⟨2, .sctlr2maskEL2, .read⟩]) hbase (by rw [hw₁]; rfl) (by simp) rfl, hcfg]
    rfl
  · rw [valueRead_of_order (k := 1) (order := [⟨0, .sctlr2maskEL1, .test body⟩, ⟨2, .sctlr2maskEL2, .read⟩,
      ⟨1, .sctlr2maskEL1, .write (.word x)⟩]) hbase (by rw [hw₁]; rfl) (by simp) rfl, hcfg, hdraws, drawn_succ]
    generalize Config.freeNat (s.draws + 1) % 2 = back at hlt₁
    interval_cases back <;> rfl
  · rw [valueRead_of_order (k := 2) (order := [⟨2, .sctlr2maskEL2, .read⟩, ⟨0, .sctlr2maskEL1, .test body⟩,
      ⟨1, .sctlr2maskEL1, .write (.word x)⟩]) hbase (by rw [hw₁]; rfl) (by simp) rfl, hcfg, hdraws, drawn_succ]
    generalize Config.freeNat (s.draws + 1) % 3 = back at hlt₂
    interval_cases back <;> rfl

end

/-- Settles O56: the read at EL3 keeps the accesses open, and the next read by its name follows it. -/
theorem anAccessAtEL3LeavesTheOrderOpen : Obligations.AnAccessAtEL3LeavesTheOrderOpen := by
  intro t u w s h hpc hs heff
  have hw := afterMsr_window (recorded_of_inHost h) .sctlr2maskEL1 t
  have hexec := exec_msrBy_of_settled (reaches_of_inHost h .sctlr2maskEL1) h.2.1 hs heff t
  have hmask := afterMsr_sctlr2maskEL2 .sctlr2maskEL1 t s
  have hcfg := afterMsr_cfg .sctlr2maskEL1 t s
  have hpc₁ : (afterMsr .sctlr2maskEL1 t s).pc.toNat + 8 < 2 ^ 64 := by
    rw [afterMsr_pc]
    exact pc_fits_after (k := 8) hpc
  generalize afterMsr .sctlr2maskEL1 t s = s₁ at *
  have hstored : storedMask s₁.cfg (readX s t) = storedFrom s t := by rw [hcfg]; rfl
  have hw₂ : (withInputs .el3 s.env s₁).window = s₁.window := withInputs_window _ _ _
  have hreach₂ : Reaches .sctlr2maskEL2 (withInputs .el3 s.env s₁) :=
    ⟨⟨by rw [withInputs_cfg, hcfg]; exact h.1.1, by rw [withInputs_cfg, hcfg]; exact h.1.2.1,
      by rw [withInputs_pc]; omega⟩, .inl ⟨rfl, rfl⟩⟩
  have hmrs := exec_mrsBy_of_recorded hreach₂ (recorded_of_open (by rw [hw₂, hw]; simp)) w
  have hread := readX_afterMrs_self .sctlr2maskEL2 w (withInputs .el3 s.env s₁)
  rw [valueRead_after_msr (by simp) (hw₂.trans hw), withInputs_draws, withInputs_cfg, hstored] at hread
  have hvalue := fun hc => valueRead_after_msr_mrs_again (w := w) (s₁ := withInputs .el2 s.env (afterMrs .sctlr2maskEL2 w
    (withInputs .el3 s.env s₁))) (hw₂.trans hw) hc (withInputs_window _ _ _) (withInputs_draws _ _ _)
  have hcfg₃ : (afterMrs .sctlr2maskEL2 w (withInputs .el3 s.env s₁)).cfg = s₁.cfg := by simp
  have hmask₃ : (afterMrs .sctlr2maskEL2 w (withInputs .el3 s.env s₁)).sctlr2maskEL2 = s₁.sctlr2maskEL2 := by simp
  have hpc₃ : (afterMrs .sctlr2maskEL2 w (withInputs .el3 s.env s₁)).pc.toNat + 4 < 2 ^ 64 := by
    rw [afterMrs_pc, withInputs_pc]
    exact pc_fits_after (k := 4) hpc₁
  generalize afterMrs .sctlr2maskEL2 w (withInputs .el3 s.env s₁) = s₃ at *
  have hin := inHost_withInputs h (hcfg₃.trans hcfg) hpc₃
  refine ⟨s₁, _, s₃, _, _, hexec, applyInput_env _ _ _, hmrs, applyInput_env _ _ _,
    exec_mrsBy_of_inHost hin .sctlr2maskEL2 u, ?_, hread, ?_⟩
  · rw [afterMrs_sctlr2maskEL2, withInputs_sctlr2maskEL2, hmask₃, hmask]
  · rw [readX_afterMrs_self, hvalue hcfg₃, withInputs_draws, withInputs_cfg, hstored]

theorem undefEntered_window (s : State) : (undefEntered s).window = s.window :=
  enterException_window _ _ _

/-- An MSR at EL2 whose lock test meets a mask that locks, its exception taken: the test keeps its place. -/
theorem exec_msrBy_of_refused {n : RegName} {s : State} (h : Reaches n s) (hel : s.pstate.el = .el2)
    (henter : s.cfg.onEvent = .enter) (hopen : s.window.order ≠ [])
    (hlock : effectiveEL2 s.cfg s.env (valueRead n s) ≠ 0#64) (t : RegNum) : ∃ s', exec (msrBy n t) s = .next s' ∧
      s'.window = testWindow n s ∧ s'.sctlr2maskEL2 = s.sctlr2maskEL2 ∧ s'.cfg = s.cfg ∧ s'.excEL2.elr = s.pc := by
  have hseen : maskSeenBy n s = valueRead n s := by rw [maskSeenBy, drawUpTo_eq, valueRead]
  have htest : (lockTest n s).2 = (s.setDraws (drawnNext (freedom n s.window.order) s.draws)).setWindow
      (testWindow n s) := by
    rw [lockTest_snd, drawUpTo_eq, if_pos (recorded_of_open hopen), openWindow_of_open hopen]
    rfl
  have hel₁ : undefTarget s = .el2 := by rw [undefTarget, hel]
  obtain ⟨-, helr, -, -, -, -, -, -, hkept⟩ :=
    undefEntered_taken s (drawnNext (freedom n s.window.order) s.draws) (testWindow n s)
  rw [hel₁] at helr
  have hraise := raise_undefined_of_enter (s := (s.setDraws (drawnNext (freedom n s.window.order) s.draws)).setWindow
    (testWindow n s)) henter .lockEL2 ⟨.write, n, t⟩
  rw [← htest, ← lockedWrite_of_locked hel (by rw [hseen]; exact hlock), ← exec_msrBy h, htest] at hraise
  exact ⟨_, hraise, undefEntered_window _, hkept.maskEL2, hkept.cfg, helr⟩

/-- Settles O57: the refused test follows the write it met, and the read by its name follows the test. -/
theorem aRefusedLockTestKeepsItsPlace : Obligations.ARefusedLockTestKeepsItsPlace := by
  intro t u w s h henter hpc hs heff hlock
  have hw := afterMsr_window (recorded_of_inHost h) .sctlr2maskEL1 t
  have hexec := exec_msrBy_of_settled (reaches_of_inHost h .sctlr2maskEL1) h.2.1 hs heff t
  have hmask := afterMsr_sctlr2maskEL2 .sctlr2maskEL1 t s
  have hcfg := afterMsr_cfg .sctlr2maskEL1 t s
  have hexc : (afterMsr .sctlr2maskEL1 t s).excEL2 = s.excEL2 := rfl
  have hpc₁ : (afterMsr .sctlr2maskEL1 t s).pc.toNat + 4 < 2 ^ 64 := by
    rw [afterMsr_pc]
    exact pc_fits_after (k := 4) hpc
  generalize afterMsr .sctlr2maskEL1 t s = s₁ at *
  have hstored : storedMask s.cfg (readX s t) = storedFrom s t := rfl
  have hinput := applyInput_env .el2 { s.env with inHostEL2 := false, e2hEffective := 0#1 } s₁
  obtain ⟨s₂, hs₂⟩ : ∃ s₂, withInputs .el2 { s.env with inHostEL2 := false, e2hEffective := 0#1 } s₁ = s₂ := ⟨_, rfl⟩
  have hcfg₂ : s₂.cfg = s.cfg := by rw [← hs₂, withInputs_cfg, hcfg]
  have henv₂ : s₂.env = { s.env with inHostEL2 := false, e2hEffective := 0#1 } := by rw [← hs₂, withInputs_env]
  have hel₂ : s₂.pstate.el = .el2 := by rw [← hs₂, withInputs_el]
  have hpc₂ : s₂.pc = s₁.pc := by rw [← hs₂, withInputs_pc]
  have hw₂ := hw
  rw [← withInputs_window .el2 { s.env with inHostEL2 := false, e2hEffective := 0#1 } s₁, hs₂] at hw₂
  have hdraws₂ : s₂.draws = s₁.draws := by rw [← hs₂, withInputs_draws]
  have hmask₂ : s₂.sctlr2maskEL2 = storedFrom s t := by rw [← hs₂, withInputs_sctlr2maskEL2, hmask]
  have hexc₂ : s₂.excEL2 = s.excEL2 := by rw [← hs₂, ← hexc]; rfl
  have hvalue := valueRead_after_msr (m := .sctlr2maskEL2) (by simp) hw₂
  rw [hdraws₂, hcfg₂, hstored] at hvalue
  rw [hs₂] at hinput
  have hreach : Reaches .sctlr2maskEL2 s₂ := by
    refine ⟨⟨hcfg₂ ▸ h.1.1, hcfg₂ ▸ h.1.2.1, by rw [hpc₂]; exact hpc₁⟩, .inr ⟨hel₂, ?_, fun e => (by cases e)⟩⟩
    rw [El3Allows, hcfg₂, henv₂]
    exact h.2.2.1
  have hopen : s₂.window.order ≠ [] := by rw [hw₂]; simp
  have heff₂ (v : Word) : effectiveEL2 s₂.cfg s₂.env v = effectiveEL2 s.cfg s.env v := by
    rw [hcfg₂, henv₂]
    rfl
  by_cases hplace : Config.freeNat s₁.draws % 3 = 0
  · rw [if_pos hplace] at hvalue
    obtain ⟨s₃, hmsr, hw₃, hmask₃, hcfg₃, helr⟩ := exec_msrBy_of_refused hreach hel₂ (by rw [hcfg₂]; exact henter) hopen
      (by rw [heff₂, hvalue]; exact hlock) w
    refine ⟨s₁, s₂, s₃, hexec, hinput, hmsr, fun _ => ⟨hmask₃.trans hmask₂, helr, fun hpc₃ => ?_⟩,
      fun hne => absurd hplace hne⟩
    refine ⟨_, _, applyInput_env _ _ _,
      exec_mrsBy_of_inHost (inHost_withInputs h (hcfg₃.trans hcfg₂) hpc₃) .sctlr2maskEL2 u, ?_⟩
    have htest : testWindow .sctlr2maskEL2 s₂ = ⟨s.sctlr2maskEL2, [⟨0, .sctlr2maskEL1, .test s.env.effMaskEL2⟩,
        ⟨1, .sctlr2maskEL1, .write (.word (readX s t))⟩, ⟨2, .sctlr2maskEL2, .test s₂.env.effMaskEL2⟩], []⟩ := by
      have hfree : freedom .sctlr2maskEL2 s₂.window.order = 2 := by rw [hw₂]; rfl
      rw [testWindow, hfree, drawn_succ, hdraws₂, hplace, hw₂]
      rfl
    rw [htest, ← withInputs_window .el2 s.env s₃] at hw₃
    rw [readX_afterMrs_self, valueRead_of_order (s := withInputs .el2 s.env s₃) (k := 0) (congrArg Window.base hw₃)
      (congrArg Window.order hw₃) (by simp) rfl, withInputs_cfg, hcfg₃, hcfg₂]
    rfl
  · rw [if_neg hplace] at hvalue
    exact ⟨s₁, s₂, _, hexec, hinput, exec_msrBy_of_open hreach hel₂ hopen (by rw [heff₂, hvalue]; exact heff) w,
      fun hz => absurd hz hplace, fun _ => ⟨afterMsrOpen_pc _ _ _, (afterMsrOpen_excEL2 _ _ _).trans hexc₂⟩⟩

end Sys2Proof.Proofs.Orderings
end

section
/-! PROOFS. Orderings of a read of SCTLR2MASK_EL1 by the EL1 name, and of a write of the cell (20_memory.md rules R41, R46,
R47). -/

namespace Sys2Proof.Proofs.Orderings

open Sys2Proof Sys2Proof.Machine Sys2Proof.Claims Sys2Proof.Proofs.Events Sys2Proof.Proofs.Frames
  Sys2Proof.Proofs.Completion Sys2Proof.Proofs.Memory Sys2Proof.Proofs.OpenOrder Sys2Proof.Proofs.OpenSteps

section

variable {t u : RegNum} {s : State} {b x : Word} {l : List Held}

/-- The open accesses after a read of SCTLR2MASK_EL2 by the EL1 name and one of SCTLR2MASK_EL1, of value `x`. -/
abbrev readsOrder (x : Word) : List Access :=
  [⟨0, .sctlr2maskEL1, .read⟩, ⟨1, .sctlr2maskEL1, .elsewhere (.word x)⟩]

/-- A read of SCTLR2MASK_EL1 into `X[t]` where a read into `X[u]` is open. -/
theorem readMaskEL1_after_read (htu : t ≠ u) (ht : t ≠ 31#5)
    (hw : s.window = ⟨b, [⟨0, .sctlr2maskEL1, .read⟩], [⟨.x u, 0⟩]⟩) :
    (readMaskEL1 t s).2 = s.setWindow ⟨b, readsOrder s.sctlr2maskEL1, [⟨.x t, 1⟩, ⟨.x u, 0⟩]⟩ := by
  have hid : elsewhereId s = some 1 := by simp [elsewhereId, hw]
  have hsrc : sourceAt .maskEL1 s.sctlr2maskEL1 s = .word s.sctlr2maskEL1 := by
    rw [sourceAt, readHeldAt, hw]
    rfl
  have hplaces : placesFor s.cfg s.window (nextAccess .sctlr2maskEL1 (.elsewhere (.word s.sctlr2maskEL1)) s) = [0] :=
    placesFor_of_freedom_zero (by rw [hw]; rfl) (by rw [hw]; rfl)
  have hheld : holdX t (some 1) [⟨.x u, 0⟩] = [⟨.x t, 1⟩, ⟨.x u, 0⟩] := by simp [holdX, hold, ht, Ne.symm htu]
  rw [readMaskEL1, hsrc, openElsewhere_last (by rw [hw]; simp) hplaces, hid, nextAccess, hw, hheld]
  rfl

/-- A write of what the second read gave comes after it, and so after the first. -/
theorem replayOfMsr_after_reads (hw : s.window = ⟨b, readsOrder x, l⟩) (hsrc : sourceOf t s = .ofRead 1) :
    (replayOfMsr .sctlr2maskEL2 t s).mask = storedMask s.cfg x ∧ seenAt (replayOfMsr .sctlr2maskEL2 t s).seen 0 = b := by
  have hfree : freedom .sctlr2maskEL2 s.window.order = 2 := by rw [hw]; rfl
  have hlt : Config.freeNat s.draws % 3 < 3 := Nat.mod_lt _ (by decide)
  have htest : testWindow .sctlr2maskEL2 s = insertAccess (Config.freeNat s.draws % 3)
      ⟨2, .sctlr2maskEL2, .test s.env.effMaskEL2⟩ ⟨b, readsOrder x, l⟩ := by
    rw [testWindow, hfree, drawn_succ, hw]
    rfl
  generalize Config.freeNat s.draws % 3 = place at hlt htest
  have hplaces : placesFor s.cfg (insertAccess place ⟨2, .sctlr2maskEL2, .test s.env.effMaskEL2⟩ ⟨b, readsOrder x, l⟩)
      ⟨(insertAccess place ⟨2, .sctlr2maskEL2, .test s.env.effMaskEL2⟩ ⟨b, readsOrder x, l⟩).order.length,
        .sctlr2maskEL2, .write (.ofRead 1)⟩ = [0] := by
    interval_cases place
    · exact placesFor_of_freedom_zero rfl rfl
    · refine placesFor_of_not_ready rfl fun back hpos hback => ?_
      have hle : back ≤ 1 := hback
      interval_cases back
      rfl
    · refine placesFor_of_not_ready rfl fun back hpos hback => ?_
      have hle : back ≤ 2 := hback
      interval_cases back <;> rfl
  rw [replayOfMsr_of_places htest hsrc hplaces, placeDrawn_singleton, hw]
  interval_cases place <;> exact ⟨rfl, rfl⟩

/-- Out of host mode, a read of SCTLR2MASK_EL1 into `X[t]` and a write of that to SCTLR2MASK_EL2, where a read into `X[u]`
is open: all complete, and `X[u]` keeps the value from before. -/
theorem exec_reads_then_write (htu : t ≠ u) (ht : t ≠ 31#5) (hu : u ≠ 31#5) (hr : Runs s) (hpc : s.pc.toNat + 8 < 2 ^ 64)
    (hel : s.pstate.el = .el2) (h3 : El3Allows s) (hhost : s.env.inHostEL2 = false)
    (hw : s.window = ⟨b, [⟨0, .sctlr2maskEL1, .read⟩], [⟨.x u, 0⟩]⟩) (hread : readX s u = b)
    (hb : effectiveEL2 s.cfg s.env b = 0#64) :
    ∃ s₁ s₂, exec (.mrsSctlr2maskEl1 t) s = .next s₁ ∧ readX s₁ t = s.sctlr2maskEL1 ∧
      exec (.msrSctlr2maskEl2 t) s₁ = .next s₂ ∧ s₂.sctlr2maskEL2 = storedMask s.cfg s.sctlr2maskEL1 ∧ readX s₂ u = b := by
  have hmrs := exec_mrsEL1_of_maskEL1 hr (.inr (.inl ⟨hel, h3, hhost⟩)) t
  rw [readMaskEL1_after_read htu ht hw] at hmrs
  generalize hwindow : (⟨b, readsOrder s.sctlr2maskEL1, [⟨.x t, 1⟩, ⟨.x u, 0⟩]⟩ : Window) = win at hmrs
  obtain ⟨x, hx⟩ := writeX_shape (s.setWindow win) t s.sctlr2maskEL1
  have hread₁ (v : RegNum) : readX (advance (writeX (s.setWindow win) t s.sctlr2maskEL1)) v =
      if v = t ∧ t ≠ 31#5 then s.sctlr2maskEL1 else readX s v := readX_writeX _ t v _
  obtain ⟨s₁, hs₁⟩ : ∃ s₁, advance (writeX (s.setWindow win) t s.sctlr2maskEL1) = s₁ := ⟨_, rfl⟩
  rw [hs₁] at hmrs hread₁
  rw [hx] at hs₁
  have hcfg₁ : s₁.cfg = s.cfg := by rw [← hs₁]; rfl
  have henv₁ : s₁.env = s.env := by rw [← hs₁]; rfl
  have hpstate₁ : s₁.pstate = s.pstate := by rw [← hs₁]; rfl
  have hpc₁ : s₁.pc = s.pc + 4#64 := by rw [← hs₁]; rfl
  have hw₁ : s₁.window = win := by rw [← hs₁]; rfl
  rw [← hwindow] at hw₁
  have hreadt : readX s₁ t = s.sctlr2maskEL1 := by rw [hread₁, if_pos ⟨rfl, ht⟩]
  have hreadu : readX s₁ u = b := by rw [hread₁, if_neg fun e => htu e.1.symm, hread]
  have hreach : Reaches .sctlr2maskEL2 s₁ := reaches_of_same ⟨hr, .inr ⟨hel, h3, fun e => (by cases e)⟩⟩
    hcfg₁ henv₁ hpstate₁ (by rw [hpc₁]; exact pc_fits_after (k := 4) hpc)
  have hsrc : sourceOf t s₁ = .ofRead 1 := by
    rw [sourceOf, sourceAt, readHeldAt, hw₁]
    simp [heldAt]
  have hexplained : Explained s₁ := by
    refine ⟨by rw [hw₁]; simp [htu], fun a ha => ?_⟩
    rw [hw₁] at ha ⊢
    simp only [List.mem_cons, List.not_mem_nil, or_false] at ha
    rcases ha with rfl | rfl
    · exact ⟨ht, hreadt⟩
    · exact ⟨hu, hreadu⟩
  have hseen : effectiveEL2 s₁.cfg s₁.env (valueRead .sctlr2maskEL2 s₁) = 0#64 := by
    rw [valueRead_of_no_write hw₁ (by simp) (by simp [Access.isWrite]), hcfg₁, henv₁]
    exact hb
  obtain ⟨hmask, hresult⟩ := replayOfMsr_after_reads hw₁ hsrc
  refine ⟨s₁, _, hmrs, hreadt, exec_msrBy_of_open hreach (hpstate₁ ▸ hel) (by rw [hw₁]; simp) hseen t, ?_, ?_⟩
  · rw [afterMsrOpen_sctlr2maskEL2, hmask, hcfg₁]
  · rw [readX_of_held (s := s₁) (id := 0) (by rw [hw₁]; simp)
      (fun a ha => placeHolds_afterMsrOpen _ t hexplained ha), hresult]

end

/-- Settles O55: the write of the second read's result follows it, and that the first. -/
theorem anOperandReadElsewhereKeepsItsOrder : Obligations.AnOperandReadElsewhereKeepsItsOrder := by
  intro t u s h hpc htu ht hu hs heff
  have hmrs := exec_mrsBy_of_inHost h .sctlr2maskEL1 u
  have hw := afterMrs_window_of_settled hs .sctlr2maskEL1 u
  have hheld : holdX u (some 0) [] = [⟨.x u, 0⟩] := by simp [holdX, hold, hu]
  have hread := readX_afterMrs_self .sctlr2maskEL1 u s
  rw [hheld] at hw
  rw [if_neg hu, valueRead_of_settled hs] at hread
  have hcfg := afterMrs_cfg .sctlr2maskEL1 u s
  have hpc₁ : (afterMrs .sctlr2maskEL1 u s).pc.toNat + 8 < 2 ^ 64 := by
    rw [afterMrs_pc]
    exact pc_fits_after (k := 8) hpc
  have hmask1 := afterMrs_sctlr2maskEL1 .sctlr2maskEL1 u s
  generalize afterMrs .sctlr2maskEL1 u s = s₁ at *
  obtain ⟨s₃, s₄, hmrs₂, hreadt, hmsr, hmask, hreadu⟩ := exec_reads_then_write
    (s := withInputs .el2 { s.env with inHostEL2 := false } s₁) htu ht hu
    ⟨by rw [withInputs_cfg, hcfg]; exact h.1.1, by rw [withInputs_cfg, hcfg]; exact h.1.2.1, by
      rw [withInputs_pc]; omega⟩ hpc₁ rfl (by rw [El3Allows, withInputs_cfg, hcfg]; exact h.2.2.1) rfl
    ((withInputs_window _ _ _).trans hw) hread (by rw [withInputs_cfg, hcfg]; exact heff)
  rw [withInputs_sctlr2maskEL1, hmask1] at hreadt hmask
  rw [withInputs_cfg, hcfg] at hmask
  exact ⟨s₁, _, s₃, s₄, hmrs, applyInput_env _ _ _, hmrs₂, hreadt, hmsr, hmask, hreadu⟩

end Sys2Proof.Proofs.Orderings
end

section
/-! PROOFS. A read result written to the cell (20_memory.md rules R41, R42, R46, R47): the cell, and what its history records,
are places of it like a register. -/

namespace Sys2Proof.Proofs.Orderings

open Sys2Proof Sys2Proof.Machine Sys2Proof.Claims Sys2Proof.Proofs.Events Sys2Proof.Proofs.Frames
  Sys2Proof.Proofs.Completion Sys2Proof.Proofs.Memory Sys2Proof.Proofs.OpenOrder Sys2Proof.Proofs.OpenSteps

/-! The bytes of the cell. -/

theorem byteOf_wordOf (f : Nat → Byte) {i : Nat} (h : i < 8) : byteOf (wordOf f) i = f i := by
  simp only [wordOf, byteOf]
  ext j hj
  simp only [BitVec.getElem_extractLsb', BitVec.getLsbD_append]
  rw [← BitVec.getLsbD_eq_getElem]
  interval_cases i <;> simp (disch := omega) only [if_pos, if_neg]
  all_goals congr 1; omega

/-- Every byte of a cell that reads as `v`, whatever the free word, is there. -/
theorem memGet_of_memRead8 {be : Bool} {m : Memory} {a i : Nat} {v : Word} (h : ∀ free, memRead8 be m a free = v)
    (hi : i < 8) : memGet m (a + i) = some (byteOf v (byteIndex be i)) := by
  have hbyte (free : Word) : (memGet m (a + i)).getD (byteOf free (byteIndex be i)) = byteOf v (byteIndex be i) := by
    rw [← h free, memRead8, byteOf_wordOf _ (byteIndex_lt hi), byteIndex_byteIndex hi]
  cases hget : memGet m (a + i) with
  | some c =>
    have hc := hbyte 0#64
    rw [hget] at hc
    exact congrArg some hc
  | none =>
    have hne := (hbyte 0#64).trans (hbyte (BitVec.allOnes 64)).symm
    rw [hget] at hne
    have hlt : byteIndex be i < 8 := byteIndex_lt hi
    generalize byteIndex be i = j at hlt hne
    interval_cases j <;> exact absurd hne (by decide)

theorem cellHolds_of_placeHolds {s s' : State} {v : Word} (hcfg : s'.cfg = s.cfg)
    (h : PlaceHolds (.cell (nvAddr s)) v s') : CellHolds v s s' := by
  intro i hi
  rw [← hcfg]
  exact memGet_of_memRead8 h.2.2 hi

/-- A record whose last event alone may have another value. -/
theorem nvEvents_eq_of_last {l l' : List NvEvent} {a : Nat} {b v : Word}
    (hother : ∀ j, j ≠ l.length → l'[j]? = (l ++ [NvEvent.memWrite a b])[j]?)
    (hkind : (l'[l.length]?).map (NvEvent.withValue v) = ((l ++ [NvEvent.memWrite a b])[l.length]?).map (NvEvent.withValue v))
    (hvalue : (l'[l.length]?).map NvEvent.value = some v) : l' = l ++ [NvEvent.memWrite a v] := by
  refine List.ext_getElem? fun j => ?_
  by_cases hj : j = l.length
  · subst hj
    obtain ⟨e, he, hev⟩ := Option.map_eq_some_iff.1 hvalue
    rw [he, List.getElem?_concat_length] at hkind
    rw [he, List.getElem?_concat_length, ← withValue_value hev]
    exact hkind
  · rw [hother j hj]
    rcases Nat.lt_or_gt_of_ne hj with hlt | hgt
    · rw [List.getElem?_append_left hlt, List.getElem?_append_left hlt]
    · rw [List.getElem?_eq_none (by simpa using hgt), List.getElem?_eq_none (by simpa using hgt)]

/-! The write of the cell. -/

section

variable (n : RegName) (u : RegNum) (b : Word) (s : State)

/-- The state after `MSR SCTLR2MASK_EL1, X[u]` has written the cell, `X[u]` holding the result of a read of value `b`. -/
def cellWritten : State :=
  advance (((s.setMem (memWrite8 s.cfg.nvBigEndian s.mem (nvAddr s) b)).setNvEvents
    (s.nvEvents ++ [.memWrite (nvAddr s) b])).setWindow
      ⟨b, usedOrder n, [⟨.event s.nvEvents.length, 1⟩, ⟨.cell (nvAddr s), 1⟩, ⟨.x u, 0⟩]⟩)

@[simp] theorem cellWritten_cfg : (cellWritten n u b s).cfg = s.cfg := by simp [cellWritten, advance]
@[simp] theorem cellWritten_pc : (cellWritten n u b s).pc = s.pc + 4#64 := by simp [cellWritten, advance]
@[simp] theorem cellWritten_draws : (cellWritten n u b s).draws = s.draws := by simp [cellWritten, advance]
@[simp] theorem cellWritten_mem :
    (cellWritten n u b s).mem = memWrite8 s.cfg.nvBigEndian s.mem (nvAddr s) b := by simp [cellWritten, advance]
@[simp] theorem cellWritten_nvEvents :
    (cellWritten n u b s).nvEvents = s.nvEvents ++ [.memWrite (nvAddr s) b] := by simp [cellWritten, advance]
@[simp] theorem cellWritten_window : (cellWritten n u b s).window =
    ⟨b, usedOrder n, [⟨.event s.nvEvents.length, 1⟩, ⟨.cell (nvAddr s), 1⟩, ⟨.x u, 0⟩]⟩ := by simp [cellWritten, advance]
@[simp] theorem readX_cellWritten (t : RegNum) : readX (cellWritten n u b s) t = readX s t :=
  readX_congr (by simp [cellWritten, advance]) t

variable {n u b s}

theorem advance_nvWrite_after_read (hw : s.window = ⟨b, [⟨0, n, .read⟩], [⟨.x u, 0⟩]⟩) (hread : readX s u = b) :
    advance (nvWrite u s) = cellWritten n u b s := by
  have hsrc : sourceOf u s = .ofRead 0 := by
    rw [sourceOf, sourceAt, readHeldAt, hw]
    simp [heldAt]
  have hheld : hold (.event s.nvEvents.length) (some 1) (hold (.cell (nvAddr s)) (some 1) [⟨.x u, 0⟩]) =
      [⟨.event s.nvEvents.length, 1⟩, ⟨.cell (nvAddr s), 1⟩, ⟨.x u, 0⟩] := by simp [hold]
  rw [nvWrite_use hw hsrc, hread, hheld, cellWritten]

/-- Every place that holds a result has the value of the read. -/
theorem cellWritten_holds {t : RegNum} (htu : t ≠ u) (hu : u ≠ 31#5) (hn : nvCheck s = none) (hread : readX s u = b) :
    ∀ a ∈ (cellWritten n u b s).window.held,
      (a.id = 0 ∨ a.id = 1) ∧ PlaceHolds a.place b (cellWritten n u b s) ∧ a.place ≠ .x t := by
  intro a ha
  simp only [cellWritten_window, List.mem_cons, List.not_mem_nil, or_false] at ha
  rcases ha with rfl | rfl | rfl
  · exact ⟨.inr rfl, by simp [PlaceHolds, NvEvent.value], by simp⟩
  · refine ⟨.inr rfl, ⟨nvAddr_aligned hn, nvAddr_fits hn, fun free => ?_⟩, by simp⟩
    rw [cellWritten_cfg, cellWritten_mem]
    exact memRead8_memWrite8 _ _ _ _ _
  · exact ⟨.inl rfl, ⟨hu, (readX_cellWritten n u b s u).trans hread⟩, by simpa using Ne.symm htu⟩

/-- An MSR by the other name after that, back in host mode at EL2: every place that holds a result has `usedValue`. -/
theorem exec_msrBy_after_cellWritten {m : RegName} {t : RegNum} {e : Env} (hnm : n ≠ m) (htu : t ≠ u) (hu : u ≠ 31#5)
    (hn : nvCheck s = none) (hread : readX s u = b) (hin : InHost (withInputs .el2 e (cellWritten n u b s)))
    (hb : effectiveEL2 s.cfg e b = 0#64) : ∃ s', exec (msrBy m t) (withInputs .el2 e (cellWritten n u b s)) = .next s' ∧
      s'.sctlr2maskEL2 = storedFrom s t ∧ s'.cfg = s.cfg ∧
      readX s' u = usedValue m b (storedFrom s t) s.draws ∧
      PlaceHolds (.cell (nvAddr s)) (usedValue m b (storedFrom s t) s.draws) s' ∧
      s'.nvEvents = s.nvEvents ++ [.memWrite (nvAddr s) (usedValue m b (storedFrom s t) s.draws)] := by
  have hholds := cellWritten_holds (n := n) htu hu hn hread
  have hcfg := cellWritten_cfg n u b s
  have hw := cellWritten_window n u b s
  have hreadt := readX_cellWritten n u b s t
  have hdraws := cellWritten_draws n u b s
  have hevents := cellWritten_nvEvents n u b s
  generalize cellWritten n u b s = s₁ at *
  rw [hw] at hholds
  obtain ⟨hmsr, hstored, hplaces⟩ := exec_msrBy_after_use (n := n) (m := m) (t := t) hnm (reaches_of_inHost hin m) rfl
    ((withInputs_window .el2 e s₁).trans hw) (by rw [withInputs_cfg, hcfg]; exact hb) (by simp)
    fun a ha => ⟨(hholds a ha).1, (hholds a ha).2.1.congr rfl (fun _ _ => rfl) rfl rfl rfl, (hholds a ha).2.2⟩
  have hstored₁ : storedFrom (withInputs .el2 e s₁) t = storedFrom s t := by
    rw [storedFrom, storedFrom, readX_withInputs, hreadt, withInputs_cfg, hcfg]
  rw [hstored₁, withInputs_draws, hdraws] at hplaces
  rw [hstored₁] at hstored
  have hother (j : Nat) (hj : j ≠ s.nvEvents.length) :
      (afterMsrOpen m t (withInputs .el2 e s₁)).nvEvents[j]? = s₁.nvEvents[j]? := by
    rw [nvEvent_afterMsrOpen m t _ fun a ha => ?_, withInputs_nvEvents]
    rw [withInputs_window, hw] at ha
    simp only [List.mem_cons, List.not_mem_nil, or_false] at ha
    rcases ha with rfl | rfl | rfl <;> simp [Ne.symm hj]
  have hkind := nvEventKind_afterMsrOpen m t (withInputs .el2 e s₁) s.nvEvents.length
    (usedValue m b (storedFrom s t) s.draws)
  rw [withInputs_nvEvents, hevents] at hkind
  rw [hevents] at hother
  exact ⟨_, hmsr, hstored, by rw [afterMsrOpen_cfg, withInputs_cfg, hcfg], (hplaces ⟨.x u, 0⟩ (by simp)).2,
    hplaces ⟨.cell (nvAddr s), 1⟩ (by simp),
    nvEvents_eq_of_last hother hkind (hplaces ⟨.event s.nvEvents.length, 1⟩ (by simp))⟩

end

/-- Settles O53: the write by the EL2 name may be put before the read and its use, which the cell and its record follow. -/
theorem aReadStoredInMemoryStaysOpen : Obligations.AReadStoredInMemoryStaysOpen := by
  intro n m t u s hnm h hpc htu hu hs heff h2 hn
  have hmrs := exec_mrsBy_of_inHost h n u
  have hw := afterMrs_window_of_settled hs n u
  have hheld : holdX u (some 0) [] = [⟨.x u, 0⟩] := by simp [holdX, hold, hu]
  have hread := readX_afterMrs_self n u s
  have hreadt : readX (afterMrs n u s) t = readX s t := by rw [readX_afterMrs', if_neg fun e => htu e.1]
  have hdraws := afterMrs_draws_of_settled hs n u
  rw [hheld] at hw
  rw [if_neg hu, valueRead_of_settled hs] at hread
  have hcfg := afterMrs_cfg n u s
  have hpc₁ : (afterMrs n u s).pc.toNat + 8 < 2 ^ 64 := by
    rw [afterMrs_pc]
    exact pc_fits_after (k := 8) hpc
  have hevents := afterMrs_nvEvents n u s
  have hregions := afterMrs_regions n u s
  have htext := afterMrs_text n u s
  generalize afterMrs n u s = s₁ at *
  obtain ⟨s₂, hs₂⟩ : ∃ s₂, withInputs .el1 { s.env with nvx := 0b111#3 } s₁ = s₂ := ⟨_, rfl⟩
  have hinput := applyInput_env .el1 { s.env with nvx := 0b111#3 } s₁
  rw [hs₂] at hinput
  have hcfg₂ : s₂.cfg = s.cfg := by rw [← hs₂, withInputs_cfg, hcfg]
  have henv₂ : s₂.env = { s.env with nvx := 0b111#3 } := by rw [← hs₂, withInputs_env]
  have hpc₂ : s₂.pc.toNat + 8 < 2 ^ 64 := by rw [← hs₂, withInputs_pc]; exact hpc₁
  have hevents₂ : s₂.nvEvents = s.nvEvents := by rw [← hs₂, withInputs_nvEvents, hevents]
  have hread₂ : readX s₂ u = s.sctlr2maskEL2 := by rw [← hs₂, readX_withInputs, hread]
  have hdraws₂ : s₂.draws = s.draws := by rw [← hs₂, withInputs_draws, hdraws]
  have hstored₂ : storedFrom s₂ t = storedFrom s t := by
    rw [← hs₂, storedFrom, storedFrom, readX_withInputs, hreadt, withInputs_cfg, hcfg]
  have haddr₂ : nvAddr s₂ = nvAddr s := by rw [nvAddr, nvAddr, henv₂]
  have hn₂ : nvCheck s₂ = none := by
    rw [← hn, nvCheck, nvCheck, haddr₂, henv₂, ← hs₂, withInputs_regions, hregions, withInputs_text, htext]
  have hw₂ := (withInputs_window .el1 { s.env with nvx := 0b111#3 } s₁).trans hw
  rw [hs₂] at hw₂
  have hel₂ : s₂.pstate.el = .el1 := by rw [← hs₂, withInputs_el]
  have h3₂ : El3Allows s₂ := by rw [El3Allows, hcfg₂, henv₂]; exact h.2.2.1
  have h2₂ : El2Allows s₂.env.hfgwtr2_nSCTLR2MASK_EL1 s₂ := by rw [El2Allows, hcfg₂, henv₂]; exact h2
  have hmsr₂ := exec_msrEL1_of_admitted ⟨hcfg₂ ▸ h.1.1, hcfg₂ ▸ h.1.2.1, by omega⟩ hel₂ h3₂ h2₂ (by rw [henv₂]) hn₂ u
  rw [advance_nvWrite_after_read hw₂ hread₂] at hmsr₂
  have hin := inHost_withInputs (s₁ := cellWritten n u s.sctlr2maskEL2 s₂) h
    ((cellWritten_cfg _ _ _ _).trans hcfg₂)
    (by rw [cellWritten_pc]; exact pc_fits_after (k := 4) hpc₂)
  obtain ⟨s₅, hmsr, hmask, hcfg₅, hreadu, hcell, hrecord⟩ := exec_msrBy_after_cellWritten (t := t) hnm htu hu hn₂ hread₂ hin
    (by rw [hcfg₂]; exact heff)
  rw [hstored₂] at hmask
  rw [hstored₂, hdraws₂] at hreadu
  rw [hstored₂, hdraws₂, haddr₂] at hcell
  rw [hstored₂, hdraws₂, haddr₂, hevents₂] at hrecord
  exact ⟨s₁, s₂, _, _, s₅, hmrs, hinput, hmsr₂, applyInput_env _ _ _, hmsr, hmask, _, rfl, hreadu,
    cellHolds_of_placeHolds (hcfg₅.trans hcfg₂) hcell, hrecord⟩

end Sys2Proof.Proofs.Orderings
end
